-- ==== Sys2Proof/Word.lean ====
section
/-! DEFINITION. The two word types of the engine: 32-bit port and command words, 256-bit stored values (R8, R83). -/

namespace Sys2Proof

/-- A 32-bit word: command words and the data of the register port (00_scope.md R6, `BUSW` and `CMDW`). -/
abbrev Word := BitVec 32

/-- A stored value: an unsigned integer of exactly 256 bits (00_scope.md R8). -/
abbrev Word256 := BitVec 256

end Sys2Proof
end

