-- ==== Sys2Proof/Machine/Constants.lean ====
section
/-! DEFINITION. The hardwired constants of the engine: they are not state and no reset changes them (10_state.md R48). -/

namespace Sys2Proof.Machine

/-- The field modulus of secp256k1 (43_secp256k1.md R230). -/
def P : Nat := 2 ^ 256 - 2 ^ 32 - 977

/-- The group order of secp256k1 (43_secp256k1.md R231; the spec's own value, assumption 8). -/
def N : Nat := 0xFFFFFFFFFFFFFFFFFFFFFFFFFFFFFFFEBAAEDCE6AF48A03BBFD25E8CD0364141

/-- The x coordinate of the generator (43_secp256k1.md R232; the spec's own value, assumption 8). -/
def Gx : Nat := 0x79BE667EF9DCBBAC55A06295CE870B07029BFCDB2DCE28D959F2815B16F81798

/-- The y coordinate of the generator (43_secp256k1.md R232; the spec's own value, assumption 8). -/
def Gy : Nat := 0x483ADA7726A3C4655DA4FBFC0E1108A8FD17B448A68554199C47D08FFB10D4B8

/-- The value of the `ID` register (10_state.md R41). -/
def idValue : Word := 0x4C420100

end Sys2Proof.Machine
end

