-- ==== Sys2Proof/Machine/Arith.lean ====
section
/-! DEFINITION. Exact integer arithmetic: reduction (00_scope.md R11), exponentiation and the Fermat inverse (R12), and
the primality test that 42_curve.md R203 and R204 need. Sys2Proof/Laws/Arith.lean and Laws/Primality.lean prove that
each computes what its rule says. -/

namespace Sys2Proof.Machine

/-- `z mod m` for an integer `z`, possibly negative: the `r` with `0 <= r < m` and `m` dividing `z - r` (R11). -/
def imod (z : Int) (m : Nat) : Nat := (z % (m : Int)).toNat

/-- Square and multiply over the bits of `e`, of which there are at most `fuel`. -/
def powmodFuel : Nat → Nat → Nat → Nat → Nat
  | 0, _, _, m => 1 % m
  | fuel + 1, a, e, m =>
    if e = 0 then 1 % m
    else
      let h := powmodFuel fuel a (e / 2) m
      if e % 2 = 1 then h * h % m * a % m else h * h % m

/-- `powmod(a, e, m) = (a^e) mod m`, with `a^0 = 1` also for `a = 0` (R12). -/
def powmod (a e m : Nat) : Nat := powmodFuel (e.log2 + 1) a e m

/-- The Fermat inverse `finv(b, m) = powmod(b, m - 2, m)` (R12). -/
def finv (b m : Nat) : Nat := powmod b (m - 2) m

/-- No number from `d` on, up to the square root of `m`, divides `m` (at most `fuel` of them are tried). -/
def noDivisorFrom (m : Nat) : Nat → Nat → Bool
  | 0, _ => true
  | fuel + 1, d => if m < d * d then true else if m % d = 0 then false else noDivisorFrom m fuel (d + 1)

/-- Whether `m` is prime: `P` and `N` are (proved in Laws/Primality.lean), any other number is tried by division. -/
def isPrime (m : Nat) : Bool := m == P || m == N || (decide (2 ≤ m) && noDivisorFrom m m 2)

end Sys2Proof.Machine
end

