-- ==== Sys2Proof/Syntax.lean ====
section
/-! DEFINITION. The commands of LB-ECC256, one constructor per row of spec/opcode_table.json (30_encoding.md R118).
Operands stand in the order of the assembler syntax (R121): destination first, then the sources. -/

namespace Sys2Proof

/-- The index of a field register: any value 0..15 is legal (30_encoding.md R112). -/
abbrev RIdx := Fin 16

/-- The index of a point register: 0..7, the field's bit 3 being 0 (30_encoding.md R112). -/
abbrev QIdx := Fin 8

/-- The modulus tag of a field register (10_state.md R33), which is also the modulus select of FE_NEW
(30_encoding.md R113). -/
inductive Tag where
  /-- `TAG_RAW`: a plain 256-bit integer, no field element. -/
  | raw
  /-- `TAG_P`: an element of the secp256k1 coordinate field. -/
  | p
  /-- `TAG_N`: an element of the scalar field of the group order. -/
  | n
  /-- `TAG_M`: an element of the user field of the current `MOD`. -/
  | m
  deriving DecidableEq, Repr

/-- The commands (30_encoding.md R117, R118). A curve select and a constant index are kept as the bit fields they
are encoded in; which of their values are legal is `Instr.WellFormed`'s to say. `neg` is the NEG bit (R114). -/
inductive Instr where
  /-- `NOP` (40_data.md R151) -/
  | nop
  /-- `MOV Rd, Ra` (R152) -/
  | mov (d a : RIdx)
  /-- `LDI Rd, #imm16` (R153) -/
  | ldi (d : RIdx) (imm : BitVec 16)
  /-- `LDC Rd, #P / #N / #GX / #GY`, the constant index in `K16` (R154) -/
  | ldc (d : RIdx) (k : BitVec 16)
  /-- `INT_EQ Ra, Rb` (R155) -/
  | intEq (a b : RIdx)
  /-- `INT_ODD Ra` (R156) -/
  | intOdd (a : RIdx)
  /-- `FE_NEW Rd, Ra, RAW / P / N / M` (41_field.md R170) -/
  | feNew (d a : RIdx) (sel : Tag)
  /-- `FE_ADD Rd, Ra, Rb` (R172) -/
  | feAdd (d a b : RIdx)
  /-- `FE_SUB Rd, Ra, Rb` (R173) -/
  | feSub (d a b : RIdx)
  /-- `FE_MUL Rd, Ra, Rb` (R174) -/
  | feMul (d a b : RIdx)
  /-- `FE_POW Rd, Ra, [-]Rb` (R175) -/
  | fePow (d a b : RIdx) (neg : Bool)
  /-- `FE_INV Rd, Ra` (R176) -/
  | feInv (d a : RIdx)
  /-- `FE_DIV Rd, Ra, Rb` (R177) -/
  | feDiv (d a b : RIdx)
  /-- `FE_SMUL Rd, [-]Ra, Rb` (R178) -/
  | feSmul (d a b : RIdx) (neg : Bool)
  /-- `FE_SQRT Rd, Ra` (43_secp256k1.md R233) -/
  | feSqrt (d a : RIdx)
  /-- `FE_EQ Ra, Rb` (R179) -/
  | feEq (a b : RIdx)
  /-- `PT_INF Qd, SECP / USER` (42_curve.md R205) -/
  | ptInf (d : QIdx) (sel : BitVec 2)
  /-- `PT_GEN Qd` (43_secp256k1.md R234) -/
  | ptGen (d : QIdx)
  /-- `PT_NEW Qd, Ra, Rb, SECP / USER` (R206) -/
  | ptNew (d : QIdx) (a b : RIdx) (sel : BitVec 2)
  /-- `PT_ADD Qd, Qa, Qb` (R207) -/
  | ptAdd (d a b : QIdx)
  /-- `PT_MUL Qd, [-]Ra, Qb` (R209) -/
  | ptMul (d : QIdx) (a : RIdx) (b : QIdx) (neg : Bool)
  /-- `PT_EQ Qa, Qb` (R210) -/
  | ptEq (a b : QIdx)
  /-- `PT_ISINF Qa` (R211) -/
  | ptIsInf (a : QIdx)
  /-- `PT_GETX Rd, Qa` (R212) -/
  | ptGetX (d : RIdx) (a : QIdx)
  /-- `PT_GETY Rd, Qa` (R213) -/
  | ptGetY (d : RIdx) (a : QIdx)
  /-- `PT_MOV Qd, Qa` (R214) -/
  | ptMov (d a : QIdx)
  /-- `PT_DESER Qd, Ra, Rb, #pfx8`; every value of the byte is a legal encoding (R115, 43_secp256k1.md R235) -/
  | ptDeser (d : QIdx) (a b : RIdx) (pfx : BitVec 8)
  deriving DecidableEq, Repr

end Sys2Proof
end

