-- ==== Sys2Proof/WellFormed.lean ====
section
/-! DEFINITION. Which commands are well formed: the checks on a bit field that its type does not already make.
Register indexes need none: `RIdx` and `QIdx` hold exactly the legal ones (30_encoding.md R112). -/

namespace Sys2Proof

/-- A curve select: 0b00 `SECP` or 0b01 `USER`; the values 0b10 and 0b11 are illegal (30_encoding.md R113). -/
def curveSelectOk (sel : BitVec 2) : Bool := decide (sel.toNat < 2)

/-- A constant index: 0..3; indexes 4 and up are illegal (30_encoding.md R116). -/
def constIndexOk (k : BitVec 16) : Bool := decide (k.toNat < 4)

/-- Every operand of the command has a value its format admits (30_encoding.md R112, R113, R116). -/
def Instr.wellFormed : Instr → Bool
  | .ldc _ k => constIndexOk k
  | .ptInf _ sel => curveSelectOk sel
  | .ptNew _ _ _ sel => curveSelectOk sel
  | .nop => true
  | .mov _ _ => true
  | .ldi _ _ => true
  | .intEq _ _ => true
  | .intOdd _ => true
  | .feNew _ _ _ => true
  | .feAdd _ _ _ => true
  | .feSub _ _ _ => true
  | .feMul _ _ _ => true
  | .fePow _ _ _ _ => true
  | .feInv _ _ => true
  | .feDiv _ _ _ => true
  | .feSmul _ _ _ _ => true
  | .feSqrt _ _ => true
  | .feEq _ _ => true
  | .ptGen _ => true
  | .ptAdd _ _ _ => true
  | .ptMul _ _ _ _ => true
  | .ptEq _ _ => true
  | .ptIsInf _ => true
  | .ptGetX _ _ => true
  | .ptGetY _ _ => true
  | .ptMov _ _ => true
  | .ptDeser _ _ _ _ => true

/-- `Instr.wellFormed` as a proposition. -/
abbrev Instr.WellFormed (i : Instr) : Prop := i.wellFormed = true

end Sys2Proof
end

