-- ==== Sys2Proof/Decode.lean ====
section
/-! DEFINITION. The decoder of 30_encoding.md R118 and R119, total on 32-bit words and rejecting by name; after it the
encoder, written from the field and format tables R111 and R117. -/

namespace Sys2Proof

/-! ### Fields of a command word (R9, R111) -/

/-- `w[lo+width-1 : lo]` as a number (00_scope.md R9). -/
def bits (w : Word) (lo width : Nat) : Nat := w.toNat / 2 ^ lo % 2 ^ width

/-- `OPC = w[31:24]` -/
def opcOf (w : Word) : Nat := bits w 24 8

/-- The field register named by the 4-bit field at `lo`. -/
def rAt (w : Word) (lo : Nat) : RIdx := ⟨bits w lo 4, Nat.mod_lt _ (by decide)⟩

/-- The point register named by the low 3 bits of the 4-bit field at `lo`; bit 3 is a must-be-zero bit (R112). -/
def qAt (w : Word) (lo : Nat) : QIdx := ⟨bits w lo 3, Nat.mod_lt _ (by decide)⟩

/-- `D = w[23:20]` as a field register -/
def rD (w : Word) : RIdx := rAt w 20
/-- `A = w[19:16]` as a field register -/
def rA (w : Word) : RIdx := rAt w 16
/-- `B = w[15:12]` as a field register -/
def rB (w : Word) : RIdx := rAt w 12
/-- `D` as a point register -/
def qD (w : Word) : QIdx := qAt w 20
/-- `A` as a point register -/
def qA (w : Word) : QIdx := qAt w 16
/-- `B` as a point register -/
def qB (w : Word) : QIdx := qAt w 12
/-- `SEL = w[11:10]` -/
def selOf (w : Word) : BitVec 2 := BitVec.ofNat 2 (bits w 10 2)
/-- `NEG = w[9]` -/
def negOf (w : Word) : Bool := decide (bits w 9 1 = 1)
/-- `X8 = w[7:0]` -/
def x8Of (w : Word) : BitVec 8 := BitVec.ofNat 8 (bits w 0 8)
/-- `K16 = w[15:0]` -/
def k16Of (w : Word) : BitVec 16 := BitVec.ofNat 16 (bits w 0 16)

/-- The two bits of a modulus tag (10_state.md R33), also FE_NEW's `SEL` (R113). -/
def tagBits : Tag → BitVec 2
  | .raw => 0b00
  | .p => 0b01
  | .n => 0b10
  | .m => 0b11

/-- The modulus select of FE_NEW: all four values are legal (R113). -/
def tagOf (sel : BitVec 2) : Tag :=
  match sel.toNat with
  | 0 => .raw
  | 1 => .p
  | 2 => .n
  | _ => .m

/-! ### The decoder (R118, R119, R120) -/

/-- Why a word is illegal (30_encoding.md R120). The engine reports both alike, as `ILLEGAL`. -/
inductive Illegal where
  /-- No row of R118 has this opcode. -/
  | unassignedOpcode (opc : Nat)
  /-- The row of the opcode requires 0 in these bits, which are 1: a reserved or unused field, `RSV8`, bit 3 of a
  point-register field, bit 11 of a curve select, or bits 15:2 of a constant index. -/
  | mustBeZero (nonzero : Word)
  deriving DecidableEq, Repr

/-- The mask of the command's row of R118: a 1 in every opcode bit and every must-be-zero bit. -/
def Instr.mask : Instr → Word
  | .nop => 0xFFFFFFFF
  | .mov _ _ => 0xFF00FFFF
  | .ldi _ _ => 0xFF0F0000
  | .ldc _ _ => 0xFF0FFFFC
  | .intEq _ _ => 0xFFF00FFF
  | .intOdd _ => 0xFFF0FFFF
  | .feNew _ _ _ => 0xFF00F3FF
  | .feAdd _ _ _ => 0xFF000FFF
  | .feSub _ _ _ => 0xFF000FFF
  | .feMul _ _ _ => 0xFF000FFF
  | .fePow _ _ _ _ => 0xFF000DFF
  | .feInv _ _ => 0xFF00FFFF
  | .feDiv _ _ _ => 0xFF000FFF
  | .feSmul _ _ _ _ => 0xFF000DFF
  | .feSqrt _ _ => 0xFF00FFFF
  | .feEq _ _ => 0xFFF00FFF
  | .ptInf _ _ => 0xFF8FFBFF
  | .ptGen _ => 0xFF8FFFFF
  | .ptNew _ _ _ _ => 0xFF800BFF
  | .ptAdd _ _ _ => 0xFF888FFF
  | .ptMul _ _ _ _ => 0xFF808DFF
  | .ptEq _ _ => 0xFFF88FFF
  | .ptIsInf _ => 0xFFF8FFFF
  | .ptGetX _ _ => 0xFF08FFFF
  | .ptGetY _ _ => 0xFF08FFFF
  | .ptMov _ _ => 0xFF88FFFF
  | .ptDeser _ _ _ _ => 0xFF800F00

/-- The match of the command's row of R118. -/
def Instr.pattern : Instr → Word
  | .nop => 0x01000000
  | .mov _ _ => 0x02000000
  | .ldi _ _ => 0x03000000
  | .ldc _ _ => 0x04000000
  | .intEq _ _ => 0x05000000
  | .intOdd _ => 0x06000000
  | .feNew _ _ _ => 0x10000000
  | .feAdd _ _ _ => 0x11000000
  | .feSub _ _ _ => 0x12000000
  | .feMul _ _ _ => 0x13000000
  | .fePow _ _ _ _ => 0x14000000
  | .feInv _ _ => 0x15000000
  | .feDiv _ _ _ => 0x16000000
  | .feSmul _ _ _ _ => 0x17000000
  | .feSqrt _ _ => 0x18000000
  | .feEq _ _ => 0x19000000
  | .ptInf _ _ => 0x20000000
  | .ptGen _ => 0x21000000
  | .ptNew _ _ _ _ => 0x22000000
  | .ptAdd _ _ _ => 0x23000000
  | .ptMul _ _ _ _ => 0x24000000
  | .ptEq _ _ => 0x25000000
  | .ptIsInf _ => 0x26000000
  | .ptGetX _ _ => 0x27000000
  | .ptGetY _ _ => 0x28000000
  | .ptMov _ _ => 0x29000000
  | .ptDeser _ _ _ _ => 0x2A000000

/-- `w` has the opcode and the operands of `i`: it is the command `i` when `(w AND mask) = match` (R118). -/
def accept (w : Word) (i : Instr) : Except Illegal Instr :=
  if w &&& i.mask = i.pattern then .ok i else .error (.mustBeZero ((w &&& i.mask) ^^^ i.pattern))

/-- The decoder of R119: the row of R118 whose mask and match the word meets, or the reason there is none. -/
def decode (w : Word) : Except Illegal Instr :=
  match opcOf w with
  | 0x01 => accept w .nop
  | 0x02 => accept w (.mov (rD w) (rA w))
  | 0x03 => accept w (.ldi (rD w) (k16Of w))
  | 0x04 => accept w (.ldc (rD w) (k16Of w))
  | 0x05 => accept w (.intEq (rA w) (rB w))
  | 0x06 => accept w (.intOdd (rA w))
  | 0x10 => accept w (.feNew (rD w) (rA w) (tagOf (selOf w)))
  | 0x11 => accept w (.feAdd (rD w) (rA w) (rB w))
  | 0x12 => accept w (.feSub (rD w) (rA w) (rB w))
  | 0x13 => accept w (.feMul (rD w) (rA w) (rB w))
  | 0x14 => accept w (.fePow (rD w) (rA w) (rB w) (negOf w))
  | 0x15 => accept w (.feInv (rD w) (rA w))
  | 0x16 => accept w (.feDiv (rD w) (rA w) (rB w))
  | 0x17 => accept w (.feSmul (rD w) (rA w) (rB w) (negOf w))
  | 0x18 => accept w (.feSqrt (rD w) (rA w))
  | 0x19 => accept w (.feEq (rA w) (rB w))
  | 0x20 => accept w (.ptInf (qD w) (selOf w))
  | 0x21 => accept w (.ptGen (qD w))
  | 0x22 => accept w (.ptNew (qD w) (rA w) (rB w) (selOf w))
  | 0x23 => accept w (.ptAdd (qD w) (qA w) (qB w))
  | 0x24 => accept w (.ptMul (qD w) (rA w) (qB w) (negOf w))
  | 0x25 => accept w (.ptEq (qA w) (qB w))
  | 0x26 => accept w (.ptIsInf (qA w))
  | 0x27 => accept w (.ptGetX (rD w) (qA w))
  | 0x28 => accept w (.ptGetY (rD w) (qA w))
  | 0x29 => accept w (.ptMov (qD w) (qA w))
  | 0x2A => accept w (.ptDeser (qD w) (rA w) (rB w) (x8Of w))
  | opc => .error (.unassignedOpcode opc)

/-- The command in an opcode-table word of `nbits` bits, bit 0 its least significant; every bit above them is 0. Each
row is one 32-bit word (R110), so the word is what the host would write to `CMD`. -/
def decodeTableWord (nbits w : Nat) : Option Instr :=
  (decode (BitVec.ofNat 32 (w % 2 ^ nbits))).toOption

/-! ### The encoder (R111, R117) -/

/-- The fields of R111 in their order, `RSV8` being 0. -/
def assemble (opc : BitVec 8) (d a b : BitVec 4) (sel : BitVec 2) (neg : BitVec 1) (x8 : BitVec 8) : Word :=
  opc ++ d ++ a ++ b ++ sel ++ neg ++ (0 : BitVec 1) ++ x8

/-- Formats K and KC, whose `K16` overlays the fields below `A`. -/
def assembleK (opc : BitVec 8) (d : BitVec 4) (k : BitVec 16) : Word :=
  opc ++ d ++ (0 : BitVec 4) ++ k

/-- A field register's index as a 4-bit field. -/
def rBits (i : RIdx) : BitVec 4 := BitVec.ofNat 4 i.val

/-- A point register's index as a 4-bit field whose bit 3 is 0. -/
def qBits (j : QIdx) : BitVec 4 := BitVec.ofNat 4 j.val

/-- The NEG bit. -/
def negBit (neg : Bool) : BitVec 1 := BitVec.ofBool neg

/-- The word of a command: its opcode (R118) and its fields (R117), a field its format does not use being 0. -/
def encode : Instr → Word
  | .nop => assemble 0x01 0 0 0 0 0 0
  | .mov d a => assemble 0x02 (rBits d) (rBits a) 0 0 0 0
  | .ldi d imm => assembleK 0x03 (rBits d) imm
  | .ldc d k => assembleK 0x04 (rBits d) k
  | .intEq a b => assemble 0x05 0 (rBits a) (rBits b) 0 0 0
  | .intOdd a => assemble 0x06 0 (rBits a) 0 0 0 0
  | .feNew d a sel => assemble 0x10 (rBits d) (rBits a) 0 (tagBits sel) 0 0
  | .feAdd d a b => assemble 0x11 (rBits d) (rBits a) (rBits b) 0 0 0
  | .feSub d a b => assemble 0x12 (rBits d) (rBits a) (rBits b) 0 0 0
  | .feMul d a b => assemble 0x13 (rBits d) (rBits a) (rBits b) 0 0 0
  | .fePow d a b neg => assemble 0x14 (rBits d) (rBits a) (rBits b) 0 (negBit neg) 0
  | .feInv d a => assemble 0x15 (rBits d) (rBits a) 0 0 0 0
  | .feDiv d a b => assemble 0x16 (rBits d) (rBits a) (rBits b) 0 0 0
  | .feSmul d a b neg => assemble 0x17 (rBits d) (rBits a) (rBits b) 0 (negBit neg) 0
  | .feSqrt d a => assemble 0x18 (rBits d) (rBits a) 0 0 0 0
  | .feEq a b => assemble 0x19 0 (rBits a) (rBits b) 0 0 0
  | .ptInf d sel => assemble 0x20 (qBits d) 0 0 sel 0 0
  | .ptGen d => assemble 0x21 (qBits d) 0 0 0 0 0
  | .ptNew d a b sel => assemble 0x22 (qBits d) (rBits a) (rBits b) sel 0 0
  | .ptAdd d a b => assemble 0x23 (qBits d) (qBits a) (qBits b) 0 0 0
  | .ptMul d a b neg => assemble 0x24 (qBits d) (rBits a) (qBits b) 0 (negBit neg) 0
  | .ptEq a b => assemble 0x25 0 (qBits a) (qBits b) 0 0 0
  | .ptIsInf a => assemble 0x26 0 (qBits a) 0 0 0 0
  | .ptGetX d a => assemble 0x27 (rBits d) (qBits a) 0 0 0 0
  | .ptGetY d a => assemble 0x28 (rBits d) (qBits a) 0 0 0 0
  | .ptMov d a => assemble 0x29 (qBits d) (qBits a) 0 0 0 0
  | .ptDeser d a b pfx => assemble 0x2A (qBits d) (rBits a) (rBits b) 0 0 pfx

end Sys2Proof
end

