-- ==== Sys2Proof/Machine/Values.lean ====
section
/-! DEFINITION. The values the registers of the engine hold: tagged integers, points, error codes, and the events at
the engine's port. -/

namespace Sys2Proof.Machine

/-- A field register `(v, t)`: a 256-bit integer and the tag that names its modulus (10_state.md R32, R33). -/
structure FieldReg where
  v : Word256
  t : Tag
  deriving DecidableEq, Repr

/-- The two curves a point register can name (10_state.md R35). -/
inductive Curve where
  /-- `SECP`: secp256k1 -/
  | secp
  /-- `USER`: the curve of `CA` and `CB` over `MOD` -/
  | user
  deriving DecidableEq, Repr

/-- A point register `(c, inf, x, y)`; the curve tag `NONE` is `none`, and the tag value 0b11, which is never stored,
has no value here (10_state.md R35). -/
structure PointReg where
  c : Option Curve
  inf : Bool
  x : Word256
  y : Word256
  deriving DecidableEq, Repr

/-- `(NONE, 0, 0, 0)`, a register that holds no point. -/
def PointReg.empty : PointReg := ⟨none, false, 0, 0⟩

/-- The operand state: everything a command reads (20_memory.md R90). -/
structure OperandState where
  r : Vector FieldReg 16
  q : Vector PointReg 8
  mod : Word256
  ca : Word256
  cb : Word256
  deriving DecidableEq, Repr

/-- The errors a command reports (60_exceptions.md R250). The codes 10 to 255 are never written. -/
inductive ErrCode where
  /-- 0: no error recorded -/
  | none
  /-- 1: the word matches no row of the opcode table -/
  | illegal
  /-- 2: a value that must be a field element is not below its modulus -/
  | range
  /-- 3: field operands or coordinates of different moduli -/
  | fieldMismatch
  /-- 4: coordinates fail the curve equation -/
  | notOnCurve
  /-- 5: point operands on different curves -/
  | curveMismatch
  /-- 6: a SEC prefix byte other than 0x02, 0x03, 0x04 -/
  | format
  /-- 7: an operand register does not hold what the command needs -/
  | operand
  /-- 8: the user field is needed and `MOD` is even or below 3 -/
  | modulus
  /-- 9: a coordinate was asked of the point at infinity -/
  | infinity
  deriving DecidableEq, Repr

/-- A transaction at the register port: an 11-bit byte offset, the size in bytes and, for a write, the data
(20_memory.md R70, 00_scope.md R15). -/
inductive Access where
  | read (addr : BitVec 11) (size : Nat)
  | write (addr : BitVec 11) (size : Nat) (v : Word)
  deriving DecidableEq, Repr

/-- How the port answered its most recent transaction (20_memory.md R70, R78). -/
inductive Response where
  /-- no transaction since the hardware reset -/
  | none
  /-- a read completed with this word -/
  | data (v : Word)
  /-- a write completed -/
  | ack
  /-- an error response: it carries no data -/
  | busError
  deriving DecidableEq, Repr

/-- One event of the total order of host accesses and engine steps (20_memory.md R85). -/
inductive Event where
  /-- the host performs an access -/
  | access (a : Access)
  /-- the engine has its turn: it completes the command in flight, if there is one -/
  | engine
  /-- the reset input is driven to this level -/
  | rst (level : Bool)
  deriving DecidableEq, Repr

end Sys2Proof.Machine
end

