-- ==== Sys2Proof/Machine/State.lean ====
section
/-! DEFINITION. The state of the engine as plain data (10_state.md), the reasons a step can stop, and the state after
reset (R49). -/

namespace Sys2Proof.Machine

/-- Everything the spec gives the machine, and after it the model's own record of the outside world. -/
structure State where
  /-- the field registers `R0`..`R15` (R32) -/
  r : Vector FieldReg 16
  /-- the point registers `Q0`..`Q7` (R35) -/
  q : Vector PointReg 8
  /-- the user modulus `MOD` (R36) -/
  mod : Word256
  /-- the user curve coefficient `CA` (R36) -/
  ca : Word256
  /-- the user curve coefficient `CB` (R36) -/
  cb : Word256
  /-- the test flag `T`, `STATUS` bit 4 (R38) -/
  t : Bool
  /-- `STATUS.BUSY`, bit 0: a command is in flight (R39) -/
  busy : Bool
  /-- `STATUS.DONE`, bit 1 (R39) -/
  done : Bool
  /-- `STATUS.ERR`, bit 2 (R39) -/
  err : Bool
  /-- `STATUS.OVR`, bit 3 (R39) -/
  ovr : Bool
  /-- `STATUS.ERRCODE`, bits 15:8 (R39) -/
  errcode : ErrCode
  /-- `CTRL.IE_DONE`, bit 0 (R40) -/
  ieDone : Bool
  /-- `CTRL.IE_ERR`, bit 1 (R40) -/
  ieErr : Bool
  /-- `CMD`: the last accepted command word, which is the one in flight while `BUSY = 1` (R42, R46) -/
  cmd : Word
  /-- `ERRCMD`: the word of the last completion that raised an error (R43) -/
  errcmd : Word
  /-- the level of the reset input `rst` (70_reset_and_hazards.md R290) -/
  rst : Bool
  /-- the model's own: the events still to come, oldest first (20_memory.md R85; assumption 1) -/
  inputs : List Event
  /-- the model's own: the answer of the port to its most recent transaction (20_memory.md R70; assumption 4) -/
  resp : Response
  deriving DecidableEq, Repr

/-- Faults of the machine. There are none: the engine "never hangs, never stalls for an outside event, and has no stuck
state" (60_exceptions.md R271), and an error of a command is recorded in `STATUS` as R252 says. -/
inductive Fault where
  deriving DecidableEq, Repr

/-- What the model gives no meaning to. -/
inductive Refusal where
  /-- Raised by an arm of `exec` whose command has no meaning yet (none is left). Safe: the model stops. -/
  | notModelled (mnemonic : String)
  /-- Raised by `step` for a host access while `rst` is asserted, which "are not defined by this spec: a model refuses
  them" (70_reset_and_hazards.md R290). Safe: the model stops. -/
  | accessDuringReset
  deriving DecidableEq, Repr

/-- The machine right after reset (R49): every register, flag and control bit at the value the spec gives it, no
command in flight, the reset input released and nothing at the port. -/
def State.reset : State where
  r := Vector.replicate 16 ⟨0, .raw⟩
  q := Vector.replicate 8 .empty
  mod := 0
  ca := 0
  cb := 0
  t := false
  busy := false
  done := false
  err := false
  ovr := false
  errcode := .none
  ieDone := false
  ieErr := false
  cmd := 0
  errcmd := 0
  rst := false
  inputs := []
  resp := .none

end Sys2Proof.Machine
end

