-- ==== Sys2Proof/Machine/Ops.lean ====
section
/-! DEFINITION. The named operations on the state: reading and writing registers, completing a command, recording an
error (the engine's trap entry), clearing it (the return), accepting a command, tag invalidation and the resets. -/

namespace Sys2Proof.Machine

/-! ### The register files (00_scope.md R13, 10_state.md R32, R35) -/

/-- `R[i]` -/
def State.getR (s : State) (i : RIdx) : FieldReg := s.r[i.val]

/-- `Q[j]` -/
def State.getQ (s : State) (j : QIdx) : PointReg := s.q[j.val]

/-- `R[i] <- x` -/
def State.setR (s : State) (i : RIdx) (x : FieldReg) : State := { s with r := s.r.set i.val x }

/-- `Q[j] <- x` -/
def State.setQ (s : State) (j : QIdx) (x : PointReg) : State := { s with q := s.q.set j.val x }

/-- The tagged register value `(v, t)` for a value already reduced below `2^256`. -/
def fieldReg (v : Nat) (t : Tag) : FieldReg := ⟨BitVec.ofNat 256 v, t⟩

/-- What a command reads (20_memory.md R90). -/
def State.operands (s : State) : OperandState := ⟨s.r, s.q, s.mod, s.ca, s.cb⟩

/-! ### Completion and errors (60_exceptions.md R252, R253, R256, R258) -/

/-- The end of every completion: `STATUS.BUSY <- 0`, `STATUS.DONE <- 1` (R256). -/
def State.finish (s : State) : State := { s with busy := false, done := true }

/-- TAKING AN ERROR, the engine's trap entry: the code and the command word are recorded, the command ends, and nothing
else changes (R252, and R256's `record`). -/
def State.raise (s : State) (code : ErrCode) : State :=
  { s with err := true, errcode := code, errcmd := s.cmd, busy := false, done := true }

/-- RETURN FROM AN ERROR: the host's write of `v` to `STATUS` clears `ERR` with `ERRCODE`, `DONE` and `OVR` where it has
a 1 (R258, 10_state.md R39). -/
def State.clearStatus (s : State) (v : Word) : State :=
  { s with
    err := s.err && !v.getLsbD 2
    errcode := if v.getLsbD 2 then .none else s.errcode
    done := s.done && !v.getLsbD 1
    ovr := s.ovr && !v.getLsbD 3 }

/-- How a command's pseudocode ends: with a new operand state, or at `raise Error(code)`, which discards what it would
have written (00_scope.md R16, 40_data.md R150). -/
abbrev Result := Except ErrCode State

/-- What a step of the machine answers. -/
abbrev Answer := Host.Outcome State Fault Refusal

/-- The completion step of a command whose pseudocode, run on `s`, ended in `res` (R256). -/
def conclude (s : State) (res : Result) : Answer :=
  match res with
  | .ok t => .next t.finish
  | .error code => .next (s.raise code)

/-! ### Acceptance (60_exceptions.md R255) -/

/-- The command word `v` is accepted: it is latched and in flight. -/
def State.accept (s : State) (v : Word) : State := { s with cmd := v, done := false, busy := true }

/-- A host write is discarded, with no effect but `OVR` (70_reset_and_hazards.md R305). -/
def State.overrun (s : State) : State := { s with ovr := true }

/-- A host write of `v` to `CMD`. -/
def State.offer (s : State) (v : Word) : State := if s.busy || s.err then s.overrun else s.accept v

/-- The word the engine decodes when it completes the command in flight (R256, 20_memory.md R88). -/
def State.fetch (s : State) : Word := s.cmd

/-! ### Tag invalidation (10_state.md R37) -/

/-- Every entry of a register file through `f`. -/
def mapRegs {α : Type} {n : Nat} (f : α → α) (v : Vector α n) : Vector α n :=
  ⟨(v.toList.map f).toArray, by simp⟩

/-- A `TAG_M` register becomes untagged and keeps its value. -/
def dropUserTag (x : FieldReg) : FieldReg := if x.t = .m then { x with t := .raw } else x

/-- A `USER` point becomes `(NONE, 0, 0, 0)`. -/
def dropUserPoint (x : PointReg) : PointReg := if x.c = some .user then .empty else x

/-- A write to `CA` or `CB` was performed. -/
def State.invalidatePoints (s : State) : State := { s with q := mapRegs dropUserPoint s.q }

/-- A write to `MOD` was performed. -/
def State.invalidateField (s : State) : State :=
  { s with r := mapRegs dropUserTag s.r, q := mapRegs dropUserPoint s.q }

/-! ### Reset (70_reset_and_hazards.md R290, R291) -/

/-- A soft reset: every piece of the engine's state at its reset value. What the host does next, the reset input and
the port's answer are not the engine's state (log entry 11). -/
def State.softReset (s : State) : State := { State.reset with rst := s.rst, inputs := s.inputs, resp := s.resp }

/-- The reset input is driven to `level`: while it is asserted the engine holds the reset state, and when it is
released the engine is idle in that state. The later events stay and the port's last answer is forgotten (log entry 6). -/
def State.driveReset (s : State) (level : Bool) : State :=
  if s.rst || level then { State.reset with rst := level, inputs := s.inputs } else s

end Sys2Proof.Machine
end

