-- ==== Sys2Proof/Machine/Operands.lean ====
section
/-! DEFINITION. The operand forms: field operands (41_field.md R171), signed integers (30_encoding.md R114), point
operands, curves and their checks (42_curve.md R200, R201, 00_scope.md R18). -/

namespace Sys2Proof.Machine

/-! ### Fields -/

/-- `modof(t)`, which `TAG_RAW` does not have (R18). -/
def State.modof (s : State) (t : Tag) : Option Nat :=
  match t with
  | .raw => none
  | .p => some P
  | .n => some N
  | .m => some s.mod.toNat

/-- `validmod()`: `MOD` is odd and at least 3 (R18). -/
def State.validmod (s : State) : Bool := decide (s.mod.toNat % 2 = 1) && decide (3 ≤ s.mod.toNat)

/-- A field operand: value, tag and modulus. -/
structure FieldElem where
  v : Nat
  t : Tag
  m : Nat
  deriving DecidableEq, Repr

/-- `fe(i)`: field register `i` as a field element; `OPERAND` when it is untagged (R171). -/
def fe (s : State) (i : RIdx) : Except ErrCode FieldElem :=
  match s.modof (s.getR i).t with
  | some m => .ok ⟨(s.getR i).v.toNat, (s.getR i).t, m⟩
  | none => .error .operand

/-- The two operands of a binary field command: both are checked for `OPERAND`, `A` then `B`, and only then the
moduli (R171). -/
def sameField (s : State) (a b : RIdx) : Except ErrCode (FieldElem × FieldElem) := do
  let x ← fe s a
  let y ← fe s b
  if x.m = y.m then .ok (x, y) else .error .fieldMismatch

/-- The integer operand: the register's value, negated when `NEG = 1`; `-0 = 0` and the tag is ignored (R114). -/
def State.intOperand (s : State) (i : RIdx) (neg : Bool) : Int :=
  if neg then -((s.getR i).v.toNat : Int) else ((s.getR i).v.toNat : Int)

/-! ### Curves -/

/-- The coefficients of a curve and the modulus of its field. -/
structure Coef where
  a : Nat
  b : Nat
  m : Nat
  deriving DecidableEq, Repr

/-- `coef(c)` (R18): `(0, 7, P)` for `SECP`, `(CA, CB, MOD)` for `USER`. -/
def State.coef (s : State) (c : Curve) : Coef :=
  match c with
  | .secp => ⟨0, 7, P⟩
  | .user => ⟨s.ca.toNat, s.cb.toNat, s.mod.toNat⟩

/-- `fieldtag(c)` (R18). -/
def fieldtag (c : Curve) : Tag :=
  match c with
  | .secp => .p
  | .user => .m

/-- The curve equation `y^2 = x^3 + a x + b` in the field of `m` (R18's `oncurve`). -/
def onCurve (k : Coef) (x y : Nat) : Bool :=
  decide (imod ((y : Int) * y - ((x : Int) * x * x + k.a * x + k.b)) k.m = 0)

/-- The curve a 2-bit curve select names; 0b10 and 0b11 name none (30_encoding.md R113). -/
def curveOf (sel : BitVec 2) : Option Curve :=
  match sel.toNat with
  | 0 => some .secp
  | 1 => some .user
  | _ => none

/-- `usercheck()`: `MODULUS` unless `MOD` is valid, then `RANGE` unless `CA` and `CB` are below it (R200). -/
def usercheck (s : State) : Except ErrCode Unit :=
  if s.validmod = false then .error .modulus
  else if s.mod.toNat ≤ s.ca.toNat ∨ s.mod.toNat ≤ s.cb.toNat then .error .range
  else .ok ()

/-- The curve of PT_INF and PT_NEW, with the user curve checked. A select that names no curve makes the word
illegal (30_encoding.md R120), so the decoder lets none through; that this term then records `ILLEGAL` is the model's
choice (log entry 7). -/
def selectCurve (s : State) (sel : BitVec 2) : Except ErrCode Curve :=
  match curveOf sel with
  | some .secp => .ok .secp
  | some .user => do
    usercheck s
    .ok .user
  | none => .error .illegal

/-! ### Points -/

/-- A point `(inf, x, y)` of the group law (42_curve.md R202). -/
structure Point where
  inf : Bool
  x : Nat
  y : Nat
  deriving DecidableEq, Repr

/-- `INF = (1, 0, 0)` -/
def Point.infinity : Point := ⟨true, 0, 0⟩

/-- The point of a point register. -/
def PointReg.point (q : PointReg) : Point := ⟨q.inf, q.x.toNat, q.y.toNat⟩

/-- The point register `(c, inf, x, y)` of a point whose coordinates are below `2^256`. -/
def pointReg (c : Curve) (p : Point) : PointReg := ⟨some c, p.inf, BitVec.ofNat 256 p.x, BitVec.ofNat 256 p.y⟩

/-- `pt(j)`: the curve and the point of register `j`; `OPERAND` when it holds none (R201). -/
def pt (s : State) (j : QIdx) : Except ErrCode (Curve × Point) :=
  match (s.getQ j).c with
  | some c => .ok (c, (s.getQ j).point)
  | none => .error .operand

/-- `samecurve(c1, c2)`: equal coefficients and modulus, as integers (R201). -/
def sameCurve (s : State) (c1 c2 : Curve) : Bool := decide (s.coef c1 = s.coef c2)

end Sys2Proof.Machine
end

