-- ==== Sys2Proof/Machine/Flags.lean ====
section
/-! DEFINITION. The test flag `T` and how it is computed (10_state.md R38), the words of the status and control
registers (R39, R40, R44, R45), and the interrupt line (60_exceptions.md R260). -/

namespace Sys2Proof.Machine

/-! ### The test flag -/

/-- `T <- b` -/
def State.setT (s : State) (b : Bool) : State := { s with t := b }

/-- INT_EQ's test: the values are equal as integers, the tags ignored (40_data.md R155). -/
def valuesEqual (x y : FieldReg) : Bool := decide (x.v = y.v)

/-- INT_ODD's test: the least significant bit (40_data.md R156). -/
def valueOdd (x : FieldReg) : Bool := x.v.getLsbD 0

/-- FE_EQ's test: equal values of equal moduli (41_field.md R179). -/
def elemsEqual (x y : FieldElem) : Bool := decide (x.v = y.v) && decide (x.m = y.m)

/-- PT_EQ's test: the same curve, variant and coordinates (42_curve.md R210). -/
def pointsEqual (s : State) (c1 : Curve) (p1 : Point) (c2 : Curve) (p2 : Point) : Bool :=
  sameCurve s c1 c2 && decide (p1.inf = p2.inf) && decide (p1.x = p2.x) && decide (p1.y = p2.y)

/-! ### Register words -/

/-- The code of an error (60_exceptions.md R250). -/
def errBits : ErrCode → BitVec 8
  | .none => 0
  | .illegal => 1
  | .range => 2
  | .fieldMismatch => 3
  | .notOnCurve => 4
  | .curveMismatch => 5
  | .format => 6
  | .operand => 7
  | .modulus => 8
  | .infinity => 9

/-- `STATUS`: `ERRCODE[15:8]`, `T[4]`, `OVR[3]`, `ERR[2]`, `DONE[1]`, `BUSY[0]`, the other bits 0 (R39). -/
def State.statusWord (s : State) : Word :=
  (0 : BitVec 16) ++ errBits s.errcode ++ (0 : BitVec 3) ++ BitVec.ofBool s.t ++ BitVec.ofBool s.ovr ++
    BitVec.ofBool s.err ++ BitVec.ofBool s.done ++ BitVec.ofBool s.busy

/-- `CTRL`: `IE_ERR[1]`, `IE_DONE[0]`, the other bits 0; `SRST` reads 0 (R40). -/
def State.ctrlWord (s : State) : Word :=
  (0 : BitVec 30) ++ BitVec.ofBool s.ieErr ++ BitVec.ofBool s.ieDone

/-- The tags of a list of registers, two bits each, the first register's lowest. -/
def packTags : List FieldReg → Nat
  | [] => 0
  | x :: xs => (tagBits x.t).toNat + 4 * packTags xs

/-- `RTAGS`: bits `[2i+1 : 2i]` hold `R[i].t` (R44). -/
def State.rtagsWord (s : State) : Word := BitVec.ofNat 32 (packTags s.r.toList)

/-- The two bits of a curve tag (R35). -/
def curveBits : Option Curve → BitVec 2
  | none => 0b00
  | some .secp => 0b01
  | some .user => 0b10

/-- `QSTAT[j]`: bits 1:0 hold `Q[j].c` and bit 2 holds `Q[j].inf` (R45). -/
def PointReg.qstatWord (q : PointReg) : Word := (0 : BitVec 29) ++ BitVec.ofBool q.inf ++ curveBits q.c

/-! ### The interrupt line -/

/-- `irq = (STATUS.DONE and CTRL.IE_DONE) or (STATUS.ERR and CTRL.IE_ERR)`: a level, with no state of its own (R260). -/
def State.irq (s : State) : Bool := (s.done && s.ieDone) || (s.err && s.ieErr)

end Sys2Proof.Machine
end

