-- ==== Sys2Proof/Machine/Data.lean ====
section
/-! DEFINITION. Data movement and integer tests (40_data.md R151 to R156). -/

namespace Sys2Proof.Machine

/-- NOP: only the completion itself (R151). -/
def execNop (s : State) : Answer := conclude s (.ok s)

/-- MOV: the value and the tag are copied (R152). -/
def execMov (d a : RIdx) (s : State) : Answer := conclude s (.ok (s.setR d (s.getR a)))

/-- LDI: the 16-bit immediate zero-extended, untagged (R153). -/
def execLdi (d : RIdx) (imm : BitVec 16) (s : State) : Answer :=
  conclude s (.ok (s.setR d ⟨imm.setWidth 256, .raw⟩))

/-- The constant of an index 0..3; an index from 4 on names none (R154, 30_encoding.md R116). -/
def constOf (k : BitVec 16) : Option Nat :=
  match k.toNat with
  | 0 => some P
  | 1 => some N
  | 2 => some Gx
  | 3 => some Gy
  | _ => none

/-- LDC: a secp256k1 constant, untagged (R154). An index that names none makes the word illegal (R120), so the decoder
lets none through; that this term then records `ILLEGAL` is the model's choice (log entry 7). -/
def execLdc (d : RIdx) (k : BitVec 16) (s : State) : Answer :=
  conclude s <|
    match constOf k with
    | some v => .ok (s.setR d (fieldReg v .raw))
    | none => .error .illegal

/-- INT_EQ (R155). -/
def execIntEq (a b : RIdx) (s : State) : Answer := conclude s (.ok (s.setT (valuesEqual (s.getR a) (s.getR b))))

/-- INT_ODD (R156). -/
def execIntOdd (a : RIdx) (s : State) : Answer := conclude s (.ok (s.setT (valueOdd (s.getR a))))

end Sys2Proof.Machine
end

