-- ==== Sys2Proof/Machine/Field.lean ====
section
/-! DEFINITION. The field unit (41_field.md R170 to R179). Every result is one reduction of an exact integer (R180). -/

namespace Sys2Proof.Machine

/-- A binary field command: operands of one field, the result of `op` on their values and modulus, the tag of `A`
(R171). -/
def fieldBinary (s : State) (d a b : RIdx) (op : Nat → Nat → Nat → Nat) : Result := do
  let (x, y) ← sameField s a b
  .ok (s.setR d (fieldReg (op x.v y.v x.m) x.t))

/-- FE_NEW: a field element from an integer, its range checked; `RAW` clears the tag (R170). -/
def execFeNew (d a : RIdx) (sel : Tag) (s : State) : Answer :=
  conclude s <|
    match s.modof sel with
    | none => .ok (s.setR d ⟨(s.getR a).v, .raw⟩)
    | some m =>
      if sel = .m ∧ s.validmod = false then .error .modulus
      else if m ≤ (s.getR a).v.toNat then .error .range
      else .ok (s.setR d ⟨(s.getR a).v, sel⟩)

/-- FE_ADD: `(a + b) mod m` (R172). -/
def execFeAdd (d a b : RIdx) (s : State) : Answer := conclude s (fieldBinary s d a b fun x y m => (x + y) % m)

/-- FE_SUB: `(a - b) mod m`, never negative (R173). -/
def execFeSub (d a b : RIdx) (s : State) : Answer :=
  conclude s (fieldBinary s d a b fun x y m => imod ((x : Int) - y) m)

/-- FE_MUL: `(a * b) mod m` of the exact product (R174). -/
def execFeMul (d a b : RIdx) (s : State) : Answer := conclude s (fieldBinary s d a b fun x y m => x * y % m)

/-- FE_POW: the exponent, signed by `NEG`, is reduced mod `m - 1` first, whatever it is (R175, 90_conflicts.md C2). -/
def execFePow (d a b : RIdx) (neg : Bool) (s : State) : Answer :=
  conclude s do
    let x ← fe s a
    .ok (s.setR d (fieldReg (powmod x.v (imod (s.intOperand b neg) (x.m - 1)) x.m) x.t))

/-- FE_INV: the Fermat inverse `a^(m-2) mod m`, 0 for 0 (R176). -/
def execFeInv (d a : RIdx) (s : State) : Answer :=
  conclude s do
    let x ← fe s a
    .ok (s.setR d (fieldReg (finv x.v x.m) x.t))

/-- FE_DIV: `(a * finv(b, m)) mod m`, 0 when `b = 0` (R177). -/
def execFeDiv (d a b : RIdx) (s : State) : Answer := conclude s (fieldBinary s d a b fun x y m => x * finv y m % m)

/-- FE_SMUL: `(k * b) mod m` for the signed integer `k`, with the tag of `B` (R178). -/
def execFeSmul (d a b : RIdx) (neg : Bool) (s : State) : Answer :=
  conclude s do
    let y ← fe s b
    .ok (s.setR d (fieldReg (imod (s.intOperand a neg * y.v) y.m) y.t))

/-- FE_EQ: different moduli give `T = 0`, no error (R179). -/
def execFeEq (a b : RIdx) (s : State) : Answer :=
  conclude s do
    let x ← fe s a
    let y ← fe s b
    .ok (s.setT (elemsEqual x y))

end Sys2Proof.Machine
end

