-- ==== Sys2Proof/Config.lean ====
section
/-! DEFINITION. What an implementation is free to choose: the parameter `USER_IRREG` of 00_scope.md R6. The other open
parameters (`LAT`, `MULT_ALG`, `COORD_ALG`, `SMUL_ALG`, `LB_BASE`) have no effect a model of values can show
(assumptions 3 and 9). -/

namespace Sys2Proof

/-- A drawn point before 42_curve.md R204's bounds are put on it. -/
structure Draw where
  inf : Bool
  x : Nat
  y : Nat
  deriving DecidableEq, Repr, Inhabited

/-- The FREE VALUE `USER_IRREG`: what PT_ADD and PT_MUL draw on a user curve that is not regular, a function of the
command word and the operand state about which nothing else is known (42_curve.md R204; assumption 2). -/
opaque Config.userIrreg : Word → Machine.OperandState → Draw

end Sys2Proof
end

