-- ==== Sys2Proof/Machine/Group.lean ====
section
/-! DEFINITION. The group law and the scalar multiplication (42_curve.md R202, R208), and which of their results are
drawn on a user curve that is not regular (R203, R204). -/

namespace Sys2Proof.Machine

/-- The point of slope `sl` through `p1` with third abscissa `x3` (the last lines of R202's cases 3 and 5). -/
def thirdPoint (m sl x3 : Nat) (p1 : Point) : Point :=
  ⟨false, x3, imod ((sl : Int) * (p1.x - x3) - p1.y) m⟩

/-- R202 case 3: the chord through two points of different `x`. -/
def chord (m : Nat) (p1 p2 : Point) : Point :=
  let sl := imod (((p2.y : Int) - p1.y) * finv (imod ((p2.x : Int) - p1.x) m) m) m
  thirdPoint m sl (imod ((sl : Int) * sl - p1.x - p2.x) m) p1

/-- R202 case 5: the tangent at a point. -/
def tangent (m a : Nat) (p1 : Point) : Point :=
  let sl := imod ((3 * (p1.x : Int) * p1.x + a) * finv (imod (2 * (p1.y : Int)) m) m) m
  thirdPoint m sl (imod ((sl : Int) * sl - 2 * p1.x) m) p1

/-- `padd(c, P1, P2)`, its five cases tested in the order of R202. -/
def padd (k : Coef) (p1 p2 : Point) : Point :=
  if p1.inf then p2
  else if p2.inf then p1
  else if p1.x = p2.x ∧ p1.y ≠ p2.y then .infinity
  else if p1.x ≠ p2.x then chord k.m p1 p2
  else if p1.y = 0 then .infinity
  else tangent k.m k.a p1

/-- The loop of R208 over at most `fuel` bits of `k`. -/
def smulLoop (c : Coef) : Nat → Nat → Point → Point → Point
  | 0, _, result, _ => result
  | fuel + 1, k, result, cur =>
    if k = 0 then result
    else smulLoop c fuel (k / 2) (if k % 2 = 1 then padd c result cur else result) (padd c cur cur)

/-- `smul(c, k, P0)`: double-and-add over the bits of `k`, least significant first (R208). -/
def smul (c : Coef) (k : Nat) (p0 : Point) : Point := smulLoop c (k.log2 + 1) k .infinity p0

/-- The user curve is regular: `MOD` valid and prime, and `(4 CA^3 + 27 CB^2) mod MOD` not 0 (R203). -/
def State.userRegular (s : State) : Bool :=
  s.validmod && isPrime s.mod.toNat &&
    decide ((4 * s.ca.toNat ^ 3 + 27 * s.cb.toNat ^ 2) % s.mod.toNat ≠ 0)

/-- A drawn result: any point within R204's bounds. -/
def State.drawn (s : State) : Point :=
  let d := Config.userIrreg s.cmd s.operands
  if d.inf then .infinity else ⟨false, d.x % s.mod.toNat, d.y % s.mod.toNat⟩

/-- PT_ADD's result is drawn: the user curve over a composite `MOD`, in cases 3 to 5 of R202 (R204). -/
def addDrawn (s : State) (c : Curve) (p1 p2 : Point) : Bool :=
  decide (c = .user) && !isPrime s.mod.toNat && !p1.inf && !p2.inf && !decide (p1.x = p2.x ∧ p1.y ≠ p2.y)

/-- PT_MUL's result is drawn: a user curve that is not regular, a nonzero scalar and a finite point (R204). -/
def mulDrawn (s : State) (c : Curve) (k : Nat) (p : Point) : Bool :=
  decide (c = .user) && !s.userRegular && decide (k ≠ 0) && !p.inf

/-- The sum PT_ADD gives (R207). -/
def addPoints (s : State) (c : Curve) (p1 p2 : Point) : Point :=
  if addDrawn s c p1 p2 then s.drawn else padd (s.coef c) p1 p2

/-- The multiple PT_MUL gives (R209). -/
def mulPoint (s : State) (c : Curve) (k : Nat) (p : Point) : Point :=
  if mulDrawn s c k p then s.drawn else smul (s.coef c) k p

end Sys2Proof.Machine
end

