-- ==== Sys2Proof/Machine/PointUnit.lean ====
section
/-! DEFINITION. The point unit (42_curve.md R205 to R214). -/

namespace Sys2Proof.Machine

/-- PT_INF: the point at infinity of a curve (R205). -/
def execPtInf (d : QIdx) (sel : BitVec 2) (s : State) : Answer :=
  conclude s do
    let c ← selectCurve s sel
    .ok (s.setQ d (pointReg c .infinity))

/-- PT_NEW: an affine point from two field elements of the curve's field, the curve equation checked (R206). -/
def execPtNew (d : QIdx) (a b : RIdx) (sel : BitVec 2) (s : State) : Answer :=
  conclude s do
    let c ← selectCurve s sel
    let x ← fe s a
    let y ← fe s b
    if x.m ≠ y.m ∨ x.m ≠ (s.coef c).m then .error .fieldMismatch
    else if onCurve (s.coef c) x.v y.v = false then .error .notOnCurve
    else .ok (s.setQ d (pointReg c ⟨false, x.v, y.v⟩))

/-- PT_ADD: the sum of two points of one curve, with the curve tag of `Qa` (R207). -/
def execPtAdd (d a b : QIdx) (s : State) : Answer :=
  conclude s do
    let (c1, p1) ← pt s a
    let (c2, p2) ← pt s b
    if sameCurve s c1 c2 = false then .error .curveMismatch
    else .ok (s.setQ d (pointReg c1 (addPoints s c1 p1 p2)))

/-- The scalar PT_MUL uses: reduced mod `N` with its sign on `SECP`, as given on `USER` (R209, 43_secp256k1.md R236). -/
def scalarFor (s : State) (c : Curve) (a : RIdx) (neg : Bool) : Nat :=
  match c with
  | .secp => imod (s.intOperand a neg) N
  | .user => (s.getR a).v.toNat

/-- PT_MUL: a multiple of a point; a negative scalar on a `USER` point is an `OPERAND` error (R209). -/
def execPtMul (d : QIdx) (a : RIdx) (b : QIdx) (neg : Bool) (s : State) : Answer :=
  conclude s do
    let (c, p) ← pt s b
    if c = .user ∧ neg = true then .error .operand
    else .ok (s.setQ d (pointReg c (mulPoint s c (scalarFor s c a neg) p)))

/-- PT_EQ: points on different curves give `T = 0`, no error (R210). -/
def execPtEq (a b : QIdx) (s : State) : Answer :=
  conclude s do
    let (c1, p1) ← pt s a
    let (c2, p2) ← pt s b
    .ok (s.setT (pointsEqual s c1 p1 c2 p2))

/-- PT_ISINF (R211). -/
def execPtIsInf (a : QIdx) (s : State) : Answer :=
  conclude s do
    let (_, p) ← pt s a
    .ok (s.setT p.inf)

/-- A coordinate of an affine point as an element of the curve's field; `INFINITY` for the point at infinity (R212,
R213). -/
def coordinate (s : State) (d : RIdx) (a : QIdx) (pick : Point → Nat) : Result := do
  let (c, p) ← pt s a
  if p.inf then .error .infinity else .ok (s.setR d (fieldReg (pick p) (fieldtag c)))

/-- PT_GETX (R212). -/
def execPtGetX (d : RIdx) (a : QIdx) (s : State) : Answer := conclude s (coordinate s d a Point.x)

/-- PT_GETY (R213). -/
def execPtGetY (d : RIdx) (a : QIdx) (s : State) : Answer := conclude s (coordinate s d a Point.y)

/-- PT_MOV: any point register is copied, `NONE` included (R214). -/
def execPtMov (d a : QIdx) (s : State) : Answer := conclude s (.ok (s.setQ d (s.getQ a)))

end Sys2Proof.Machine
end

