-- ==== Sys2Proof/Machine/Secp.lean ====
section
/-! DEFINITION. The secp256k1 point unit (43_secp256k1.md R233 to R235). -/

namespace Sys2Proof.Machine

/-- The square-root candidate `a^((P+1)/4) mod P` (R233). -/
def sqrtP (a : Nat) : Nat := powmod a ((P + 1) / 4) P

/-- FE_SQRT: the candidate, for a field element of modulus `P` only (R233). -/
def execFeSqrt (d a : RIdx) (s : State) : Answer :=
  conclude s do
    let x ← fe s a
    if x.m ≠ P then .error .operand else .ok (s.setR d (fieldReg (sqrtP x.v) x.t))

/-- PT_GEN: the generator (R234). -/
def execPtGen (d : QIdx) (s : State) : Answer := conclude s (.ok (s.setQ d (pointReg .secp ⟨false, Gx, Gy⟩)))

/-- `x^3 + 7 mod P`, R235's `alpha`. -/
def secpAlpha (x : Nat) : Nat := (x * x * x + 7) % P

/-- The y coordinate R235 takes for a prefix byte: the one given, or the root of `alpha` of the parity asked for. -/
def decodeY (pfx : BitVec 8) (alpha yGiven : Nat) : Nat :=
  if pfx = 0x04 then yGiven
  else if pfx = 0x02 then (if sqrtP alpha % 2 = 1 then P - sqrtP alpha else sqrtP alpha)
  else (if sqrtP alpha % 2 = 0 then P - sqrtP alpha else sqrtP alpha)

/-- PT_DESER: a SEC point from its parts; the curve equation is checked for every prefix byte (R235, 90_conflicts.md
C3). -/
def execPtDeser (d : QIdx) (a b : RIdx) (pfx : BitVec 8) (s : State) : Answer :=
  conclude s <|
    if pfx ≠ 0x02 ∧ pfx ≠ 0x03 ∧ pfx ≠ 0x04 then .error .format
    else
      let x := (s.getR a).v.toNat
      if P ≤ x then .error .range
      else
        let y := decodeY pfx (secpAlpha x) (s.getR b).v.toNat
        if P ≤ y then .error .range
        else if imod ((y : Int) * y - secpAlpha x) P ≠ 0 then .error .notOnCurve
        else .ok (s.setQ d (pointReg .secp ⟨false, x, y⟩))

end Sys2Proof.Machine
end

