-- ==== Sys2Proof/Machine/Dispatch.lean ====
section
/-! DEFINITION. The dispatch: each command to its meaning, the whole completion step of a legal command word
(60_exceptions.md R256). -/

namespace Sys2Proof.Machine

def exec (i : Instr) (s : State) : Host.Outcome State Fault Refusal :=
  match i with
  | .nop => Sys2Proof.Machine.execNop s
  | .mov d a => Sys2Proof.Machine.execMov d a s
  | .ldi d imm => Sys2Proof.Machine.execLdi d imm s
  | .ldc d k => Sys2Proof.Machine.execLdc d k s
  | .intEq a b => Sys2Proof.Machine.execIntEq a b s
  | .intOdd a => Sys2Proof.Machine.execIntOdd a s
  | .feNew d a sel => Sys2Proof.Machine.execFeNew d a sel s
  | .feAdd d a b => Sys2Proof.Machine.execFeAdd d a b s
  | .feSub d a b => Sys2Proof.Machine.execFeSub d a b s
  | .feMul d a b => Sys2Proof.Machine.execFeMul d a b s
  | .fePow d a b neg => Sys2Proof.Machine.execFePow d a b neg s
  | .feInv d a => Sys2Proof.Machine.execFeInv d a s
  | .feDiv d a b => Sys2Proof.Machine.execFeDiv d a b s
  | .feSmul d a b neg => Sys2Proof.Machine.execFeSmul d a b neg s
  | .feSqrt d a => Sys2Proof.Machine.execFeSqrt d a s
  | .feEq a b => Sys2Proof.Machine.execFeEq a b s
  | .ptInf d sel => Sys2Proof.Machine.execPtInf d sel s
  | .ptGen d => Sys2Proof.Machine.execPtGen d s
  | .ptNew d a b sel => Sys2Proof.Machine.execPtNew d a b sel s
  | .ptAdd d a b => Sys2Proof.Machine.execPtAdd d a b s
  | .ptMul d a b neg => Sys2Proof.Machine.execPtMul d a b neg s
  | .ptEq a b => Sys2Proof.Machine.execPtEq a b s
  | .ptIsInf a => Sys2Proof.Machine.execPtIsInf a s
  | .ptGetX d a => Sys2Proof.Machine.execPtGetX d a s
  | .ptGetY d a => Sys2Proof.Machine.execPtGetY d a s
  | .ptMov d a => Sys2Proof.Machine.execPtMov d a s
  | .ptDeser d a b pfx => Sys2Proof.Machine.execPtDeser d a b pfx s

end Sys2Proof.Machine
end

