-- ==== Sys2Proof/Machine/Complete.lean ====
section
/-! DEFINITION. The completion step and the engine's turn (60_exceptions.md R256, R271). -/

namespace Sys2Proof.Machine

/-- `complete()`: the latched word is decoded and its command runs; a word that matches no row is recorded as
`ILLEGAL` (R256). -/
def complete (s : State) : Answer :=
  match decode s.fetch with
  | .ok i => exec i s
  | .error _ => .next (s.raise .illegal)

/-- The engine's turn: the command in flight completes; without one, or while the reset is held, the engine has no
step (10_state.md R30, 70_reset_and_hazards.md R290). -/
def engineTurn (s : State) : Answer := if s.busy && !s.rst then complete s else .next s

end Sys2Proof.Machine
end

