-- ==== Sys2Proof/Machine/Port.lean ====
section
/-! DEFINITION. The register port: the address map, the word order, and what a host read or write does (20_memory.md). -/

namespace Sys2Proof.Machine

/-! ### The address map (R71) -/

/-- What stands at an offset of the register window. `k` is a word number within a 256-bit register. -/
inductive Loc where
  | id
  | ctrl
  | status
  | cmd
  | errcmd
  | mod (k : Fin 8)
  | ca (k : Fin 8)
  | cb (k : Fin 8)
  | reg (i : RIdx) (k : Fin 8)
  | rtags
  | qx (j : QIdx) (k : Fin 8)
  | qy (j : QIdx) (k : Fin 8)
  | qstat (j : QIdx)
  | reserved
  deriving DecidableEq, Repr

/-- The word number within its 256-bit register of an offset. -/
def wordNo (addr : Nat) : Fin 8 := Fin.ofNat 8 (addr / 4)

/-- The map of R71, for an offset below 0x800 that is a multiple of 4. -/
def locate (addr : Nat) : Loc :=
  if addr < 0x020 then
    match addr with
    | 0x000 => .id
    | 0x004 => .ctrl
    | 0x008 => .status
    | 0x00C => .cmd
    | 0x010 => .errcmd
    | _ => .reserved
  else if addr < 0x040 then .mod (wordNo addr)
  else if addr < 0x060 then .ca (wordNo addr)
  else if addr < 0x080 then .cb (wordNo addr)
  else if addr < 0x100 then .reserved
  else if addr < 0x300 then .reg (Fin.ofNat 16 ((addr - 0x100) / 0x20)) (wordNo addr)
  else if addr < 0x400 then (if addr = 0x300 then .rtags else .reserved)
  else
    let j : QIdx := Fin.ofNat 8 ((addr - 0x400) / 0x80)
    if addr % 0x80 < 0x20 then .qx j (wordNo addr)
    else if addr % 0x80 < 0x40 then .qy j (wordNo addr)
    else if addr % 0x80 = 0x40 then .qstat j
    else .reserved

/-! ### Words of a 256-bit value (R72): the most significant word has the lowest offset -/

/-- The lowest bit of word `k`. -/
def wordLo (k : Fin 8) : Nat := 224 - 32 * k.val

/-- `X[255 - 32k : 224 - 32k]` -/
def getWord (x : Word256) (k : Fin 8) : Word := x.extractLsb' (wordLo k) 32

/-- `X[255 - 32k : 224 - 32k] <- v` -/
def setWord (x : Word256) (k : Fin 8) (v : Word) : Word256 :=
  (x &&& ~~~((BitVec.allOnes 32).setWidth 256 <<< wordLo k)) ||| (v.setWidth 256 <<< wordLo k)

/-! ### Reads: none has a side effect (R80) -/

/-- A view of operand state, which reads 0 while `BUSY = 1` (R73, R74, R76, R77). -/
def State.whenIdle (s : State) (v : Word) : Word := if s.busy then 0 else v

/-- The data of a read of a location (R73 to R77, R79). -/
def State.readLoc (s : State) : Loc → Word
  | .id => idValue
  | .ctrl => s.ctrlWord
  | .status => s.statusWord
  | .cmd => s.cmd
  | .errcmd => s.errcmd
  | .mod k => s.whenIdle (getWord s.mod k)
  | .ca k => s.whenIdle (getWord s.ca k)
  | .cb k => s.whenIdle (getWord s.cb k)
  | .reg i k => s.whenIdle (getWord (s.getR i).v k)
  | .rtags => s.whenIdle s.rtagsWord
  | .qx j k => s.whenIdle (getWord (s.getQ j).x k)
  | .qy j k => s.whenIdle (getWord (s.getQ j).y k)
  | .qstat j => s.whenIdle (s.getQ j).qstatWord
  | .reserved => 0

/-! ### Writes -/

/-- A write to operand state, discarded while `BUSY = 1` (70_reset_and_hazards.md R305). -/
def State.unlessBusy (s s' : State) : State := if s.busy then s.overrun else s'

/-- A write to `CTRL`: bit 31 performs a soft reset, otherwise bits 1:0 are the interrupt enables (10_state.md R40,
70_reset_and_hazards.md R291). -/
def State.writeCtrl (s : State) (v : Word) : State :=
  if v.getLsbD 31 then s.softReset else { s with ieDone := v.getLsbD 0, ieErr := v.getLsbD 1 }

/-- A host write of `v` to a location (R73 to R77, R79). -/
def State.writeLoc (s : State) (v : Word) : Loc → State
  | .id => s
  | .ctrl => s.writeCtrl v
  | .status => s.clearStatus v
  | .cmd => s.offer v
  | .errcmd => s
  | .mod k => s.unlessBusy ({ s with mod := setWord s.mod k v } : State).invalidateField
  | .ca k => s.unlessBusy ({ s with ca := setWord s.ca k v } : State).invalidatePoints
  | .cb k => s.unlessBusy ({ s with cb := setWord s.cb k v } : State).invalidatePoints
  | .reg i k => s.unlessBusy (s.setR i ⟨setWord (s.getR i).v k v, .raw⟩)
  | .rtags => s
  | .qx _ _ => s
  | .qy _ _ => s
  | .qstat _ => s
  | .reserved => s

/-! ### Transactions (R70, R78) -/

/-- A legal transaction is of 4 bytes at a multiple of 4. -/
def portOk (addr : BitVec 11) (size : Nat) : Bool := decide (size = 4) && decide (addr.toNat % 4 = 0)

/-- One transaction: its effect on the engine and the port's answer. Any but a 32-bit aligned access gets an error
response and changes no state of the engine (R78). -/
def hostAccess (a : Access) (s : State) : State :=
  match a with
  | .read addr size =>
    if portOk addr size then { s with resp := .data (s.readLoc (locate addr.toNat)) }
    else { s with resp := .busError }
  | .write addr size v =>
    if portOk addr size then { s.writeLoc v (locate addr.toNat) with resp := .ack }
    else { s with resp := .busError }

end Sys2Proof.Machine
end

