-- ==== Sys2Proof/Machine/Step.lean ====
section
/-! DEFINITION. One step: the next event of the total order of host accesses and engine steps (20_memory.md R85), which
the list `inputs` holds oldest first (assumption 1). -/

namespace Sys2Proof.Machine

/-- The next event happens. With none left, the engine has its turn, so every accepted command completes (60_exceptions.md
R271, 70_reset_and_hazards.md R317). A host access while `rst` is asserted is refused (R290). -/
def step (s : State) : Host.Outcome State Fault Refusal :=
  match s.inputs with
  | [] => engineTurn s
  | .engine :: rest => engineTurn { s with inputs := rest }
  | .rst level :: rest => .next (({ s with inputs := rest } : State).driveReset level)
  | .access a :: rest =>
    if s.rst then .refused .accessDuringReset else .next (hostAccess a { s with inputs := rest })

/-- `s` with the command word `w` accepted (60_exceptions.md R255), nothing in the way of it (`rst` and `ERR` clear) and
the engine's turn next, so that the very next step completes exactly this command. -/
def State.withFetchWord (s : State) (nbits w : Nat) : State :=
  ({ s with
      rst := false
      err := false
      errcode := .none
      inputs := if s.inputs.isEmpty then [] else .engine :: s.inputs } : State).accept
    (BitVec.ofNat 32 (w % 2 ^ nbits))

end Sys2Proof.Machine
end

