-- ==== Sys2Proof/Safety.lean ====
section
/-! DEFINITION. What holds in every reachable state, as claims use it: the invariants of the register files (10_state.md
R34, R35) and of the status register (R39, 60_exceptions.md R257, R259); and what each command may write. -/

namespace Sys2Proof.Machine

/-- R34 for one field register: a tagged value is below its modulus, and `TAG_M` needs a valid `MOD`. -/
def FieldRegOk (s : State) (x : FieldReg) : Prop :=
  (∀ m, s.modof x.t = some m → x.v.toNat < m) ∧ (x.t = .m → s.validmod = true)

/-- R35's first three clauses for one point register, and the check of 42_curve.md R200 that every `USER` point has
passed and that no later write can undo (R37). -/
def PointRegOk (s : State) (x : PointReg) : Prop :=
  (x.c = none → x.inf = false ∧ x.x = 0 ∧ x.y = 0) ∧
  (x.inf = true → x.x = 0 ∧ x.y = 0) ∧
  (∀ c, x.c = some c → x.inf = false → x.x.toNat < (s.coef c).m ∧ x.y.toNat < (s.coef c).m) ∧
  (x.c = some .user → s.validmod = true ∧ s.ca.toNat < s.mod.toNat ∧ s.cb.toNat < s.mod.toNat)

/-- R35's last clause: an affine point of secp256k1, or of a regular user curve, meets the curve equation. -/
def PointRegOnCurve (s : State) (x : PointReg) : Prop :=
  ∀ c, x.c = some c → x.inf = false → (c = .secp ∨ s.userRegular = true) →
    onCurve (s.coef c) x.x.toNat x.y.toNat = true

/-- The status register: `ERRCODE` is 0 exactly when `ERR = 0` (R39, R250), a command in flight excludes `DONE` and
`ERR` (R255), and while `rst` is asserted every piece of state is at its reset value (R290). -/
def StatusOk (s : State) : Prop :=
  (s.err = false ↔ s.errcode = .none) ∧
  (s.busy = true → s.done = false ∧ s.err = false) ∧
  (s.rst = true → s = { State.reset with rst := true, inputs := s.inputs })

/-- The invariant of the register files and the status register. -/
def State.Inv (s : State) : Prop :=
  (∀ i, FieldRegOk s (s.getR i)) ∧ (∀ j, PointRegOk s (s.getQ j)) ∧ StatusOk s

/-- Every point register is on its curve. -/
def State.OnCurves (s : State) : Prop := ∀ j, PointRegOnCurve s (s.getQ j)

/-! ### What a command may write -/

/-- The field register a command writes. -/
def destR : Instr → Option RIdx
  | .mov d _ | .ldi d _ | .ldc d _ | .feNew d _ _ | .feAdd d _ _ | .feSub d _ _ | .feMul d _ _ | .fePow d _ _ _
  | .feInv d _ | .feDiv d _ _ | .feSmul d _ _ _ | .feSqrt d _ | .ptGetX d _ | .ptGetY d _ => some d
  | .nop | .intEq _ _ | .intOdd _ | .feEq _ _ | .ptInf _ _ | .ptGen _ | .ptNew _ _ _ _ | .ptAdd _ _ _
  | .ptMul _ _ _ _ | .ptEq _ _ | .ptIsInf _ | .ptMov _ _ | .ptDeser _ _ _ _ => none

/-- The point register a command writes. -/
def destQ : Instr → Option QIdx
  | .ptInf d _ | .ptGen d | .ptNew d _ _ _ | .ptAdd d _ _ | .ptMul d _ _ _ | .ptMov d _ | .ptDeser d _ _ _ => some d
  | .nop | .mov _ _ | .ldi _ _ | .ldc _ _ | .intEq _ _ | .intOdd _ | .feNew _ _ _ | .feAdd _ _ _ | .feSub _ _ _
  | .feMul _ _ _ | .fePow _ _ _ _ | .feInv _ _ | .feDiv _ _ _ | .feSmul _ _ _ _ | .feSqrt _ _ | .feEq _ _
  | .ptEq _ _ | .ptIsInf _ | .ptGetX _ _ | .ptGetY _ _ => none

/-- The commands that write `T` (10_state.md R38). -/
def isTest : Instr → Bool
  | .intEq _ _ | .intOdd _ | .feEq _ _ | .ptEq _ _ | .ptIsInf _ => true
  | .nop | .mov _ _ | .ldi _ _ | .ldc _ _ | .feNew _ _ _ | .feAdd _ _ _ | .feSub _ _ _ | .feMul _ _ _
  | .fePow _ _ _ _ | .feInv _ _ | .feDiv _ _ _ | .feSmul _ _ _ _ | .feSqrt _ _ | .ptInf _ _ | .ptGen _
  | .ptNew _ _ _ _ | .ptAdd _ _ _ | .ptMul _ _ _ _ | .ptGetX _ _ | .ptGetY _ _ | .ptMov _ _ | .ptDeser _ _ _ _ => false

end Sys2Proof.Machine
end

