-- ==== Sys2Proof/Certificates/Slice0/Obligations.lean ====
section
/-! DEFINITION. The statements for the provers. Each docstring names the rule of spec/ it formalises. A command's next
state is written out as a record: what is not named in it is unchanged, so the equation is the frame as well. -/

open Sys2Proof Sys2Proof.Machine

namespace Sys2Proof.Machine

/-! ### The states a completion can end in (60_exceptions.md R252, R256) -/

/-- The command completed and wrote nothing. -/
def completed (s : State) : State := { s with busy := false, done := true }

/-- The command completed and wrote field register `d` only. -/
def completedR (s : State) (d : RIdx) (v : Word256) (t : Tag) : State :=
  { s with r := s.r.set d.val ⟨v, t⟩, busy := false, done := true }

/-- The command completed and wrote point register `d` only. -/
def completedQ (s : State) (d : QIdx) (x : PointReg) : State :=
  { s with q := s.q.set d.val x, busy := false, done := true }

/-- The command completed and wrote the test flag only. -/
def completedT (s : State) (b : Bool) : State := { s with t := b, busy := false, done := true }

/-- The command ended in an error: the code and the word are recorded, nothing else changed. -/
def failed (s : State) (e : ErrCode) : State :=
  { s with err := true, errcode := e, errcmd := s.cmd, busy := false, done := true }

/-- The host's next event is a 32-bit read at an offset. -/
def NextRead (s : State) (addr : Nat) (rest : List Event) : Prop :=
  s.rst = false ∧ s.inputs = .access (.read (BitVec.ofNat 11 addr) 4) :: rest

/-- The host's next event is a 32-bit write at an offset. -/
def NextWrite (s : State) (addr : Nat) (v : Word) (rest : List Event) : Prop :=
  s.rst = false ∧ s.inputs = .access (.write (BitVec.ofNat 11 addr) 4 v) :: rest

/-- The state after a read that returned `v`. -/
def afterRead (s : State) (rest : List Event) (v : Word) : State := { s with inputs := rest, resp := .data v }

/-- The state after a write that changed nothing but the port. -/
def afterIgnored (s : State) (rest : List Event) : State := { s with inputs := rest, resp := .ack }

/-- The state after a discarded write. -/
def afterDiscarded (s : State) (rest : List Event) : State := { s with ovr := true, inputs := rest, resp := .ack }

/-- The word of a command meets its row of the opcode table and decodes back to the command (30_encoding.md R118). -/
def Encodes (i : Instr) (mask row : Word) : Prop := encode i &&& mask = row ∧ decode (encode i) = .ok i

/-- Bits `255 - 32k : 224 - 32k` of a 256-bit value (20_memory.md R72). -/
def wordOf (x : Word256) (k : Fin 8) : Word := BitVec.ofNat 32 (x.toNat / 2 ^ (224 - 32 * k.val))

end Sys2Proof.Machine

/-! ## Decoding and encoding (30_encoding.md) -/

/-- R118, R124: words written out from the encoding, with the commands they stand for. -/
def Obligations.SampleWordsDecode : Prop :=
  decode 0x01000000 = .ok .nop ∧
  decode 0x11312000 = .ok (.feAdd 3 1 2) ∧
  decode 0x10100C00 = .ok (.feNew 1 0 .m) ∧
  decode 0x14210200 = .ok (.fePow 2 1 0 true) ∧
  decode 0x04400001 = .ok (.ldc 4 1) ∧
  decode 0x03000007 = .ok (.ldi 0 7) ∧
  decode 0x24100000 = .ok (.ptMul 1 0 0 false) ∧
  decode 0x22256400 = .ok (.ptNew 2 5 6 1) ∧
  decode 0x2A210002 = .ok (.ptDeser 2 1 0 2) ∧
  (∃ e, decode 0x23800000 = .error e)

/-- R119: a word decodes to the row whose mask and match it meets, at most one row does, and a word that meets none is
illegal. -/
def Obligations.DecodeFollowsOpcodeTable : Prop :=
  ∀ w : Word,
    (∀ i : Instr, w &&& i.mask = i.pattern →
      ∃ i', decode w = .ok i' ∧ i'.mask = i.mask ∧ i'.pattern = i.pattern) ∧
    (∀ i j : Instr, w &&& i.mask = i.pattern → w &&& j.mask = j.pattern → i.pattern = j.pattern) ∧
    ((∀ i : Instr, w &&& i.mask ≠ i.pattern) → ∃ e, decode w = .error e)

/-- Every well-formed command decodes back from its word, with every operand (R111, R117, R118). -/
def Obligations.DecodeOfEncode : Prop := ∀ i : Instr, i.WellFormed → decode (encode i) = .ok i

/-- Every word that decodes is the word of the well-formed command it decodes to: no bit is ignored (R119, R120). -/
def Obligations.EncodeOfDecode : Prop := ∀ (w : Word) (i : Instr), decode w = .ok i → i.WellFormed ∧ encode i = w

/-- An operand value that R113 or R116 calls illegal makes the word illegal (R120). -/
def Obligations.IllFormedWordIsIllegal : Prop :=
  ∀ i : Instr, ¬ i.WellFormed → ∃ e, decode (encode i) = .error e

/-! ## Steps: completion, acceptance, errors (60_exceptions.md) -/

/-- R256: when the word in `CMD` decodes to a command, the engine's turn is that command's completion step; and a word
placed as the command in flight (`withFetchWord`, the model's own, assumption 5) is the one the next step runs. -/
def Obligations.StepRunsDecodedCommand : Prop :=
  (∀ (s : State) (i : Instr), s.busy = true → s.rst = false → decode s.cmd = .ok i →
    (s.inputs = [] → step s = exec i s) ∧
    (∀ rest, s.inputs = .engine :: rest → step s = exec i { s with inputs := rest })) ∧
  (∀ (s : State) (w : Nat) (i : Instr), decode (BitVec.ofNat 32 w) = .ok i →
    step (s.withFetchWord 32 w) =
      exec i { s with
        cmd := BitVec.ofNat 32 w, busy := true, done := false, err := false, errcode := .none, rst := false })

/-- R120, R252: a word that decodes to nothing completes with `ILLEGAL`, which is all it records. -/
def Obligations.IllegalWordRecordsError : Prop :=
  ∀ (s : State) (e : Illegal), s.busy = true → s.rst = false → decode s.cmd = .error e →
    (s.inputs = [] → step s = .next (failed s .illegal)) ∧
    (∀ rest, s.inputs = .engine :: rest → step s = .next (failed { s with inputs := rest } .illegal))

/-- R255: a write to `CMD` is refused while `BUSY` or `ERR` is 1, and otherwise puts the command in flight. -/
def Obligations.CommandWriteAcceptance : Prop :=
  ∀ (s : State) (v : Word) (rest : List Event), NextWrite s 0x00C v rest →
    (s.busy = true ∨ s.err = true → step s = .next (afterDiscarded s rest)) ∧
    (s.busy = false → s.err = false →
      step s = .next { s with cmd := v, done := false, busy := true, inputs := rest, resp := .ack })

/-- R256, R271: every command completes from every state, and the completion leaves `CMD`, `MOD`, `CA`, `CB`, `CTRL`,
`OVR` and the world outside the engine as they were. -/
def Obligations.EveryCommandCompletes : Prop :=
  ∀ (i : Instr) (s : State), ∃ t, exec i s = .next t ∧ t.busy = false ∧ t.done = true ∧ t.cmd = s.cmd ∧
    t.mod = s.mod ∧ t.ca = s.ca ∧ t.cb = s.cb ∧ t.ieDone = s.ieDone ∧ t.ieErr = s.ieErr ∧ t.ovr = s.ovr ∧
    t.rst = s.rst ∧ t.inputs = s.inputs ∧ t.resp = s.resp

/-- R90, R150: a command changes no field or point register but its destination. -/
def Obligations.OnlyDestinationChanges : Prop :=
  ∀ (i : Instr) (s t : State), exec i s = .next t →
    (∀ k, destR i ≠ some k → t.getR k = s.getR k) ∧ (∀ j, destQ i ≠ some j → t.getQ j = s.getQ j)

/-- R253: a command that ends in an error changes nothing but `STATUS` and `ERRCMD`. -/
def Obligations.ErrorsArePrecise : Prop :=
  ∀ (i : Instr) (s t : State), s.err = false → exec i s = .next t → t.err = true →
    t.errcode ≠ .none ∧ t = failed s t.errcode

/-- R38: only the five tests write `T`, only when they complete without error; the host cannot write it. -/
def Obligations.TestFlagWriters : Prop :=
  (∀ (i : Instr) (s t : State), exec i s = .next t → t.t ≠ s.t →
    isTest i = true ∧ t.err = s.err ∧ t.errcode = s.errcode) ∧
  (∀ (s t : State) (a : Access) (rest : List Event), s.inputs = .access a :: rest → step s = .next t → t.t ≠ s.t →
    t.t = false ∧ ∃ v : Word, a = .write 0x004 4 v ∧ v.getLsbD 31 = true)

/-- R258: the write to `STATUS` that returns from an error; clearing `ERR` drops the error part of `irq`. -/
def Obligations.StatusWriteClears : Prop :=
  ∀ (s : State) (v : Word) (rest : List Event), NextWrite s 0x008 v rest →
    ∃ t : State, step s = .next t ∧
      t = { s with
        err := if v.getLsbD 2 then false else s.err
        errcode := if v.getLsbD 2 then .none else s.errcode
        done := if v.getLsbD 1 then false else s.done
        ovr := if v.getLsbD 3 then false else s.ovr
        inputs := rest
        resp := .ack } ∧
      (v.getLsbD 2 = true → t.irq = (t.done && t.ieDone))

/-- R257, R259: a recorded error stays, and no command is accepted, until the host clears `ERR` or a reset comes. -/
def Obligations.ErrorBlocksCommands : Prop :=
  ∀ s t : State, s.err = true → s.busy = false → step s = .next t →
    (t.err = true ∧ t.errcode = s.errcode ∧ t.errcmd = s.errcmd ∧ t.cmd = s.cmd ∧ t.busy = false) ∨
    (∃ v rest, s.inputs = .access (.write 0x008 4 v) :: rest ∧ v.getLsbD 2 = true) ∨
    (∃ v rest, s.inputs = .access (.write 0x004 4 v) :: rest ∧ v.getLsbD 31 = true) ∨
    (∃ level rest, s.inputs = .rst level :: rest)

/-- R260: the interrupt line, what acceptance and completion do to it, and its value after reset. -/
def Obligations.InterruptLevel : Prop :=
  (∀ s : State, s.irq = true ↔ (s.done = true ∧ s.ieDone = true) ∨ (s.err = true ∧ s.ieErr = true)) ∧
  (∀ (i : Instr) (s t : State), exec i s = .next t →
    (t.irq = true ↔ s.ieDone = true ∨ (t.err = true ∧ s.ieErr = true))) ∧
  (∀ (s : State) (v : Word), s.err = false → (s.offer v).irq = (s.busy && s.irq)) ∧
  State.reset.irq = false

/-- R271: a command in flight completes, whatever the host reads meanwhile. -/
def Obligations.CommandInFlightCompletes : Prop :=
  ∀ s : State, s.busy = true → s.rst = false →
    (∀ e ∈ s.inputs, ∃ addr size, e = .access (.read addr size)) →
    ∃ t, Host.Core.run Sys2Proof.core (s.inputs.length + 1) s = .next t ∧ t.busy = false ∧ t.done = true ∧
      t.inputs = []

/-- R85: while no command is in flight, operand state changes only by a host write or a reset. -/
def Obligations.IdleOperandStateIsStable : Prop :=
  ∀ s t : State, s.busy = false → step s = .next t → t.operands ≠ s.operands →
    (∃ addr v rest, s.inputs = .access (.write addr 4 v) :: rest) ∨ (∃ level rest, s.inputs = .rst level :: rest)

/-! ## The register port (20_memory.md) -/

/-- R73: the field-register window. -/
def Obligations.FieldRegisterWindow : Prop :=
  ∀ (s : State) (i : RIdx) (k : Fin 8) (rest : List Event),
    (NextRead s (0x100 + 0x20 * i.val + 4 * k.val) rest →
      step s = .next (afterRead s rest (if s.busy then 0 else wordOf (s.getR i).v k))) ∧
    (∀ v, NextWrite s (0x100 + 0x20 * i.val + 4 * k.val) v rest →
      (s.busy = true → step s = .next (afterDiscarded s rest)) ∧
      (s.busy = false → ∃ x : Word256, wordOf x k = v ∧ (∀ l, l ≠ k → wordOf x l = wordOf (s.getR i).v l) ∧
        step s = .next { s with r := s.r.set i.val ⟨x, .raw⟩, inputs := rest, resp := .ack }))

/-- R74: the point-register window is read only. -/
def Obligations.PointRegisterWindow : Prop :=
  ∀ (s : State) (j : QIdx) (k : Fin 8) (rest : List Event),
    (NextRead s (0x400 + 0x80 * j.val + 4 * k.val) rest →
      step s = .next (afterRead s rest (if s.busy then 0 else wordOf (s.getQ j).x k))) ∧
    (NextRead s (0x400 + 0x80 * j.val + 0x20 + 4 * k.val) rest →
      step s = .next (afterRead s rest (if s.busy then 0 else wordOf (s.getQ j).y k))) ∧
    (∀ v, NextWrite s (0x400 + 0x80 * j.val + 4 * k.val) v rest ∨
        NextWrite s (0x400 + 0x80 * j.val + 0x20 + 4 * k.val) v rest →
      step s = .next (afterIgnored s rest))

/-- R76 with R37 for `MOD`: every `TAG_M` register is untagged and every `USER` point cleared. -/
def Obligations.ModWindow : Prop :=
  ∀ (s : State) (k : Fin 8) (rest : List Event),
    (NextRead s (0x020 + 4 * k.val) rest →
      step s = .next (afterRead s rest (if s.busy then 0 else wordOf s.mod k))) ∧
    (∀ v, NextWrite s (0x020 + 4 * k.val) v rest →
      (s.busy = true → step s = .next (afterDiscarded s rest)) ∧
      (s.busy = false → ∃ t, step s = .next t ∧
        t = { s with mod := t.mod, r := t.r, q := t.q, inputs := rest, resp := .ack } ∧
        wordOf t.mod k = v ∧ (∀ l, l ≠ k → wordOf t.mod l = wordOf s.mod l) ∧
        (∀ i, t.getR i = ⟨(s.getR i).v, if (s.getR i).t = .m then .raw else (s.getR i).t⟩) ∧
        (∀ j, t.getQ j = if (s.getQ j).c = some .user then ⟨none, false, 0, 0⟩ else s.getQ j)))

/-- R76 with R37 for `CA` and `CB`: every `USER` point is cleared, the field registers stay. -/
def Obligations.CurveCoefficientWindows : Prop :=
  ∀ (s : State) (k : Fin 8) (rest : List Event),
    (NextRead s (0x040 + 4 * k.val) rest →
      step s = .next (afterRead s rest (if s.busy then 0 else wordOf s.ca k))) ∧
    (NextRead s (0x060 + 4 * k.val) rest →
      step s = .next (afterRead s rest (if s.busy then 0 else wordOf s.cb k))) ∧
    (∀ v, NextWrite s (0x040 + 4 * k.val) v rest →
      (s.busy = true → step s = .next (afterDiscarded s rest)) ∧
      (s.busy = false → ∃ t, step s = .next t ∧
        t = { s with ca := t.ca, q := t.q, inputs := rest, resp := .ack } ∧
        wordOf t.ca k = v ∧ (∀ l, l ≠ k → wordOf t.ca l = wordOf s.ca l) ∧
        (∀ j, t.getQ j = if (s.getQ j).c = some .user then ⟨none, false, 0, 0⟩ else s.getQ j))) ∧
    (∀ v, NextWrite s (0x060 + 4 * k.val) v rest →
      (s.busy = true → step s = .next (afterDiscarded s rest)) ∧
      (s.busy = false → ∃ t, step s = .next t ∧
        t = { s with cb := t.cb, q := t.q, inputs := rest, resp := .ack } ∧
        wordOf t.cb k = v ∧ (∀ l, l ≠ k → wordOf t.cb l = wordOf s.cb l) ∧
        (∀ j, t.getQ j = if (s.getQ j).c = some .user then ⟨none, false, 0, 0⟩ else s.getQ j)))

/-- R72, R123: the host's eight word writes, most significant word first, put the value in the register, untagged. -/
def Obligations.EightWritesLoadRegister : Prop :=
  ∀ (s : State) (i : RIdx) (v : Word256) (rest : List Event), s.rst = false → s.busy = false →
    s.inputs = (List.finRange 8).map (fun k =>
      Event.access (.write (BitVec.ofNat 11 (0x100 + 0x20 * i.val + 4 * k.val)) 4 (wordOf v k))) ++ rest →
    Host.Core.run Sys2Proof.core 8 s =
      .next { s with r := s.r.set i.val ⟨v, .raw⟩, inputs := rest, resp := .ack }

/-- R78, R80: an access of another size or at an unaligned offset gets an error response and changes no state; and no
read of any kind changes any. -/
def Obligations.BusErrorsAndReadsChangeNothing : Prop :=
  ∀ (s : State) (addr : BitVec 11) (size : Nat) (rest : List Event), s.rst = false →
    (size ≠ 4 ∨ addr.toNat % 4 ≠ 0 →
      (s.inputs = .access (.read addr size) :: rest → step s = .next { s with inputs := rest, resp := .busError }) ∧
      (∀ v, s.inputs = .access (.write addr size v) :: rest →
        step s = .next { s with inputs := rest, resp := .busError })) ∧
    (size = 4 → addr.toNat % 4 = 0 → s.inputs = .access (.read addr size) :: rest →
      ∃ v, step s = .next { s with inputs := rest, resp := .data v })

/-- R79: reserved offsets read 0 and ignore writes; read-only registers ignore writes. -/
def Obligations.ReservedAndReadOnlyOffsets : Prop :=
  ∀ (s : State) (addr : Nat) (rest : List Event), addr < 0x800 → addr % 4 = 0 →
    let reserved := (0x014 ≤ addr ∧ addr < 0x020) ∨ (0x080 ≤ addr ∧ addr < 0x100) ∨
      (0x304 ≤ addr ∧ addr < 0x400) ∨ (0x400 ≤ addr ∧ 0x44 ≤ addr % 0x80)
    (reserved → NextRead s addr rest → step s = .next (afterRead s rest 0)) ∧
    (∀ v, reserved ∨ addr = 0x000 ∨ addr = 0x010 ∨ addr = 0x300 ∨ 0x400 ≤ addr → NextWrite s addr v rest →
      step s = .next (afterIgnored s rest))

/-- R39 to R43, R77, R250: the control words read live, also while a command is in flight. -/
def Obligations.ControlWordsReadLive : Prop :=
  ∀ (s : State) (rest : List Event),
    (NextRead s 0x000 rest → step s = .next (afterRead s rest 0x4C420100)) ∧
    (NextRead s 0x004 rest →
      step s = .next (afterRead s rest (BitVec.ofNat 32 (s.ieDone.toNat + 2 * s.ieErr.toNat)))) ∧
    (NextRead s 0x008 rest →
      step s = .next (afterRead s rest (BitVec.ofNat 32 (s.busy.toNat + 2 * s.done.toNat + 4 * s.err.toNat +
        8 * s.ovr.toNat + 16 * s.t.toNat + 256 * (match s.errcode with
          | .none => 0 | .illegal => 1 | .range => 2 | .fieldMismatch => 3 | .notOnCurve => 4
          | .curveMismatch => 5 | .format => 6 | .operand => 7 | .modulus => 8 | .infinity => 9))))) ∧
    (NextRead s 0x00C rest → step s = .next (afterRead s rest s.cmd)) ∧
    (NextRead s 0x010 rest → step s = .next (afterRead s rest s.errcmd))

/-- R44, R45: the tags and the point status are views of operand state that read 0 while busy. -/
def Obligations.TagViews : Prop :=
  ∀ (s : State) (rest : List Event),
    (NextRead s 0x300 rest → ∃ w : Word, step s = .next (afterRead s rest w) ∧
      (s.busy = true → w = 0) ∧
      (s.busy = false → ∀ i : Fin 16, w.toNat / 2 ^ (2 * i.val) % 4 =
        match (s.getR i).t with | .raw => 0 | .p => 1 | .n => 2 | .m => 3)) ∧
    (∀ j : Fin 8, NextRead s (0x440 + 0x80 * j.val) rest →
      step s = .next (afterRead s rest (if s.busy then 0 else BitVec.ofNat 32
        ((match (s.getQ j).c with | none => 0 | some .secp => 1 | some .user => 2) + 4 * (s.getQ j).inf.toNat))))

/-- R305: `OVR` is set exactly by a discarded write: to `CMD` while busy or in error, or to a word of `R[i]`, `MOD`,
`CA` or `CB` while busy; and the discarded write has no other effect. -/
def Obligations.OverrunExactlyOnDiscard : Prop :=
  ∀ s t : State, s.ovr = false → step s = .next t →
    (t.ovr = true ↔ ∃ (addr : BitVec 11) (v : Word) (rest : List Event),
      s.inputs = .access (.write addr 4 v) :: rest ∧ addr.toNat % 4 = 0 ∧
      ((addr.toNat = 0x00C ∧ (s.busy = true ∨ s.err = true)) ∨
        (s.busy = true ∧ ((0x020 ≤ addr.toNat ∧ addr.toNat < 0x080) ∨
          (0x100 ≤ addr.toNat ∧ addr.toNat < 0x300))))) ∧
    (t.ovr = true → ∃ rest, t = afterDiscarded s rest)

/-! ## Reset (10_state.md R49, 70_reset_and_hazards.md) -/

namespace Sys2Proof.Machine

/-- Every piece of the engine's state has R49's reset value. -/
def AtReset (s : State) : Prop :=
  (∀ i, s.getR i = ⟨0, .raw⟩) ∧ (∀ j, s.getQ j = ⟨none, false, 0, 0⟩) ∧
  s.mod = 0 ∧ s.ca = 0 ∧ s.cb = 0 ∧ s.validmod = false ∧ s.t = false ∧ s.statusWord = 0 ∧ s.ctrlWord = 0 ∧
  s.cmd = 0 ∧ s.errcmd = 0 ∧ s.busy = false ∧ s.irq = false ∧ s.readLoc .id = 0x4C420100

end Sys2Proof.Machine

/-- R49: every piece of state after reset, after a hardware reset and after a soft reset. -/
def Obligations.ResetValues : Prop :=
  AtReset State.reset ∧
  (∀ (s : State) (rest : List Event), s.inputs = .rst true :: rest → ∃ t, step s = .next t ∧ AtReset t) ∧
  (∀ (s : State) (v : Word) (rest : List Event), NextWrite s 0x004 v rest → v.getLsbD 31 = true →
    ∃ t, step s = .next t ∧ AtReset t)

/-- R291: a write to `CTRL` with bit 31 resets every piece of the engine's state, whatever is in flight or recorded;
without it, it sets the interrupt enables (R40). That the events still to come stay and the write is acknowledged is the
model's choice (log entry 11). -/
def Obligations.SoftReset : Prop :=
  ∀ (s : State) (v : Word) (rest : List Event), NextWrite s 0x004 v rest →
    (v.getLsbD 31 = true → step s = .next { State.reset with inputs := rest, resp := .ack }) ∧
    (v.getLsbD 31 = false →
      step s = .next { s with ieDone := v.getLsbD 0, ieErr := v.getLsbD 1, inputs := rest, resp := .ack })

/-- R290: asserting `rst` puts every piece of state at its reset value and abandons a command in flight; the engine
then takes no step and host accesses are refused; releasing it leaves the engine idle in the reset state. That `rst`
reaches a step as an event, that the later events stay and that the port's last answer is forgotten is the model's choice
(log entry 6). -/
def Obligations.HardReset : Prop :=
  ∀ (s : State) (rest : List Event),
    (s.inputs = .rst true :: rest → step s = .next { State.reset with rst := true, inputs := rest }) ∧
    (s.rst = true →
      (∀ a, s.inputs = .access a :: rest → step s = .refused .accessDuringReset) ∧
      (s.inputs = .engine :: rest → step s = .next { s with inputs := rest }) ∧
      (s.inputs = [] → step s = .next s) ∧
      (s.inputs = .rst false :: rest → step s = .next { State.reset with inputs := rest }))

/-! ## Invariants -/

/-- The invariant holds after reset. -/
def Obligations.ResetMeetsInvariant : Prop := State.reset.Inv ∧ State.reset.OnCurves

/-- R34, R35: every step keeps the invariant of the register files and the status register. -/
def Obligations.StepKeepsRegisterInvariant : Prop :=
  ∀ s t : State, s.Inv → step s = .next t → t.Inv

/-- R35: every step keeps the points of secp256k1, and of a regular user curve, on their curve. -/
def Obligations.StepKeepsPointsOnCurve : Prop :=
  ∀ s t : State, s.Inv → s.OnCurves → step s = .next t → t.OnCurves

/-! ## Data movement and integer tests (40_data.md) -/

/-- R151, R152, R153: NOP, MOV and LDI, with their encodings. -/
def Obligations.MovesComplete : Prop :=
  ∀ (s : State) (d a : RIdx) (imm : BitVec 16),
    (Encodes .nop 0xFFFFFFFF 0x01000000 ∧ Encodes (.mov d a) 0xFF00FFFF 0x02000000 ∧
      Encodes (.ldi d imm) 0xFF0F0000 0x03000000) ∧
    exec .nop s = .next (completed s) ∧
    exec (.mov d a) s = .next (completedR s d (s.getR a).v (s.getR a).t) ∧
    exec (.ldi d imm) s = .next (completedR s d (BitVec.ofNat 256 imm.toNat) .raw)

/-- R154, R230, R231, R232: LDC loads the constant of its index, untagged. That `exec` of an index of 4 or more, which no
word decodes to, records `ILLEGAL` is the model's choice (log entry 7). -/
def Obligations.LdcLoadsConstant : Prop :=
  ∀ (s : State) (d : RIdx) (k : BitVec 16),
    (k.toNat < 4 → Encodes (.ldc d k) 0xFF0FFFFC 0x04000000) ∧
    exec (.ldc d 0) s =
      .next (completedR s d 0xFFFFFFFFFFFFFFFFFFFFFFFFFFFFFFFFFFFFFFFFFFFFFFFFFFFFFFFEFFFFFC2F .raw) ∧
    exec (.ldc d 1) s =
      .next (completedR s d 0xFFFFFFFFFFFFFFFFFFFFFFFFFFFFFFFEBAAEDCE6AF48A03BBFD25E8CD0364141 .raw) ∧
    exec (.ldc d 2) s =
      .next (completedR s d 0x79BE667EF9DCBBAC55A06295CE870B07029BFCDB2DCE28D959F2815B16F81798 .raw) ∧
    exec (.ldc d 3) s =
      .next (completedR s d 0x483ADA7726A3C4655DA4FBFC0E1108A8FD17B448A68554199C47D08FFB10D4B8 .raw) ∧
    (4 ≤ k.toNat → exec (.ldc d k) s = .next (failed s .illegal))

/-- R155, R156: INT_EQ compares values ignoring tags; INT_ODD tests the parity. -/
def Obligations.IntegerTests : Prop :=
  ∀ (s : State) (a b : RIdx),
    (Encodes (.intEq a b) 0xFFF00FFF 0x05000000 ∧ Encodes (.intOdd a) 0xFFF0FFFF 0x06000000) ∧
    exec (.intEq a b) s = .next (completedT s (decide ((s.getR a).v.toNat = (s.getR b).v.toNat))) ∧
    exec (.intOdd a) s = .next (completedT s (decide ((s.getR a).v.toNat % 2 = 1)))

/-! ## The field unit (41_field.md) -/

/-- R170: FE_NEW clears the tag, or checks the modulus, then the range, and tags the value. -/
def Obligations.FeNewChecksRange : Prop :=
  ∀ (s : State) (d a : RIdx),
    (∀ sel, Encodes (.feNew d a sel) 0xFF00F3FF 0x10000000) ∧
    exec (.feNew d a .raw) s = .next (completedR s d (s.getR a).v .raw) ∧
    ((s.mod.toNat % 2 = 0 ∨ s.mod.toNat < 3) → exec (.feNew d a .m) s = .next (failed s .modulus)) ∧
    (∀ (sel : Tag) (m : Nat), s.modof sel = some m → (sel = .m → s.mod.toNat % 2 = 1 ∧ 3 ≤ s.mod.toNat) →
      (m ≤ (s.getR a).v.toNat → exec (.feNew d a sel) s = .next (failed s .range)) ∧
      ((s.getR a).v.toNat < m → exec (.feNew d a sel) s = .next (completedR s d (s.getR a).v sel)))

namespace Sys2Proof.Machine

/-- R171's rule for a binary field command of one row of the opcode table: operands of one field give `value a b m`,
tagged as `A`; an untagged operand is an `OPERAND` error, and different moduli are a `FIELD_MISMATCH`. -/
def BinaryFieldRule (cmd : RIdx → RIdx → RIdx → Instr) (row : Word) (value : Nat → Nat → Nat → Nat) : Prop :=
  ∀ (s : State) (d a b : RIdx),
    Encodes (cmd d a b) 0xFF000FFF row ∧
    (∀ m, s.modof (s.getR a).t = some m → s.modof (s.getR b).t = some m →
      exec (cmd d a b) s = .next (completedR s d
        (BitVec.ofNat 256 (value (s.getR a).v.toNat (s.getR b).v.toNat m)) (s.getR a).t)) ∧
    ((s.getR a).t = .raw ∨ (s.getR b).t = .raw → exec (cmd d a b) s = .next (failed s .operand)) ∧
    (∀ ma mb, s.modof (s.getR a).t = some ma → s.modof (s.getR b).t = some mb → ma ≠ mb →
      exec (cmd d a b) s = .next (failed s .fieldMismatch))

end Sys2Proof.Machine

/-- R172: FE_ADD. -/
def Obligations.FeAddIsModularSum : Prop := BinaryFieldRule .feAdd 0x11000000 fun a b m => (a + b) % m

/-- R173: FE_SUB, never negative. -/
def Obligations.FeSubIsModularDifference : Prop :=
  BinaryFieldRule .feSub 0x12000000 fun a b m => (((a : Int) - (b : Int)) % (m : Int)).toNat

/-- R174: FE_MUL, of the exact product. -/
def Obligations.FeMulIsModularProduct : Prop := BinaryFieldRule .feMul 0x13000000 fun a b m => a * b % m

/-- R177: FE_DIV, by the Fermat inverse. -/
def Obligations.FeDivIsFermatQuotient : Prop := BinaryFieldRule .feDiv 0x16000000 fun a b m => a * (b ^ (m - 2) % m) % m

/-- R175: FE_POW, the signed exponent reduced modulo `m - 1` first, whatever it is. -/
def Obligations.FePowReducesExponent : Prop :=
  ∀ (s : State) (d a b : RIdx) (neg : Bool),
    Encodes (.fePow d a b neg) 0xFF000DFF 0x14000000 ∧
    (∀ m, s.modof (s.getR a).t = some m →
      let e : Int := if neg then -((s.getR b).v.toNat : Int) else ((s.getR b).v.toNat : Int)
      exec (.fePow d a b neg) s = .next (completedR s d
        (BitVec.ofNat 256 ((s.getR a).v.toNat ^ (e % ((m - 1 : Nat) : Int)).toNat % m)) (s.getR a).t)) ∧
    ((s.getR a).t = .raw → exec (.fePow d a b neg) s = .next (failed s .operand))

/-- R176: FE_INV is the Fermat power, 0 for 0, and the inverse for a prime modulus. -/
def Obligations.FeInvIsFermatInverse : Prop :=
  ∀ (s : State) (d a : RIdx),
    Encodes (.feInv d a) 0xFF00FFFF 0x15000000 ∧
    ((s.getR a).t = .raw → exec (.feInv d a) s = .next (failed s .operand)) ∧
    (∀ m, s.modof (s.getR a).t = some m →
      ∃ v, exec (.feInv d a) s = .next (completedR s d (BitVec.ofNat 256 v) (s.getR a).t) ∧
        v = (s.getR a).v.toNat ^ (m - 2) % m ∧
        (3 ≤ m → (s.getR a).v.toNat = 0 → v = 0) ∧
        (3 ≤ m → m.Prime → (s.getR a).v.toNat % m ≠ 0 → (s.getR a).v.toNat * v % m = 1))

/-- R178: FE_SMUL, a signed integer times a field element, with the tag of `B`. -/
def Obligations.FeSmulIsScaledElement : Prop :=
  ∀ (s : State) (d a b : RIdx) (neg : Bool),
    Encodes (.feSmul d a b neg) 0xFF000DFF 0x17000000 ∧
    (∀ m, s.modof (s.getR b).t = some m →
      let k : Int := if neg then -((s.getR a).v.toNat : Int) else ((s.getR a).v.toNat : Int)
      exec (.feSmul d a b neg) s = .next (completedR s d
        (BitVec.ofNat 256 (k * ((s.getR b).v.toNat : Int) % (m : Int)).toNat) (s.getR b).t)) ∧
    ((s.getR b).t = .raw → exec (.feSmul d a b neg) s = .next (failed s .operand))

/-- R179: FE_EQ compares value and modulus; different moduli are no error. -/
def Obligations.FeEqIsStructural : Prop :=
  ∀ (s : State) (a b : RIdx),
    Encodes (.feEq a b) 0xFFF00FFF 0x19000000 ∧
    (∀ ma mb, s.modof (s.getR a).t = some ma → s.modof (s.getR b).t = some mb →
      exec (.feEq a b) s = .next (completedT s (decide ((s.getR a).v.toNat = (s.getR b).v.toNat ∧ ma = mb)))) ∧
    ((s.getR a).t = .raw ∨ (s.getR b).t = .raw → exec (.feEq a b) s = .next (failed s .operand))

/-- R182: laws of a field of prime modulus: `a - a = 0`, `a / a = 1` for `a ≠ 0`, and FE_POW by `m - 1` gives 1. -/
def Obligations.PrimeFieldLaws : Prop :=
  ∀ (s : State) (d a b : RIdx) (m : Nat), s.modof (s.getR a).t = some m → m.Prime → 3 ≤ m →
    (s.getR a).v.toNat < m →
    exec (.feSub d a a) s = .next (completedR s d 0 (s.getR a).t) ∧
    ((s.getR a).v ≠ 0 → exec (.feDiv d a a) s = .next (completedR s d 1 (s.getR a).t)) ∧
    ((s.getR b).v.toNat = m - 1 → exec (.fePow d a b false) s = .next (completedR s d 1 (s.getR a).t))

/-! ## The point unit (42_curve.md) -/

/-- R205 with R200: PT_INF. That `exec` of a select of 2 or 3, which no word decodes to, records `ILLEGAL` is the model's
choice (log entry 7). -/
def Obligations.PtInfChecksUserCurve : Prop :=
  ∀ (s : State) (d : QIdx) (sel : BitVec 2),
    (sel.toNat < 2 → Encodes (.ptInf d sel) 0xFF8FFBFF 0x20000000) ∧
    exec (.ptInf d 0) s = .next (completedQ s d ⟨some .secp, true, 0, 0⟩) ∧
    ((s.mod.toNat % 2 = 0 ∨ s.mod.toNat < 3) → exec (.ptInf d 1) s = .next (failed s .modulus)) ∧
    (s.mod.toNat % 2 = 1 → 3 ≤ s.mod.toNat →
      (s.mod.toNat ≤ s.ca.toNat ∨ s.mod.toNat ≤ s.cb.toNat → exec (.ptInf d 1) s = .next (failed s .range)) ∧
      (s.ca.toNat < s.mod.toNat → s.cb.toNat < s.mod.toNat →
        exec (.ptInf d 1) s = .next (completedQ s d ⟨some .user, true, 0, 0⟩))) ∧
    (2 ≤ sel.toNat → exec (.ptInf d sel) s = .next (failed s .illegal))

namespace Sys2Proof.Machine

/-- The curve equation `y^2 = x^3 + a x + b` modulo `m`, as a congruence. -/
def CurveEquation (k : Coef) (x y : Nat) : Prop := y * y ≡ x * x * x + k.a * x + k.b [MOD k.m]

/-- R206's last three checks and its result, once the curve is chosen and checked. -/
def PtNewRule (s : State) (d : QIdx) (a b : RIdx) (sel : BitVec 2) (c : Curve) : Prop :=
  ((s.getR a).t = .raw ∨ (s.getR b).t = .raw → exec (.ptNew d a b sel) s = .next (failed s .operand)) ∧
  (∀ ma mb, s.modof (s.getR a).t = some ma → s.modof (s.getR b).t = some mb →
    (ma ≠ mb ∨ ma ≠ (s.coef c).m → exec (.ptNew d a b sel) s = .next (failed s .fieldMismatch)) ∧
    (ma = mb → ma = (s.coef c).m →
      (¬ CurveEquation (s.coef c) (s.getR a).v.toNat (s.getR b).v.toNat →
        exec (.ptNew d a b sel) s = .next (failed s .notOnCurve)) ∧
      (CurveEquation (s.coef c) (s.getR a).v.toNat (s.getR b).v.toNat →
        exec (.ptNew d a b sel) s = .next (completedQ s d ⟨some c, false, (s.getR a).v, (s.getR b).v⟩))))

end Sys2Proof.Machine

/-- R206 with R200: PT_NEW, its checks in their order, and the point it makes. That `exec` of a select of 2 or 3, which no
word decodes to, records `ILLEGAL` is the model's choice (log entry 7). -/
def Obligations.PtNewChecksCurveEquation : Prop :=
  ∀ (s : State) (d : QIdx) (a b : RIdx) (sel : BitVec 2),
    (sel.toNat < 2 → Encodes (.ptNew d a b sel) 0xFF800BFF 0x22000000) ∧
    PtNewRule s d a b 0 .secp ∧
    ((s.mod.toNat % 2 = 0 ∨ s.mod.toNat < 3) → exec (.ptNew d a b 1) s = .next (failed s .modulus)) ∧
    (s.mod.toNat % 2 = 1 → 3 ≤ s.mod.toNat →
      (s.mod.toNat ≤ s.ca.toNat ∨ s.mod.toNat ≤ s.cb.toNat → exec (.ptNew d a b 1) s = .next (failed s .range)) ∧
      (s.ca.toNat < s.mod.toNat → s.cb.toNat < s.mod.toNat → PtNewRule s d a b 1 .user)) ∧
    (2 ≤ sel.toNat → exec (.ptNew d a b sel) s = .next (failed s .illegal))

/-- R207: PT_ADD's errors, in their order, and the exact cases 1 and 2 of R202, on every curve. -/
def Obligations.PtAddChecksAndIdentities : Prop :=
  ∀ (s : State) (d a b : QIdx),
    Encodes (.ptAdd d a b) 0xFF888FFF 0x23000000 ∧
    ((s.getQ a).c = none ∨ (s.getQ b).c = none → exec (.ptAdd d a b) s = .next (failed s .operand)) ∧
    (∀ c1 c2, (s.getQ a).c = some c1 → (s.getQ b).c = some c2 →
      (s.coef c1 ≠ s.coef c2 → exec (.ptAdd d a b) s = .next (failed s .curveMismatch)) ∧
      (s.coef c1 = s.coef c2 →
        ((s.getQ a).inf = true →
          exec (.ptAdd d a b) s = .next (completedQ s d { s.getQ b with c := some c1 })) ∧
        ((s.getQ a).inf = false → (s.getQ b).inf = true → exec (.ptAdd d a b) s = .next (completedQ s d (s.getQ a))) ∧
        ((s.getQ a).inf = false → (s.getQ b).inf = false → (s.getQ a).x = (s.getQ b).x → (s.getQ a).y ≠ (s.getQ b).y →
          exec (.ptAdd d a b) s = .next (completedQ s d ⟨some c1, true, 0, 0⟩))))

/-- R202, R204, R207: the chord, vertical and tangent cases of PT_ADD on secp256k1 and on a user curve of prime `MOD`. -/
def Obligations.PtAddChordAndTangent : Prop :=
  ∀ (s : State) (d a b : QIdx) (c1 c2 : Curve), (s.getQ a).c = some c1 → (s.getQ b).c = some c2 →
    s.coef c1 = s.coef c2 → (c1 = .secp ∨ s.mod.toNat.Prime) → (s.getQ a).inf = false → (s.getQ b).inf = false →
    let m : Int := (s.coef c1).m
    let x1 : Int := (s.getQ a).x.toNat
    let y1 : Int := (s.getQ a).y.toNat
    let x2 : Int := (s.getQ b).x.toNat
    let y2 : Int := (s.getQ b).y.toNat
    let inv : Int → Int := fun v => (v % m) ^ ((s.coef c1).m - 2) % m
    let done : Int → Int → Prop := fun x3 y3 =>
      exec (.ptAdd d a b) s = .next (completedQ s d
        ⟨some c1, false, BitVec.ofNat 256 x3.toNat, BitVec.ofNat 256 y3.toNat⟩)
    (x1 ≠ x2 →
      let sl := (y2 - y1) * inv (x2 - x1) % m
      let x3 := (sl * sl - x1 - x2) % m
      done x3 ((sl * (x1 - x3) - y1) % m)) ∧
    (x1 = x2 → y1 = y2 → y1 = 0 → exec (.ptAdd d a b) s = .next (completedQ s d ⟨some c1, true, 0, 0⟩)) ∧
    (x1 = x2 → y1 = y2 → y1 ≠ 0 →
      let sl := (3 * x1 * x1 + (s.coef c1).a) * inv (2 * y1) % m
      let x3 := (sl * sl - 2 * x1) % m
      done x3 ((sl * (x1 - x3) - y1) % m))

namespace Sys2Proof.Machine

/-- R208's loop on the binary digits of the scalar, least significant first. -/
def doubleAndAdd (c : Coef) : List Bool → Point → Point → Point
  | [], result, _ => result
  | bit :: more, result, cur => doubleAndAdd c more (if bit then padd c result cur else result) (padd c cur cur)

end Sys2Proof.Machine

/-- R208: the scalar multiplication is double-and-add over the binary digits of `k`, least significant first. -/
def Obligations.ScalarMultipleIsDoubleAndAdd : Prop :=
  ∀ (c : Coef) (k : Nat) (p : Point), smul c k p = doubleAndAdd c k.bits .infinity p

/-- R209, R236: PT_MUL on secp256k1 reduces the signed scalar modulo `N`; on a regular user curve it takes the scalar as
given and refuses a negative one; a zero scalar or the point at infinity gives the point at infinity on every curve. -/
def Obligations.PtMulReducesScalar : Prop :=
  ∀ (s : State) (d : QIdx) (a : RIdx) (b : QIdx) (neg : Bool),
    Encodes (.ptMul d a b neg) 0xFF808DFF 0x24000000 ∧
    ((s.getQ b).c = none → exec (.ptMul d a b neg) s = .next (failed s .operand)) ∧
    ((s.getQ b).c = some .user → exec (.ptMul d a b true) s = .next (failed s .operand)) ∧
    (∀ (c : Curve) (k : Nat) (p : Point), (s.getQ b).c = some c →
      (c = .secp → (k : Int) = (if neg then -((s.getR a).v.toNat : Int) else ((s.getR a).v.toNat : Int)) % (N : Int)) →
      (c = .user → neg = false ∧ k = (s.getR a).v.toNat ∧ s.validmod = true ∧ s.mod.toNat.Prime ∧
        (4 * s.ca.toNat ^ 3 + 27 * s.cb.toNat ^ 2) % s.mod.toNat ≠ 0) →
      p = doubleAndAdd (s.coef c) k.bits ⟨true, 0, 0⟩ ⟨(s.getQ b).inf, (s.getQ b).x.toNat, (s.getQ b).y.toNat⟩ →
      exec (.ptMul d a b neg) s =
        .next (completedQ s d ⟨some c, p.inf, BitVec.ofNat 256 p.x, BitVec.ofNat 256 p.y⟩)) ∧
    (∀ c, (s.getQ b).c = some c → (c = .user → neg = false) →
      ((s.getR a).v = 0 ∨ ((s.getQ b).inf = true ∧ (s.getQ b).x = 0 ∧ (s.getQ b).y = 0)) →
      exec (.ptMul d a b neg) s = .next (completedQ s d ⟨some c, true, 0, 0⟩))

/-- R204: on every curve, what PT_ADD and PT_MUL give, drawn or not, is a point of the operand's curve tag with its
coordinates below the modulus, and nothing else changes. -/
def Obligations.PointResultsStayInBounds : Prop :=
  ∀ (s : State) (d : QIdx) (c : Curve), s.Inv →
    (∀ a b c2, (s.getQ a).c = some c → (s.getQ b).c = some c2 → s.coef c = s.coef c2 →
      ∃ x : PointReg, exec (.ptAdd d a b) s = .next (completedQ s d x) ∧ x.c = some c ∧
        (x.inf = true → x.x = 0 ∧ x.y = 0) ∧
        (x.inf = false → x.x.toNat < (s.coef c).m ∧ x.y.toNat < (s.coef c).m)) ∧
    (∀ a b, (s.getQ b).c = some c →
      ∃ x : PointReg, exec (.ptMul d a b false) s = .next (completedQ s d x) ∧ x.c = some c ∧
        (x.inf = true → x.x = 0 ∧ x.y = 0) ∧
        (x.inf = false → x.x.toNat < (s.coef c).m ∧ x.y.toNat < (s.coef c).m))

/-- R215: the group laws on secp256k1 and on a regular curve: the identity, the inverse and scalar linearity. -/
def Obligations.GroupLaws : Prop :=
  ∀ k : Coef, k.m.Prime → 3 ≤ k.m → (4 * k.a ^ 3 + 27 * k.b ^ 2) % k.m ≠ 0 →
    ∀ p : Point, (p.inf = true → p.x = 0 ∧ p.y = 0) → (p.inf = false → p.x < k.m ∧ p.y < k.m) →
      (p.inf = false → CurveEquation k p.x p.y) →
      padd k p ⟨true, 0, 0⟩ = p ∧
      (p.inf = false → padd k p ⟨false, p.x, (k.m - p.y) % k.m⟩ = ⟨true, 0, 0⟩) ∧
      (∀ i j, smul k (i + j) p = padd k (smul k i p) (smul k j p))

/-- R210, R211: PT_EQ and PT_ISINF. -/
def Obligations.PointTests : Prop :=
  ∀ (s : State) (a b : QIdx),
    (Encodes (.ptEq a b) 0xFFF88FFF 0x25000000 ∧ Encodes (.ptIsInf a) 0xFFF8FFFF 0x26000000) ∧
    ((s.getQ a).c = none ∨ (s.getQ b).c = none → exec (.ptEq a b) s = .next (failed s .operand)) ∧
    (∀ c1 c2, (s.getQ a).c = some c1 → (s.getQ b).c = some c2 →
      exec (.ptEq a b) s = .next (completedT s (decide (s.coef c1 = s.coef c2 ∧ (s.getQ a).inf = (s.getQ b).inf ∧
        (s.getQ a).x = (s.getQ b).x ∧ (s.getQ a).y = (s.getQ b).y)))) ∧
    ((s.getQ a).c = none → exec (.ptIsInf a) s = .next (failed s .operand)) ∧
    (∀ c, (s.getQ a).c = some c → exec (.ptIsInf a) s = .next (completedT s (s.getQ a).inf))

/-- R212, R213, R214: PT_GETX, PT_GETY and PT_MOV. -/
def Obligations.PointExtraction : Prop :=
  ∀ (s : State) (d : RIdx) (q a : QIdx),
    (Encodes (.ptGetX d a) 0xFF08FFFF 0x27000000 ∧ Encodes (.ptGetY d a) 0xFF08FFFF 0x28000000 ∧
      Encodes (.ptMov q a) 0xFF88FFFF 0x29000000) ∧
    ((s.getQ a).c = none →
      exec (.ptGetX d a) s = .next (failed s .operand) ∧ exec (.ptGetY d a) s = .next (failed s .operand)) ∧
    (∀ c, (s.getQ a).c = some c →
      ((s.getQ a).inf = true →
        exec (.ptGetX d a) s = .next (failed s .infinity) ∧ exec (.ptGetY d a) s = .next (failed s .infinity)) ∧
      ((s.getQ a).inf = false →
        exec (.ptGetX d a) s = .next (completedR s d (s.getQ a).x (if c = .secp then .p else .m)) ∧
        exec (.ptGetY d a) s = .next (completedR s d (s.getQ a).y (if c = .secp then .p else .m)))) ∧
    exec (.ptMov q a) s = .next (completedQ s q (s.getQ a))

/-! ## The secp256k1 point unit (43_secp256k1.md) -/

/-- R234: PT_GEN loads the generator, which is on the curve. -/
def Obligations.PtGenLoadsGenerator : Prop :=
  ∀ (s : State) (d : QIdx),
    Encodes (.ptGen d) 0xFF8FFFFF 0x21000000 ∧
    exec (.ptGen d) s = .next (completedQ s d ⟨some .secp, false,
      0x79BE667EF9DCBBAC55A06295CE870B07029BFCDB2DCE28D959F2815B16F81798,
      0x483ADA7726A3C4655DA4FBFC0E1108A8FD17B448A68554199C47D08FFB10D4B8⟩) ∧
    CurveEquation ⟨0, 7, P⟩ Gx Gy

/-- R233: FE_SQRT is the power to `(P+1)/4`, for the modulus `P` only, and a root of every square; for a non-residue it
squares to `-a`. -/
def Obligations.FeSqrtOfSquare : Prop :=
  ∀ (s : State) (d a : RIdx),
    Encodes (.feSqrt d a) 0xFF00FFFF 0x18000000 ∧
    ((s.getR a).t = .raw → exec (.feSqrt d a) s = .next (failed s .operand)) ∧
    (∀ m, s.modof (s.getR a).t = some m → m ≠ P → exec (.feSqrt d a) s = .next (failed s .operand)) ∧
    (s.modof (s.getR a).t = some P →
      ∃ v, exec (.feSqrt d a) s = .next (completedR s d (BitVec.ofNat 256 v) (s.getR a).t) ∧
        v = (s.getR a).v.toNat ^ ((P + 1) / 4) % P ∧
        (∀ u, (s.getR a).v.toNat = u * u % P → v * v % P = (s.getR a).v.toNat) ∧
        (v * v % P = (s.getR a).v.toNat % P ∨ (v * v + (s.getR a).v.toNat) % P = 0))

/-- R235: PT_DESER's checks in their order, and the point of an uncompressed encoding. -/
def Obligations.PtDeserChecks : Prop :=
  ∀ (s : State) (d : QIdx) (a b : RIdx) (pfx : BitVec 8),
    Encodes (.ptDeser d a b pfx) 0xFF800F00 0x2A000000 ∧
    (pfx.toNat ≠ 2 → pfx.toNat ≠ 3 → pfx.toNat ≠ 4 → exec (.ptDeser d a b pfx) s = .next (failed s .format)) ∧
    (pfx.toNat = 2 ∨ pfx.toNat = 3 ∨ pfx.toNat = 4 → P ≤ (s.getR a).v.toNat →
      exec (.ptDeser d a b pfx) s = .next (failed s .range)) ∧
    ((s.getR a).v.toNat < P → P ≤ (s.getR b).v.toNat → exec (.ptDeser d a b 4) s = .next (failed s .range)) ∧
    ((s.getR a).v.toNat < P → (s.getR b).v.toNat < P →
      (¬ CurveEquation ⟨0, 7, P⟩ (s.getR a).v.toNat (s.getR b).v.toNat →
        exec (.ptDeser d a b 4) s = .next (failed s .notOnCurve)) ∧
      (CurveEquation ⟨0, 7, P⟩ (s.getR a).v.toNat (s.getR b).v.toNat →
        exec (.ptDeser d a b 4) s = .next (completedQ s d ⟨some .secp, false, (s.getR a).v, (s.getR b).v⟩))) ∧
    ((s.getR a).v.toNat < P →
      (¬ ∃ y, CurveEquation ⟨0, 7, P⟩ (s.getR a).v.toNat y) →
      exec (.ptDeser d a b 2) s = .next (failed s .notOnCurve) ∧
      exec (.ptDeser d a b 3) s = .next (failed s .notOnCurve))

/-- R235, R75: the SEC round trip: the x coordinate of a point of secp256k1 and the parity of its y give the point back. -/
def Obligations.SecRoundTrip : Prop :=
  ∀ (s : State) (d : QIdx) (a b : RIdx) (y : Word256), (s.getR a).v.toNat < P → y.toNat < P →
    CurveEquation ⟨0, 7, P⟩ (s.getR a).v.toNat y.toNat →
    exec (.ptDeser d a b (if y.toNat % 2 = 0 then 0x02 else 0x03)) s =
      .next (completedQ s d ⟨some .secp, false, (s.getR a).v, y⟩)
end

