-- ==== Sys2Proof/Laws/Arith.lean ====
section
/-! SUPPORT. What the arithmetic operations compute: `imod` is reduction of an integer (00_scope.md R11), `powmod` is
the power reduced (R12), and trial division decides primality. -/

namespace Sys2Proof.Machine

/-! ### Reduction -/

theorem imod_lt (z : Int) {m : Nat} (hm : 0 < m) : imod z m < m := by
  have h0 := Int.emod_nonneg z (by omega : (m : Int) ≠ 0)
  have h1 := Int.emod_lt_of_pos z (by omega : 0 < (m : Int))
  simp only [imod]; omega

theorem imod_cast (z : Int) {m : Nat} (hm : 0 < m) : ((imod z m : Nat) : Int) = z % (m : Int) :=
  Int.toNat_of_nonneg (Int.emod_nonneg z (by omega))

theorem imod_natCast (a m : Nat) : imod (a : Int) m = a % m := rfl

/-- `imod` as an element of the residue ring. -/
theorem imod_zmod (z : Int) {m : Nat} (hm : 0 < m) : ((imod z m : Nat) : ZMod m) = (z : ZMod m) := by
  have h : (((imod z m : Nat) : Int) : ZMod m) = ((z % (m : Int) : Int) : ZMod m) := by rw [imod_cast z hm]
  simpa [ZMod.intCast_mod] using h

theorem imod_eq_zero_iff (z : Int) {m : Nat} (hm : 0 < m) : imod z m = 0 ↔ (z : ZMod m) = 0 := by
  rw [ZMod.intCast_zmod_eq_zero_iff_dvd, Int.dvd_iff_emod_eq_zero, ← imod_cast z hm]
  omega

/-! ### Exponentiation -/

theorem powmodFuel_eq (fuel a e m : Nat) (h : e < 2 ^ fuel) : powmodFuel fuel a e m = a ^ e % m := by
  induction fuel generalizing e with
  | zero => obtain rfl : e = 0 := by simpa using h
            rfl
  | succ n ih =>
    rw [powmodFuel]
    split
    · subst e; simp
    · have hh := ih (e / 2) (by rw [pow_succ] at h; omega)
      have hsq : a ^ (e / 2) % m * (a ^ (e / 2) % m) % m ≡ a ^ (2 * (e / 2)) [MOD m] := by
        rw [two_mul, pow_add]
        exact (Nat.mod_modEq _ _).trans ((Nat.mod_modEq _ _).mul (Nat.mod_modEq _ _))
      simp only [hh]
      split
      · have hodd : e = 2 * (e / 2) + 1 := by omega
        conv_rhs => rw [hodd, pow_succ]
        exact hsq.mul_right a
      · have heven : e = 2 * (e / 2) := by omega
        conv_rhs => rw [heven]
        exact (Nat.mod_mod _ _).symm.trans hsq

/-- `powmod` is the power, reduced (R12). -/
theorem powmod_eq (a e m : Nat) : powmod a e m = a ^ e % m :=
  powmodFuel_eq _ a e m (Nat.lt_log2_self)

/-- The Fermat inverse is the power to `m - 2`, reduced (R12). -/
theorem finv_eq (b m : Nat) : finv b m = b ^ (m - 2) % m := powmod_eq b (m - 2) m

theorem powmod_lt (a e : Nat) {m : Nat} (hm : 0 < m) : powmod a e m < m := by
  rw [powmod_eq]; exact Nat.mod_lt _ hm

theorem finv_lt (b : Nat) {m : Nat} (hm : 0 < m) : finv b m < m := powmod_lt b (m - 2) hm

theorem finv_zmod (b m : Nat) : ((finv b m : Nat) : ZMod m) = (b : ZMod m) ^ (m - 2) := by
  rw [finv_eq, ZMod.natCast_mod, Nat.cast_pow]

/-- For a prime modulus the Fermat inverse is the inverse of the field, 0 for 0. -/
theorem finv_zmod_inv (b m : Nat) (hm : m.Prime) (h3 : 3 ≤ m) :
    ((finv b m : Nat) : ZMod m) = (b : ZMod m)⁻¹ := by
  have := Fact.mk hm
  rw [finv_zmod]
  by_cases hb : (b : ZMod m) = 0
  · rw [hb, inv_zero, zero_pow (by omega)]
  · apply eq_inv_of_mul_eq_one_left
    rw [← pow_succ, show m - 2 + 1 = m - 1 by omega, ZMod.pow_card_sub_one_eq_one hb]

/-! ### Trial division -/

theorem noDivisorFrom_iff (m fuel d : Nat) (hf : m < fuel + d) (hd : 2 ≤ d) :
    noDivisorFrom m fuel d = true ↔ ∀ k, d ≤ k → k * k ≤ m → ¬ k ∣ m := by
  induction fuel generalizing d with
  | zero =>
    simp only [noDivisorFrom, true_iff]
    intro k hk hkk
    nlinarith
  | succ n ih =>
    rw [noDivisorFrom]
    split
    · rename_i h
      simp only [true_iff]
      intro k hk hkk
      nlinarith
    · rename_i h
      split
      · rename_i h0
        simp only [Bool.false_eq_true, false_iff, not_forall]
        exact ⟨d, le_refl d, by omega, not_not.mpr (Nat.dvd_of_mod_eq_zero h0)⟩
      · rename_i h0
        rw [ih (d + 1) (by omega) (by omega)]
        constructor
        · intro hk k hdk hkk
          rcases Nat.lt_or_ge d k with h1 | h1
          · exact hk k h1 hkk
          · obtain rfl : k = d := by omega
            exact fun hdvd => h0 (Nat.mod_eq_zero_of_dvd hdvd)
        · exact fun hk k hdk hkk => hk k (by omega) hkk

theorem trialDivision_iff (m : Nat) : (decide (2 ≤ m) && noDivisorFrom m m 2) = true ↔ m.Prime := by
  rw [Bool.and_eq_true, decide_eq_true_iff, noDivisorFrom_iff m m 2 (by omega) (le_refl 2)]
  constructor
  · rintro ⟨h2, hk⟩
    rw [Nat.prime_def_le_sqrt]
    exact ⟨h2, fun k h2k hk' => hk k h2k (by have := Nat.sqrt_le m; nlinarith)⟩
  · intro hp
    exact ⟨hp.two_le, fun k h2k hkk hdvd => (Nat.prime_def_le_sqrt.mp hp).2 k h2k (Nat.le_sqrt.mpr hkk) hdvd⟩

end Sys2Proof.Machine
end

