-- ==== Sys2Proof/Laws/Primality.lean ====
section
/-! SUPPORT. `P` and `N` are prime, by Pratt certificates (Lucas's test over the factors of the number less one), so the
primality test of Machine/Arith.lean decides primality. -/

namespace Sys2Proof.Machine

set_option Elab.async false

/-- Lucas's test, given the prime factors of `p - 1` and the powers as `powmod` computes them. -/
theorem prime_of_factors (p a : Nat) (fs : List Nat) (hfs : ∀ q ∈ fs, q.Prime) (hprod : fs.prod = p - 1) (hp : 1 < p)
    (h1 : powmod a (p - 1) p = 1) (h2 : ∀ q ∈ fs, powmod a ((p - 1) / q) p ≠ 1) : p.Prime := by
  have key : ∀ e, (a : ZMod p) ^ e = 1 ↔ powmod a e p = 1 := by
    intro e
    rw [powmod_eq, ← Nat.cast_pow, ← Nat.cast_one, ZMod.natCast_eq_natCast_iff', Nat.mod_eq_of_lt hp]
  refine lucas_primality p (a : ZMod p) ((key _).mpr h1) fun q hq hdvd h => ?_
  obtain ⟨f, hf, hqf⟩ := (Prime.dvd_prod_iff hq.prime).mp (hprod ▸ hdvd)
  obtain rfl : q = f := (Nat.prime_dvd_prime_iff_eq hq (hfs f hf)).mp hqf
  exact h2 q hf ((key _).mp h)

theorem prime_1206781 : Nat.Prime 1206781 := by norm_num

theorem prime_1627771 : Nat.Prime 1627771 := by norm_num

theorem prime_4681609 : Nat.Prime 4681609 := by norm_num

theorem prime_7240687 : Nat.Prime 7240687 := by norm_num

theorem prime_13331831 : Nat.Prime 13331831 := by norm_num

theorem prime_44706919 : Nat.Prime 44706919 := by norm_num

theorem prime_107590001 : Nat.Prime 107590001 :=
  prime_of_factors 107590001 3 [2, 2, 2, 2, 5, 5, 5, 5, 7, 29, 53]
    (by
      intro q hq
      fin_cases hq
      · norm_num
      · norm_num
      · norm_num
      · norm_num
      · norm_num
      · norm_num
      · norm_num
      · norm_num
      · norm_num
      · norm_num
      · norm_num)
    (by decide +kernel) (by decide +kernel) (by decide +kernel) (by decide +kernel)

theorem prime_545358713 : Nat.Prime 545358713 :=
  prime_of_factors 545358713 5 [2, 2, 2, 41, 59, 28181]
    (by
      intro q hq
      fin_cases hq
      · norm_num
      · norm_num
      · norm_num
      · norm_num
      · norm_num
      · norm_num)
    (by decide +kernel) (by decide +kernel) (by decide +kernel) (by decide +kernel)

theorem prime_297159362677 : Nat.Prime 297159362677 :=
  prime_of_factors 297159362677 2 [2, 2, 3, 3, 11, 461, 1627771]
    (by
      intro q hq
      fin_cases hq
      · norm_num
      · norm_num
      · norm_num
      · norm_num
      · norm_num
      · norm_num
      · exact prime_1627771)
    (by decide +kernel) (by decide +kernel) (by decide +kernel) (by decide +kernel)

theorem prime_107361793816595537 : Nat.Prime 107361793816595537 :=
  prime_of_factors 107361793816595537 3 [2, 2, 2, 2, 16699, 85831, 4681609]
    (by
      intro q hq
      fin_cases hq
      · norm_num
      · norm_num
      · norm_num
      · norm_num
      · norm_num
      · norm_num
      · exact prime_4681609)
    (by decide +kernel) (by decide +kernel) (by decide +kernel) (by decide +kernel)

theorem prime_173378833005251801 : Nat.Prime 173378833005251801 :=
  prime_of_factors 173378833005251801 6 [2, 2, 2, 5, 5, 2621, 24809, 13331831]
    (by
      intro q hq
      fin_cases hq
      · norm_num
      · norm_num
      · norm_num
      · norm_num
      · norm_num
      · norm_num
      · norm_num
      · exact prime_13331831)
    (by decide +kernel) (by decide +kernel) (by decide +kernel) (by decide +kernel)

theorem prime_174723607534414371449 : Nat.Prime 174723607534414371449 :=
  prime_of_factors 174723607534414371449 3 [2, 2, 2, 17, 59, 4051, 120233, 44706919]
    (by
      intro q hq
      fin_cases hq
      · norm_num
      · norm_num
      · norm_num
      · norm_num
      · norm_num
      · norm_num
      · norm_num
      · exact prime_44706919)
    (by decide +kernel) (by decide +kernel) (by decide +kernel) (by decide +kernel)

theorem prime_22149492674086928081353 : Nat.Prime 22149492674086928081353 :=
  prime_of_factors 22149492674086928081353 5 [2, 2, 2, 3, 5323, 173378833005251801]
    (by
      intro q hq
      fin_cases hq
      · norm_num
      · norm_num
      · norm_num
      · norm_num
      · norm_num
      · exact prime_173378833005251801)
    (by decide +kernel) (by decide +kernel) (by decide +kernel) (by decide +kernel)

theorem prime_132896956044521568488119 : Nat.Prime 132896956044521568488119 :=
  prime_of_factors 132896956044521568488119 6 [2, 3, 22149492674086928081353]
    (by
      intro q hq
      fin_cases hq
      · norm_num
      · norm_num
      · exact prime_22149492674086928081353)
    (by decide +kernel) (by decide +kernel) (by decide +kernel) (by decide +kernel)

theorem prime_29047611873442575647497758179 : Nat.Prime 29047611873442575647497758179 :=
  prime_of_factors 29047611873442575647497758179 2 [2, 293, 305873, 545358713, 297159362677]
    (by
      intro q hq
      fin_cases hq
      · norm_num
      · norm_num
      · norm_num
      · exact prime_545358713
      · exact prime_297159362677)
    (by decide +kernel) (by decide +kernel) (by decide +kernel) (by decide +kernel)

theorem prime_341948486974166000522343609283189 : Nat.Prime 341948486974166000522343609283189 :=
  prime_of_factors 341948486974166000522343609283189 2 [2, 2, 3, 3, 3, 109, 29047611873442575647497758179]
    (by
      intro q hq
      fin_cases hq
      · norm_num
      · norm_num
      · norm_num
      · norm_num
      · norm_num
      · norm_num
      · exact prime_29047611873442575647497758179)
    (by decide +kernel) (by decide +kernel) (by decide +kernel) (by decide +kernel)

theorem prime_255515944373312847190720520512484175977 : Nat.Prime 255515944373312847190720520512484175977 :=
  prime_of_factors 255515944373312847190720520512484175977 3
    [2, 2, 2, 7, 7, 11, 1627, 2657, 4423, 41201, 96557, 7240687, 107590001]
    (by
      intro q hq
      fin_cases hq
      · norm_num
      · norm_num
      · norm_num
      · norm_num
      · norm_num
      · norm_num
      · norm_num
      · norm_num
      · norm_num
      · norm_num
      · norm_num
      · exact prime_7240687
      · exact prime_107590001)
    (by decide +kernel) (by decide +kernel) (by decide +kernel) (by decide +kernel)

theorem prime_205115282021455665897114700593932402728804164701536103180137503955397371 : Nat.Prime 205115282021455665897114700593932402728804164701536103180137503955397371 :=
  prime_of_factors 205115282021455665897114700593932402728804164701536103180137503955397371 10
    [2, 3, 5, 29, 29, 31, 7723, 132896956044521568488119, 255515944373312847190720520512484175977]
    (by
      intro q hq
      fin_cases hq
      · norm_num
      · norm_num
      · norm_num
      · norm_num
      · norm_num
      · norm_num
      · norm_num
      · exact prime_132896956044521568488119
      · exact prime_255515944373312847190720520512484175977)
    (by decide +kernel) (by decide +kernel) (by decide +kernel) (by decide +kernel)

theorem prime_N : Nat.Prime N :=
  prime_of_factors N 7
    [2, 2, 2, 2, 2, 2, 3, 149, 631, 107361793816595537, 174723607534414371449, 341948486974166000522343609283189]
    (by
      intro q hq
      fin_cases hq
      · norm_num
      · norm_num
      · norm_num
      · norm_num
      · norm_num
      · norm_num
      · norm_num
      · norm_num
      · norm_num
      · exact prime_107361793816595537
      · exact prime_174723607534414371449
      · exact prime_341948486974166000522343609283189)
    (by decide +kernel) (by decide +kernel) (by decide +kernel) (by decide +kernel)

theorem prime_P : Nat.Prime P :=
  prime_of_factors P 3
    [2, 3, 7, 13441, 205115282021455665897114700593932402728804164701536103180137503955397371]
    (by
      intro q hq
      fin_cases hq
      · norm_num
      · norm_num
      · norm_num
      · norm_num
      · exact prime_205115282021455665897114700593932402728804164701536103180137503955397371)
    (by decide +kernel) (by decide +kernel) (by decide +kernel) (by decide +kernel)

/-- The primality test decides primality. -/
theorem isPrime_iff (m : Nat) : isPrime m = true ↔ m.Prime := by
  rw [isPrime, Bool.or_eq_true, Bool.or_eq_true, trialDivision_iff, beq_iff_eq, beq_iff_eq]
  constructor
  · rintro ((rfl | rfl) | h)
    · exact prime_P
    · exact prime_N
    · exact h
  · exact Or.inr

end Sys2Proof.Machine
end

