-- ==== Sys2Proof/Laws/Group.lean ====
section
/-! SUPPORT. The group law and the scalar multiplication: what they leave in range, that they stay on the curve over a
prime field, and that the double-and-add loop does not depend on its fuel. -/

namespace Sys2Proof.Machine

/-! ### Canonical points -/

/-- A point in the form a register holds: zero coordinates at infinity, coordinates below the modulus otherwise
(10_state.md R35). -/
def Point.Canonical (m : Nat) (p : Point) : Prop :=
  (p.inf = true → p.x = 0 ∧ p.y = 0) ∧ (p.inf = false → p.x < m ∧ p.y < m)

theorem infinity_canonical (m : Nat) : Point.infinity.Canonical m := ⟨fun _ => ⟨rfl, rfl⟩, fun h => by cases h⟩

theorem canonical_pos {m : Nat} {p : Point} (h : p.Canonical m) (hi : p.inf = false) : 0 < m := by
  have := (h.2 hi).1; omega

theorem chord_canonical {m : Nat} (hm : 0 < m) (p1 p2 : Point) : (chord m p1 p2).Canonical m :=
  ⟨fun h => (by cases h), fun _ => ⟨imod_lt _ hm, imod_lt _ hm⟩⟩

theorem tangent_canonical {m a : Nat} (hm : 0 < m) (p1 : Point) : (tangent m a p1).Canonical m :=
  ⟨fun h => (by cases h), fun _ => ⟨imod_lt _ hm, imod_lt _ hm⟩⟩

theorem padd_canonical {k : Coef} {p1 p2 : Point} (h1 : p1.Canonical k.m) (h2 : p2.Canonical k.m) :
    (padd k p1 p2).Canonical k.m := by
  unfold padd
  split
  · exact h2
  · rename_i hi
    have hm := canonical_pos h1 (by simpa using hi)
    repeat' split
    · exact h1
    · exact infinity_canonical _
    · exact chord_canonical hm _ _
    · exact infinity_canonical _
    · exact tangent_canonical hm _

theorem smulLoop_canonical {c : Coef} (fuel k : Nat) {r p : Point} (hr : r.Canonical c.m) (hp : p.Canonical c.m) :
    (smulLoop c fuel k r p).Canonical c.m := by
  induction fuel generalizing k r p with
  | zero => exact hr
  | succ n ih =>
    rw [smulLoop]
    split
    · exact hr
    · refine ih _ ?_ (padd_canonical hp hp)
      split
      · exact padd_canonical hr hp
      · exact hr

theorem smul_canonical {c : Coef} (k : Nat) {p : Point} (hp : p.Canonical c.m) : (smul c k p).Canonical c.m :=
  smulLoop_canonical _ k (infinity_canonical _) hp

/-- A drawn result keeps the bounds of 42_curve.md R204. -/
theorem drawn_canonical {s : State} (hm : 0 < s.mod.toNat) : s.drawn.Canonical s.mod.toNat := by
  simp only [State.drawn]
  split
  · exact infinity_canonical _
  · exact ⟨fun h => (by cases h), fun _ => ⟨Nat.mod_lt _ hm, Nat.mod_lt _ hm⟩⟩

/-! ### The curve equation over a prime field -/

/-- A point is at infinity or meets the curve equation. -/
def Point.OnCurve (k : Coef) (p : Point) : Prop := p.inf = false → onCurve k p.x p.y = true

theorem infinity_onCurve (k : Coef) : Point.infinity.OnCurve k := fun h => by cases h

/-- The check of the curve equation, in the field. -/
theorem onCurve_iff {k : Coef} (hm : 0 < k.m) (x y : Nat) :
    onCurve k x y = true ↔ (y : ZMod k.m) ^ 2 = (x : ZMod k.m) ^ 3 + k.a * x + k.b := by
  rw [onCurve, decide_eq_true_iff, imod_eq_zero_iff _ hm]
  push_cast
  rw [sub_eq_zero]
  constructor <;> intro h <;> linear_combination h

section Field
variable {F : Type} [Field F]

/-- The third point of a chord is on the curve. -/
theorem chord_equation {a b x1 y1 x2 y2 sl x3 y3 : F} (h1 : y1 ^ 2 = x1 ^ 3 + a * x1 + b)
    (h2 : y2 ^ 2 = x2 ^ 3 + a * x2 + b) (hx : x2 - x1 ≠ 0) (hs : sl * (x2 - x1) = y2 - y1)
    (hx3 : x3 = sl * sl - x1 - x2) (hy3 : y3 = sl * (x1 - x3) - y1) : y3 ^ 2 = x3 ^ 3 + a * x3 + b := by
  have hy2 : y2 = y1 + sl * (x2 - x1) := by rw [hs]; ring
  subst hy2 hx3 hy3
  have key : 2 * sl * y1 + sl ^ 2 * (x2 - x1) = x1 ^ 2 + x1 * x2 + x2 ^ 2 + a := by
    apply mul_left_cancel₀ hx
    linear_combination h2 - h1
  linear_combination h1 + (sl * sl - x1 - x2 - x1) * key

/-- The third point of a tangent is on the curve. -/
theorem tangent_equation {a b x1 y1 sl x3 y3 : F} (h1 : y1 ^ 2 = x1 ^ 3 + a * x1 + b)
    (hs : sl * (2 * y1) = 3 * x1 * x1 + a) (hx3 : x3 = sl * sl - 2 * x1) (hy3 : y3 = sl * (x1 - x3) - y1) :
    y3 ^ 2 = x3 ^ 3 + a * x3 + b := by
  subst hx3 hy3
  linear_combination h1 + (sl * sl - 2 * x1 - x1) * hs

end Field

/-- The coordinates of a chord's third point, in the field. -/
theorem chord_zmod {m : Nat} (hm : m.Prime) (h3 : 3 ≤ m) (p1 p2 : Point) :
    ∃ sl : ZMod m, sl = (p2.y - p1.y) * ((p2.x : ZMod m) - p1.x)⁻¹ ∧
      ((chord m p1 p2).x : ZMod m) = sl * sl - p1.x - p2.x ∧
      ((chord m p1 p2).y : ZMod m) = sl * (p1.x - (chord m p1 p2).x) - p1.y := by
  have h0 : 0 < m := by omega
  refine ⟨_, rfl, ?_, ?_⟩ <;>
    simp only [chord, thirdPoint, imod_zmod _ h0, finv_zmod_inv _ _ hm h3, Int.cast_sub, Int.cast_mul,
      Int.cast_natCast]

/-- The coordinates of a tangent's third point, in the field. -/
theorem tangent_zmod {m : Nat} (hm : m.Prime) (h3 : 3 ≤ m) (a : Nat) (p1 : Point) :
    ∃ sl : ZMod m, sl = (3 * p1.x * p1.x + a) * (2 * (p1.y : ZMod m))⁻¹ ∧
      ((tangent m a p1).x : ZMod m) = sl * sl - 2 * p1.x ∧
      ((tangent m a p1).y : ZMod m) = sl * (p1.x - (tangent m a p1).x) - p1.y := by
  have h0 : 0 < m := by omega
  refine ⟨_, rfl, ?_, ?_⟩ <;>
    simp only [tangent, thirdPoint, imod_zmod _ h0, finv_zmod_inv _ _ hm h3, Int.cast_sub, Int.cast_mul, Int.cast_add,
      Int.cast_natCast, Int.cast_ofNat]

/-- Two numbers below the modulus that are equal in the residue ring are equal. -/
theorem eq_of_zmod_eq {m x y : Nat} (hx : x < m) (hy : y < m) (h : (x : ZMod m) = y) : x = y := by
  have := (ZMod.natCast_eq_natCast_iff' x y m).mp h
  rwa [Nat.mod_eq_of_lt hx, Nat.mod_eq_of_lt hy] at this

/-- Addition stays on the curve over a prime field. -/
theorem padd_onCurve {k : Coef} {p1 p2 : Point} (hm : k.m.Prime) (h3 : 3 ≤ k.m) (c1 : p1.Canonical k.m)
    (c2 : p2.Canonical k.m) (h1 : p1.OnCurve k) (h2 : p2.OnCurve k) : (padd k p1 p2).OnCurve k := by
  have h0 : 0 < k.m := by omega
  have := Fact.mk hm
  unfold padd
  split
  · exact h2
  rename_i hi1
  split
  · exact h1
  rename_i hi2
  have hi1 : p1.inf = false := by simpa using hi1
  have hi2 : p2.inf = false := by simpa using hi2
  split
  · exact infinity_onCurve k
  rename_i hinv
  have e1 := (onCurve_iff h0 _ _).mp (h1 hi1)
  have e2 := (onCurve_iff h0 _ _).mp (h2 hi2)
  split
  · rename_i hx
    obtain ⟨sl, hs, hx3, hy3⟩ := chord_zmod hm h3 p1 p2
    have hne : (p2.x : ZMod k.m) - p1.x ≠ 0 := fun h =>
      hx (eq_of_zmod_eq (c1.2 hi1).1 (c2.2 hi2).1 (sub_eq_zero.mp h).symm)
    refine fun _ => (onCurve_iff h0 _ _).mpr (chord_equation e1 e2 hne ?_ hx3 hy3)
    rw [hs, inv_mul_cancel_right₀ hne]
  · split
    · exact infinity_onCurve k
    · rename_i hy
      obtain ⟨sl, hs, hx3, hy3⟩ := tangent_zmod hm h3 k.a p1
      have hy0 : (p1.y : ZMod k.m) ≠ 0 := fun h =>
        hy (eq_of_zmod_eq (c1.2 hi1).2 h0 (by simpa using h))
      have h2 : (2 : ZMod k.m) ≠ 0 := by
        have h := eq_of_zmod_eq (m := k.m) (x := 2) (y := 0) (by omega) h0
        intro e
        exact absurd (h (by simpa using e)) (by decide)
      refine fun _ => (onCurve_iff h0 _ _).mpr (tangent_equation e1 ?_ hx3 hy3)
      rw [hs, inv_mul_cancel_right₀ (mul_ne_zero h2 hy0)]

theorem smulLoop_onCurve {c : Coef} (hm : c.m.Prime) (h3 : 3 ≤ c.m) (fuel k : Nat) {r p : Point}
    (cr : r.Canonical c.m) (cp : p.Canonical c.m) (hr : r.OnCurve c) (hp : p.OnCurve c) :
    (smulLoop c fuel k r p).OnCurve c := by
  induction fuel generalizing k r p with
  | zero => exact hr
  | succ n ih =>
    rw [smulLoop]
    split
    · exact hr
    · refine ih _ ?_ (padd_canonical cp cp) ?_ (padd_onCurve hm h3 cp cp hp hp)
      · split
        · exact padd_canonical cr cp
        · exact cr
      · split
        · exact padd_onCurve hm h3 cr cp hr hp
        · exact hr

/-- Multiples stay on the curve over a prime field. -/
theorem smul_onCurve {c : Coef} (hm : c.m.Prime) (h3 : 3 ≤ c.m) (k : Nat) {p : Point} (cp : p.Canonical c.m)
    (hp : p.OnCurve c) : (smul c k p).OnCurve c :=
  smulLoop_onCurve hm h3 _ k (infinity_canonical _) cp (infinity_onCurve c) hp

/-! ### The loop -/

/-- Enough fuel is as good as any other. -/
theorem smulLoop_fuel (c : Coef) (f g k : Nat) (r p : Point) (hf : k < 2 ^ f) (hg : k < 2 ^ g) :
    smulLoop c f k r p = smulLoop c g k r p := by
  induction f generalizing g k r p with
  | zero =>
    obtain rfl : k = 0 := by simpa using hf
    cases g <;> simp [smulLoop]
  | succ n ih =>
    cases g with
    | zero =>
      obtain rfl : k = 0 := by simpa using hg
      simp [smulLoop]
    | succ g =>
      rw [smulLoop, smulLoop]
      split
      · rfl
      · exact ih g (k / 2) _ _ (by rw [pow_succ] at hf; omega) (by rw [pow_succ] at hg; omega)

theorem smul_zero (c : Coef) (p : Point) : smul c 0 p = .infinity := rfl

/-! ### The constants -/

theorem P_ge_three : 3 ≤ P := by decide

/-- The generator is on the curve (43_secp256k1.md R232). -/
theorem generator_onCurve : onCurve ⟨0, 7, P⟩ Gx Gy = true := by decide

end Sys2Proof.Machine
end

