-- ==== Sys2Proof/Laws/Affine.lean ====
section
/-! SUPPORT. The points of a regular curve and Mathlib's group of a Weierstrass curve: `padd` is its addition and the
double-and-add loop its multiples, so its laws are laws of the engine's points. -/

namespace Sys2Proof.Machine

/-- The curve `y^2 = x^3 + a x + b` over the integers modulo `m`. -/
def Coef.curve (k : Coef) : WeierstrassCurve.Affine (ZMod k.m) := ⟨0, 0, 0, k.a, k.b⟩

/-- The engine's point `p` stands for the point `q` of the curve. -/
def Represents (k : Coef) (p : Point) (q : k.curve.Point) : Prop :=
  match q with
  | .zero => p = .infinity
  | .some x y _ => p.inf = false ∧ p.x < k.m ∧ p.y < k.m ∧ (p.x : ZMod k.m) = x ∧ (p.y : ZMod k.m) = y

theorem infinity_represents (k : Coef) : Represents k .infinity .zero := rfl

/-- A point of the curve is represented by one point of the engine. -/
theorem represents_unique {k : Coef} {p p' : Point} {q : k.curve.Point} (h : Represents k p q)
    (h' : Represents k p' q) : p = p' := by
  cases q with
  | zero => exact Eq.trans h (Eq.symm h')
  | some x y hn =>
    obtain ⟨i, hx, hy, ex, ey⟩ := h
    obtain ⟨i', hx', hy', ex', ey'⟩ := h'
    obtain ⟨inf, px, py⟩ := p
    obtain ⟨inf', px', py'⟩ := p'
    simp only at i hx hy ex ey i' hx' hy' ex' ey'
    subst i i'
    rw [eq_of_zmod_eq hx hx' (ex.trans ex'.symm), eq_of_zmod_eq hy hy' (ey.trans ey'.symm)]

/-- Over a regular curve every point on it is nonsingular. -/
theorem nonsingular_of_equation {k : Coef} (hm : k.m.Prime) (h3 : 3 ≤ k.m)
    (hd : (4 * k.a ^ 3 + 27 * k.b ^ 2) % k.m ≠ 0) {x y : ZMod k.m}
    (h : y ^ 2 = x ^ 3 + k.a * x + k.b) : k.curve.Nonsingular x y := by
  have := Fact.mk hm
  have h2 : (2 : ZMod k.m) ≠ 0 := by
    have h := eq_of_zmod_eq (m := k.m) (x := 2) (y := 0) (by omega) (by omega)
    intro e
    exact absurd (h (by simpa using e)) (by decide)
  have hdisc : (4 * (k.a : ZMod k.m) ^ 3 + 27 * (k.b : ZMod k.m) ^ 2) ≠ 0 := by
    intro e
    apply hd
    have : ((4 * k.a ^ 3 + 27 * k.b ^ 2 : Nat) : ZMod k.m) = 0 := by push_cast; exact e
    exact Nat.mod_eq_zero_of_dvd ((ZMod.natCast_eq_zero_iff _ _).mp this)
  have hdelta : k.curve.Δ = -(2 ^ 4) * (4 * (k.a : ZMod k.m) ^ 3 + 27 * (k.b : ZMod k.m) ^ 2) := by
    simp only [Coef.curve, WeierstrassCurve.Δ, WeierstrassCurve.b₂, WeierstrassCurve.b₄, WeierstrassCurve.b₆,
      WeierstrassCurve.b₈]
    ring
  refine (WeierstrassCurve.Affine.equation_iff_nonsingular_of_Δ_ne_zero ?_).mp
    ((WeierstrassCurve.Affine.equation_iff ..).mpr ?_)
  · rw [hdelta]
    exact mul_ne_zero (neg_ne_zero.mpr (pow_ne_zero _ h2)) hdisc
  · simp only [Coef.curve]
    linear_combination h

/-- A canonical point on a regular curve stands for a point of it. -/
theorem represents_exists {k : Coef} (hm : k.m.Prime) (h3 : 3 ≤ k.m) (hd : (4 * k.a ^ 3 + 27 * k.b ^ 2) % k.m ≠ 0)
    {p : Point} (hc : p.Canonical k.m) (ho : p.OnCurve k) : ∃ q, Represents k p q := by
  obtain ⟨inf, x, y⟩ := p
  cases inf with
  | true =>
    obtain ⟨hx, hy⟩ := hc.1 rfl
    simp only at hx hy
    subst hx hy
    exact ⟨.zero, rfl⟩
  | false =>
    have e := (onCurve_iff (by omega) _ _).mp (ho rfl)
    exact ⟨.some x y (nonsingular_of_equation hm h3 hd e), rfl, (hc.2 rfl).1, (hc.2 rfl).2, rfl, rfl⟩

/-- The equation of a point of the curve. -/
theorem equation_of_nonsingular {k : Coef} {x y : ZMod k.m} (h : k.curve.Nonsingular x y) :
    y ^ 2 = x ^ 3 + k.a * x + k.b := by
  have := (WeierstrassCurve.Affine.equation_iff ..).mp h.1
  simp only [Coef.curve] at this
  linear_combination this

/-- `padd` is the addition of the curve (42_curve.md R202, R215). -/
theorem padd_represents {k : Coef} [Fact k.m.Prime] (h3 : 3 ≤ k.m) {p1 p2 : Point} {q1 q2 : k.curve.Point}
    (h1 : Represents k p1 q1) (h2 : Represents k p2 q2) : Represents k (padd k p1 p2) (q1 + q2) := by
  have hm : k.m.Prime := Fact.out
  have h0 : 0 < k.m := by omega
  cases q1 with
  | zero =>
    obtain rfl : p1 = .infinity := h1
    have e : padd k .infinity p2 = p2 := rfl
    rw [e]
    have : (WeierstrassCurve.Affine.Point.zero : k.curve.Point) + q2 = q2 := zero_add q2
    rwa [this]
  | some x1 y1 n1 =>
    obtain ⟨i1, hx1, hy1, rfl, rfl⟩ := h1
    cases q2 with
    | zero =>
      obtain rfl : p2 = .infinity := h2
      have e : padd k p1 .infinity = p1 := by simp [padd, i1, Point.infinity]
      rw [e]
      have : WeierstrassCurve.Affine.Point.some _ _ n1 + .zero = .some _ _ n1 := add_zero _
      rw [this]
      exact ⟨i1, hx1, hy1, rfl, rfl⟩
    | some x2 y2 n2 =>
      obtain ⟨i2, hx2, hy2, rfl, rfl⟩ := h2
      have e1 := equation_of_nonsingular n1
      have e2 := equation_of_nonsingular n2
      have negY : ∀ x y, k.curve.negY x y = -y := fun x y => by
        simp [Coef.curve, WeierstrassCurve.Affine.negY]
      by_cases hx : p1.x = p2.x
      · by_cases hy : p1.y = p2.y ∧ p1.y ≠ 0
        · have h2 : (2 : ZMod k.m) ≠ 0 := by
            have h := eq_of_zmod_eq (m := k.m) (x := 2) (y := 0) (by omega) h0
            intro e
            exact absurd (h (by simpa using e)) (by decide)
          have hy0 : (p1.y : ZMod k.m) ≠ 0 := fun h => hy.2 (eq_of_zmod_eq hy1 h0 (by simpa using h))
          have hne : (p1.y : ZMod k.m) ≠ k.curve.negY p2.x p2.y := by
            rw [negY, ← hy.1]
            intro h
            exact mul_ne_zero h2 hy0 (by linear_combination h)
          have hp : padd k p1 p2 = tangent k.m k.a p1 := by
            simp [padd, i1, i2, hx, hy.1, show p2.y ≠ 0 from hy.1 ▸ hy.2]
          rw [hp, WeierstrassCurve.Affine.Point.add_of_Y_ne hne]
          obtain ⟨sl, hs, ex, ey⟩ := tangent_zmod hm h3 k.a p1
          have hslope : k.curve.slope p1.x p2.x p1.y p2.y = sl := by
            rw [WeierstrassCurve.Affine.slope_of_Y_ne (by rw [hx]) hne, negY, hs]
            simp only [Coef.curve]
            rw [div_eq_mul_inv]
            ring_nf
          refine ⟨rfl, (tangent_canonical h0 p1).2 rfl |>.1, (tangent_canonical h0 p1).2 rfl |>.2, ?_, ?_⟩
          · rw [hslope, ex, WeierstrassCurve.Affine.addX, ← hx]
            simp only [Coef.curve]
            ring
          · rw [hslope, ey, WeierstrassCurve.Affine.addY, negY, WeierstrassCurve.Affine.negAddY, ex,
              WeierstrassCurve.Affine.addX, ← hx]
            simp only [Coef.curve]
            ring
        · have hyz : (p1.y : ZMod k.m) = k.curve.negY p2.x p2.y := by
            rw [negY]
            have hprod : ((p1.y : ZMod k.m) - p2.y) * (p1.y + p2.y) = 0 := by
              rw [hx] at e1
              linear_combination e1 - e2
            rcases mul_eq_zero.mp hprod with h | h
            · have he := eq_of_zmod_eq hy1 hy2 (sub_eq_zero.mp h)
              have hz : p1.y = 0 := by
                by_contra hne
                exact hy ⟨he, hne⟩
              rw [← he, hz]
              simp
            · exact eq_neg_of_add_eq_zero_left h
          have hp : padd k p1 p2 = .infinity := by
            by_cases he : p1.y = p2.y
            · have hz : p2.y = 0 := by
                by_contra hne
                exact hy ⟨he, he ▸ hne⟩
              simp [padd, i1, i2, hx, he, hz]
            · simp [padd, i1, i2, hx, he]
          rw [hp, WeierstrassCurve.Affine.Point.add_of_Y_eq (by rw [hx]) hyz]
          rfl
      · have hne : (p1.x : ZMod k.m) ≠ p2.x := fun h => hx (eq_of_zmod_eq hx1 hx2 h)
        have hp : padd k p1 p2 = chord k.m p1 p2 := by simp [padd, i1, i2, hx]
        rw [hp, WeierstrassCurve.Affine.Point.add_of_X_ne hne]
        obtain ⟨sl, hs, ex, ey⟩ := chord_zmod hm h3 p1 p2
        have hslope : k.curve.slope p1.x p2.x p1.y p2.y = sl := by
          rw [WeierstrassCurve.Affine.slope_of_X_ne hne, hs, ← div_eq_mul_inv, ← neg_sub (p2.y : ZMod k.m),
            ← neg_sub (p2.x : ZMod k.m), neg_div_neg_eq]
        refine ⟨rfl, (chord_canonical h0 p1 p2).2 rfl |>.1, (chord_canonical h0 p1 p2).2 rfl |>.2, ?_, ?_⟩
        · rw [hslope, ex, WeierstrassCurve.Affine.addX]
          simp only [Coef.curve]
          ring
        · rw [hslope, ey, WeierstrassCurve.Affine.addY, negY, WeierstrassCurve.Affine.negAddY, ex,
            WeierstrassCurve.Affine.addX]
          simp only [Coef.curve]
          ring

/-- The double-and-add loop adds a multiple to what it started from (R208). -/
theorem smulLoop_represents {k : Coef} [Fact k.m.Prime] (h3 : 3 ≤ k.m) (fuel n : Nat) (hn : n < 2 ^ fuel)
    {r p : Point} {qr qp : k.curve.Point} (hr : Represents k r qr) (hp : Represents k p qp) :
    Represents k (smulLoop k fuel n r p) (qr + n • qp) := by
  induction fuel generalizing n r p qr qp with
  | zero =>
    obtain rfl : n = 0 := by simpa using hn
    simpa [smulLoop] using hr
  | succ f ih =>
    rw [smulLoop]
    split
    · subst n; simpa using hr
    · have hdbl := padd_represents h3 hp hp
      have hsum : ∀ q : k.curve.Point, q + (n / 2) • (qp + qp) = q + (2 * (n / 2)) • qp := fun q => by
        rw [← two_nsmul, ← mul_nsmul]
      split
      · have := ih (n / 2) (by rw [pow_succ] at hn; omega) (padd_represents h3 hr hp) hdbl
        rw [hsum, add_assoc, ← succ_nsmul' qp, show 2 * (n / 2) + 1 = n by omega] at this
        exact this
      · have := ih (n / 2) (by rw [pow_succ] at hn; omega) hr hdbl
        rwa [hsum, show 2 * (n / 2) = n by omega] at this

/-- `smul` is the multiple in the group of the curve (R208). -/
theorem smul_represents {k : Coef} [Fact k.m.Prime] (h3 : 3 ≤ k.m) (n : Nat) {p : Point} {q : k.curve.Point}
    (hp : Represents k p q) : Represents k (smul k n p) (n • q) := by
  have := smulLoop_represents h3 (n.log2 + 1) n Nat.lt_log2_self (infinity_represents k) hp
  have hz : (WeierstrassCurve.Affine.Point.zero : k.curve.Point) + n • q = n • q := zero_add _
  rwa [hz] at this

end Sys2Proof.Machine
end

