-- ==== Sys2Proof/Laws/Encoding.lean ====
section
/-! SUPPORT. The fields of an assembled command word: what the decoder's field extractions read from it, and which
masks it meets. -/

namespace Sys2Proof

/-! ### Numbers -/

theorem append_toNat {n m : Nat} (x : BitVec n) (y : BitVec m) :
    (x ++ y).toNat = x.toNat * 2 ^ m + y.toNat := by
  rw [BitVec.toNat_append, ← Nat.shiftLeft_add_eq_or_of_lt y.isLt, Nat.shiftLeft_eq]

theorem append_and {n m : Nat} (x x' : BitVec n) (y y' : BitVec m) :
    (x ++ y) &&& (x' ++ y') = (x &&& x') ++ (y &&& y') := by
  ext i hi
  by_cases h : i < m <;> simp [BitVec.getElem_append, h]

theorem assemble_toNat (opc : BitVec 8) (d a b : BitVec 4) (sel : BitVec 2) (neg : BitVec 1) (x8 : BitVec 8) :
    (assemble opc d a b sel neg x8).toNat =
      opc.toNat * 2 ^ 24 + d.toNat * 2 ^ 20 + a.toNat * 2 ^ 16 + b.toNat * 2 ^ 12 + sel.toNat * 2 ^ 10 +
        neg.toNat * 2 ^ 9 + x8.toNat := by
  simp only [assemble, append_toNat, show (0 : BitVec 1).toNat = 0 from rfl]
  omega

theorem assembleK_toNat (opc : BitVec 8) (d : BitVec 4) (k : BitVec 16) :
    (assembleK opc d k).toNat = opc.toNat * 2 ^ 24 + d.toNat * 2 ^ 20 + k.toNat := by
  simp only [assembleK, append_toNat, show (0 : BitVec 4).toNat = 0 from rfl]
  omega

theorem rBits_toNat (i : RIdx) : (rBits i).toNat = i.val := Nat.mod_eq_of_lt i.isLt

theorem qBits_toNat (j : QIdx) : (qBits j).toNat = j.val := Nat.mod_eq_of_lt (by omega)

theorem negBit_toNat (neg : Bool) : (negBit neg).toNat = neg.toNat := by cases neg <;> rfl

/-! ### Fields of the general formats -/

section General
variable (opc : BitVec 8) (d a b : BitVec 4) (sel : BitVec 2) (neg : BitVec 1) (x8 : BitVec 8)

theorem opcOf_assemble : opcOf (assemble opc d a b sel neg x8) = opc.toNat := by
  simp only [opcOf, bits, assemble_toNat]; omega

theorem rD_assemble (i : RIdx) : rD (assemble opc (rBits i) a b sel neg x8) = i := by
  apply Fin.ext
  simp only [rD, rAt, bits, assemble_toNat, rBits_toNat]; omega

theorem rA_assemble (i : RIdx) : rA (assemble opc d (rBits i) b sel neg x8) = i := by
  apply Fin.ext
  simp only [rA, rAt, bits, assemble_toNat, rBits_toNat]; omega

theorem rB_assemble (i : RIdx) : rB (assemble opc d a (rBits i) sel neg x8) = i := by
  apply Fin.ext
  simp only [rB, rAt, bits, assemble_toNat, rBits_toNat]; omega

theorem qD_assemble (j : QIdx) : qD (assemble opc (qBits j) a b sel neg x8) = j := by
  apply Fin.ext
  simp only [qD, qAt, bits, assemble_toNat, qBits_toNat]; omega

theorem qA_assemble (j : QIdx) : qA (assemble opc d (qBits j) b sel neg x8) = j := by
  apply Fin.ext
  simp only [qA, qAt, bits, assemble_toNat, qBits_toNat]; omega

theorem qB_assemble (j : QIdx) : qB (assemble opc d a (qBits j) sel neg x8) = j := by
  apply Fin.ext
  simp only [qB, qAt, bits, assemble_toNat, qBits_toNat]; omega

theorem selOf_assemble : selOf (assemble opc d a b sel neg x8) = sel := by
  apply BitVec.eq_of_toNat_eq
  simp only [selOf, bits, assemble_toNat, BitVec.toNat_ofNat]; omega

theorem negOf_assemble (n : Bool) : negOf (assemble opc d a b sel (negBit n) x8) = n := by
  simp only [negOf, bits, assemble_toNat, negBit_toNat]
  cases n <;> simp <;> omega

theorem x8Of_assemble : x8Of (assemble opc d a b sel neg x8) = x8 := by
  apply BitVec.eq_of_toNat_eq
  simp only [x8Of, bits, assemble_toNat, BitVec.toNat_ofNat]; omega

end General

theorem tagOf_tagBits (t : Tag) : tagOf (tagBits t) = t := by cases t <;> rfl

theorem tagBits_tagOf (sel : BitVec 2) : tagBits (tagOf sel) = sel := by revert sel; decide

/-! ### Fields of formats K and KC -/

theorem opcOf_assembleK (opc : BitVec 8) (d : BitVec 4) (k : BitVec 16) : opcOf (assembleK opc d k) = opc.toNat := by
  simp only [opcOf, bits, assembleK_toNat]; omega

theorem rD_assembleK (opc : BitVec 8) (i : RIdx) (k : BitVec 16) : rD (assembleK opc (rBits i) k) = i := by
  apply Fin.ext
  simp only [rD, rAt, bits, assembleK_toNat, rBits_toNat]; omega

theorem k16Of_assembleK (opc : BitVec 8) (d : BitVec 4) (k : BitVec 16) : k16Of (assembleK opc d k) = k := by
  apply BitVec.eq_of_toNat_eq
  simp only [k16Of, bits, assembleK_toNat, BitVec.toNat_ofNat]; omega

/-! ### Masks -/

/-- One field of a masked word: the fields above it and the field itself are masked apart. -/
theorem append_and_eq {n m : Nat} {x x' z : BitVec n} {y y' u : BitVec m} (h : x &&& x' = z) (h' : y &&& y' = u) :
    (x ++ y) &&& (x' ++ y') = z ++ u := by rw [append_and, h, h']

/-- An assembled word meets a row whose mask covers the opcode, `RSV8` and, in each other field, only bits that are 0
in the word. -/
theorem assemble_meets (opc : BitVec 8) {d a b : BitVec 4} {sel : BitVec 2} {neg : BitVec 1} {x8 : BitVec 8}
    (md ma mb : BitVec 4) (ms : BitVec 2) (mn : BitVec 1) (mx : BitVec 8)
    (hd : d &&& md = 0) (ha : a &&& ma = 0) (hb : b &&& mb = 0) (hs : sel &&& ms = 0) (hn : neg &&& mn = 0)
    (hx : x8 &&& mx = 0) :
    assemble opc d a b sel neg x8 &&&
        ((0xFF : BitVec 8) ++ md ++ ma ++ mb ++ ms ++ mn ++ (1 : BitVec 1) ++ mx) = assemble opc 0 0 0 0 0 0 :=
  append_and_eq (append_and_eq (append_and_eq (append_and_eq (append_and_eq (append_and_eq
    (append_and_eq BitVec.and_allOnes hd) ha) hb) hs) hn) rfl) hx

/-- The same for formats K and KC. -/
theorem assembleK_meets (opc : BitVec 8) {d : BitVec 4} {k : BitVec 16} (md : BitVec 4) (mk : BitVec 16)
    (hd : d &&& md = 0) (hk : k &&& mk = 0) :
    assembleK opc d k &&& ((0xFF : BitVec 8) ++ md ++ (0xF : BitVec 4) ++ mk) = assembleK opc 0 0 :=
  append_and_eq (append_and_eq (append_and_eq BitVec.and_allOnes hd) rfl) hk

/-- Bit 3 of a point register's field is 0 (30_encoding.md R112). -/
theorem qBits_and_8 (j : QIdx) : qBits j &&& 8 = 0 := by revert j; decide

/-- Bit 11 is 0 for a well-formed curve select (30_encoding.md R113). -/
theorem curveSelect_and_2 (sel : BitVec 2) (h : curveSelectOk sel = true) : sel &&& 2 = 0 := by
  revert sel; decide

/-- Bits 15:2 are 0 for a well-formed constant index (30_encoding.md R116). -/
theorem constIndex_and_high (k : BitVec 16) (h : constIndexOk k = true) : k &&& 0xFFFC = 0 := by
  have hk : k.toNat < 4 := by simpa [constIndexOk] using h
  have : k = BitVec.ofNat 16 0 ∨ k = BitVec.ofNat 16 1 ∨ k = BitVec.ofNat 16 2 ∨ k = BitVec.ofNat 16 3 := by
    simp only [← BitVec.toNat_inj, BitVec.toNat_ofNat]
    omega
  rcases this with rfl | rfl | rfl | rfl <;> decide

end Sys2Proof
end

