-- ==== Sys2Proof/Laws/State.lean ====
section
/-! SUPPORT. One lemma per field of the state and update, so that no proof unfolds a record update. -/

namespace Sys2Proof.Machine

variable (s : State)

/-! ### `State.setR` -/

@[simp] theorem State.setR_r (i : RIdx) (x : FieldReg) : (s.setR i x).r = s.r.set i.val x := rfl
@[simp] theorem State.setR_q (i : RIdx) (x : FieldReg) : (s.setR i x).q = s.q := rfl
@[simp] theorem State.setR_mod (i : RIdx) (x : FieldReg) : (s.setR i x).mod = s.mod := rfl
@[simp] theorem State.setR_ca (i : RIdx) (x : FieldReg) : (s.setR i x).ca = s.ca := rfl
@[simp] theorem State.setR_cb (i : RIdx) (x : FieldReg) : (s.setR i x).cb = s.cb := rfl
@[simp] theorem State.setR_t (i : RIdx) (x : FieldReg) : (s.setR i x).t = s.t := rfl
@[simp] theorem State.setR_busy (i : RIdx) (x : FieldReg) : (s.setR i x).busy = s.busy := rfl
@[simp] theorem State.setR_done (i : RIdx) (x : FieldReg) : (s.setR i x).done = s.done := rfl
@[simp] theorem State.setR_err (i : RIdx) (x : FieldReg) : (s.setR i x).err = s.err := rfl
@[simp] theorem State.setR_ovr (i : RIdx) (x : FieldReg) : (s.setR i x).ovr = s.ovr := rfl
@[simp] theorem State.setR_errcode (i : RIdx) (x : FieldReg) : (s.setR i x).errcode = s.errcode := rfl
@[simp] theorem State.setR_ieDone (i : RIdx) (x : FieldReg) : (s.setR i x).ieDone = s.ieDone := rfl
@[simp] theorem State.setR_ieErr (i : RIdx) (x : FieldReg) : (s.setR i x).ieErr = s.ieErr := rfl
@[simp] theorem State.setR_cmd (i : RIdx) (x : FieldReg) : (s.setR i x).cmd = s.cmd := rfl
@[simp] theorem State.setR_errcmd (i : RIdx) (x : FieldReg) : (s.setR i x).errcmd = s.errcmd := rfl
@[simp] theorem State.setR_rst (i : RIdx) (x : FieldReg) : (s.setR i x).rst = s.rst := rfl
@[simp] theorem State.setR_inputs (i : RIdx) (x : FieldReg) : (s.setR i x).inputs = s.inputs := rfl
@[simp] theorem State.setR_resp (i : RIdx) (x : FieldReg) : (s.setR i x).resp = s.resp := rfl

/-! ### `State.setQ` -/

@[simp] theorem State.setQ_r (j : QIdx) (x : PointReg) : (s.setQ j x).r = s.r := rfl
@[simp] theorem State.setQ_q (j : QIdx) (x : PointReg) : (s.setQ j x).q = s.q.set j.val x := rfl
@[simp] theorem State.setQ_mod (j : QIdx) (x : PointReg) : (s.setQ j x).mod = s.mod := rfl
@[simp] theorem State.setQ_ca (j : QIdx) (x : PointReg) : (s.setQ j x).ca = s.ca := rfl
@[simp] theorem State.setQ_cb (j : QIdx) (x : PointReg) : (s.setQ j x).cb = s.cb := rfl
@[simp] theorem State.setQ_t (j : QIdx) (x : PointReg) : (s.setQ j x).t = s.t := rfl
@[simp] theorem State.setQ_busy (j : QIdx) (x : PointReg) : (s.setQ j x).busy = s.busy := rfl
@[simp] theorem State.setQ_done (j : QIdx) (x : PointReg) : (s.setQ j x).done = s.done := rfl
@[simp] theorem State.setQ_err (j : QIdx) (x : PointReg) : (s.setQ j x).err = s.err := rfl
@[simp] theorem State.setQ_ovr (j : QIdx) (x : PointReg) : (s.setQ j x).ovr = s.ovr := rfl
@[simp] theorem State.setQ_errcode (j : QIdx) (x : PointReg) : (s.setQ j x).errcode = s.errcode := rfl
@[simp] theorem State.setQ_ieDone (j : QIdx) (x : PointReg) : (s.setQ j x).ieDone = s.ieDone := rfl
@[simp] theorem State.setQ_ieErr (j : QIdx) (x : PointReg) : (s.setQ j x).ieErr = s.ieErr := rfl
@[simp] theorem State.setQ_cmd (j : QIdx) (x : PointReg) : (s.setQ j x).cmd = s.cmd := rfl
@[simp] theorem State.setQ_errcmd (j : QIdx) (x : PointReg) : (s.setQ j x).errcmd = s.errcmd := rfl
@[simp] theorem State.setQ_rst (j : QIdx) (x : PointReg) : (s.setQ j x).rst = s.rst := rfl
@[simp] theorem State.setQ_inputs (j : QIdx) (x : PointReg) : (s.setQ j x).inputs = s.inputs := rfl
@[simp] theorem State.setQ_resp (j : QIdx) (x : PointReg) : (s.setQ j x).resp = s.resp := rfl

/-! ### `State.setT` -/

@[simp] theorem State.setT_r (b : Bool) : (s.setT b).r = s.r := rfl
@[simp] theorem State.setT_q (b : Bool) : (s.setT b).q = s.q := rfl
@[simp] theorem State.setT_mod (b : Bool) : (s.setT b).mod = s.mod := rfl
@[simp] theorem State.setT_ca (b : Bool) : (s.setT b).ca = s.ca := rfl
@[simp] theorem State.setT_cb (b : Bool) : (s.setT b).cb = s.cb := rfl
@[simp] theorem State.setT_t (b : Bool) : (s.setT b).t = b := rfl
@[simp] theorem State.setT_busy (b : Bool) : (s.setT b).busy = s.busy := rfl
@[simp] theorem State.setT_done (b : Bool) : (s.setT b).done = s.done := rfl
@[simp] theorem State.setT_err (b : Bool) : (s.setT b).err = s.err := rfl
@[simp] theorem State.setT_ovr (b : Bool) : (s.setT b).ovr = s.ovr := rfl
@[simp] theorem State.setT_errcode (b : Bool) : (s.setT b).errcode = s.errcode := rfl
@[simp] theorem State.setT_ieDone (b : Bool) : (s.setT b).ieDone = s.ieDone := rfl
@[simp] theorem State.setT_ieErr (b : Bool) : (s.setT b).ieErr = s.ieErr := rfl
@[simp] theorem State.setT_cmd (b : Bool) : (s.setT b).cmd = s.cmd := rfl
@[simp] theorem State.setT_errcmd (b : Bool) : (s.setT b).errcmd = s.errcmd := rfl
@[simp] theorem State.setT_rst (b : Bool) : (s.setT b).rst = s.rst := rfl
@[simp] theorem State.setT_inputs (b : Bool) : (s.setT b).inputs = s.inputs := rfl
@[simp] theorem State.setT_resp (b : Bool) : (s.setT b).resp = s.resp := rfl

/-! ### `State.finish` -/

@[simp] theorem State.finish_r : (s.finish).r = s.r := rfl
@[simp] theorem State.finish_q : (s.finish).q = s.q := rfl
@[simp] theorem State.finish_mod : (s.finish).mod = s.mod := rfl
@[simp] theorem State.finish_ca : (s.finish).ca = s.ca := rfl
@[simp] theorem State.finish_cb : (s.finish).cb = s.cb := rfl
@[simp] theorem State.finish_t : (s.finish).t = s.t := rfl
@[simp] theorem State.finish_busy : (s.finish).busy = false := rfl
@[simp] theorem State.finish_done : (s.finish).done = true := rfl
@[simp] theorem State.finish_err : (s.finish).err = s.err := rfl
@[simp] theorem State.finish_ovr : (s.finish).ovr = s.ovr := rfl
@[simp] theorem State.finish_errcode : (s.finish).errcode = s.errcode := rfl
@[simp] theorem State.finish_ieDone : (s.finish).ieDone = s.ieDone := rfl
@[simp] theorem State.finish_ieErr : (s.finish).ieErr = s.ieErr := rfl
@[simp] theorem State.finish_cmd : (s.finish).cmd = s.cmd := rfl
@[simp] theorem State.finish_errcmd : (s.finish).errcmd = s.errcmd := rfl
@[simp] theorem State.finish_rst : (s.finish).rst = s.rst := rfl
@[simp] theorem State.finish_inputs : (s.finish).inputs = s.inputs := rfl
@[simp] theorem State.finish_resp : (s.finish).resp = s.resp := rfl

/-! ### `State.raise` -/

@[simp] theorem State.raise_r (code : ErrCode) : (s.raise code).r = s.r := rfl
@[simp] theorem State.raise_q (code : ErrCode) : (s.raise code).q = s.q := rfl
@[simp] theorem State.raise_mod (code : ErrCode) : (s.raise code).mod = s.mod := rfl
@[simp] theorem State.raise_ca (code : ErrCode) : (s.raise code).ca = s.ca := rfl
@[simp] theorem State.raise_cb (code : ErrCode) : (s.raise code).cb = s.cb := rfl
@[simp] theorem State.raise_t (code : ErrCode) : (s.raise code).t = s.t := rfl
@[simp] theorem State.raise_busy (code : ErrCode) : (s.raise code).busy = false := rfl
@[simp] theorem State.raise_done (code : ErrCode) : (s.raise code).done = true := rfl
@[simp] theorem State.raise_err (code : ErrCode) : (s.raise code).err = true := rfl
@[simp] theorem State.raise_ovr (code : ErrCode) : (s.raise code).ovr = s.ovr := rfl
@[simp] theorem State.raise_errcode (code : ErrCode) : (s.raise code).errcode = code := rfl
@[simp] theorem State.raise_ieDone (code : ErrCode) : (s.raise code).ieDone = s.ieDone := rfl
@[simp] theorem State.raise_ieErr (code : ErrCode) : (s.raise code).ieErr = s.ieErr := rfl
@[simp] theorem State.raise_cmd (code : ErrCode) : (s.raise code).cmd = s.cmd := rfl
@[simp] theorem State.raise_errcmd (code : ErrCode) : (s.raise code).errcmd = s.cmd := rfl
@[simp] theorem State.raise_rst (code : ErrCode) : (s.raise code).rst = s.rst := rfl
@[simp] theorem State.raise_inputs (code : ErrCode) : (s.raise code).inputs = s.inputs := rfl
@[simp] theorem State.raise_resp (code : ErrCode) : (s.raise code).resp = s.resp := rfl

/-! ### `State.accept` -/

@[simp] theorem State.accept_r (v : Word) : (s.accept v).r = s.r := rfl
@[simp] theorem State.accept_q (v : Word) : (s.accept v).q = s.q := rfl
@[simp] theorem State.accept_mod (v : Word) : (s.accept v).mod = s.mod := rfl
@[simp] theorem State.accept_ca (v : Word) : (s.accept v).ca = s.ca := rfl
@[simp] theorem State.accept_cb (v : Word) : (s.accept v).cb = s.cb := rfl
@[simp] theorem State.accept_t (v : Word) : (s.accept v).t = s.t := rfl
@[simp] theorem State.accept_busy (v : Word) : (s.accept v).busy = true := rfl
@[simp] theorem State.accept_done (v : Word) : (s.accept v).done = false := rfl
@[simp] theorem State.accept_err (v : Word) : (s.accept v).err = s.err := rfl
@[simp] theorem State.accept_ovr (v : Word) : (s.accept v).ovr = s.ovr := rfl
@[simp] theorem State.accept_errcode (v : Word) : (s.accept v).errcode = s.errcode := rfl
@[simp] theorem State.accept_ieDone (v : Word) : (s.accept v).ieDone = s.ieDone := rfl
@[simp] theorem State.accept_ieErr (v : Word) : (s.accept v).ieErr = s.ieErr := rfl
@[simp] theorem State.accept_cmd (v : Word) : (s.accept v).cmd = v := rfl
@[simp] theorem State.accept_errcmd (v : Word) : (s.accept v).errcmd = s.errcmd := rfl
@[simp] theorem State.accept_rst (v : Word) : (s.accept v).rst = s.rst := rfl
@[simp] theorem State.accept_inputs (v : Word) : (s.accept v).inputs = s.inputs := rfl
@[simp] theorem State.accept_resp (v : Word) : (s.accept v).resp = s.resp := rfl

/-! ### `State.overrun` -/

@[simp] theorem State.overrun_r : (s.overrun).r = s.r := rfl
@[simp] theorem State.overrun_q : (s.overrun).q = s.q := rfl
@[simp] theorem State.overrun_mod : (s.overrun).mod = s.mod := rfl
@[simp] theorem State.overrun_ca : (s.overrun).ca = s.ca := rfl
@[simp] theorem State.overrun_cb : (s.overrun).cb = s.cb := rfl
@[simp] theorem State.overrun_t : (s.overrun).t = s.t := rfl
@[simp] theorem State.overrun_busy : (s.overrun).busy = s.busy := rfl
@[simp] theorem State.overrun_done : (s.overrun).done = s.done := rfl
@[simp] theorem State.overrun_err : (s.overrun).err = s.err := rfl
@[simp] theorem State.overrun_ovr : (s.overrun).ovr = true := rfl
@[simp] theorem State.overrun_errcode : (s.overrun).errcode = s.errcode := rfl
@[simp] theorem State.overrun_ieDone : (s.overrun).ieDone = s.ieDone := rfl
@[simp] theorem State.overrun_ieErr : (s.overrun).ieErr = s.ieErr := rfl
@[simp] theorem State.overrun_cmd : (s.overrun).cmd = s.cmd := rfl
@[simp] theorem State.overrun_errcmd : (s.overrun).errcmd = s.errcmd := rfl
@[simp] theorem State.overrun_rst : (s.overrun).rst = s.rst := rfl
@[simp] theorem State.overrun_inputs : (s.overrun).inputs = s.inputs := rfl
@[simp] theorem State.overrun_resp : (s.overrun).resp = s.resp := rfl

/-! ### `State.clearStatus` -/

@[simp] theorem State.clearStatus_r (v : Word) : (s.clearStatus v).r = s.r := rfl
@[simp] theorem State.clearStatus_q (v : Word) : (s.clearStatus v).q = s.q := rfl
@[simp] theorem State.clearStatus_mod (v : Word) : (s.clearStatus v).mod = s.mod := rfl
@[simp] theorem State.clearStatus_ca (v : Word) : (s.clearStatus v).ca = s.ca := rfl
@[simp] theorem State.clearStatus_cb (v : Word) : (s.clearStatus v).cb = s.cb := rfl
@[simp] theorem State.clearStatus_t (v : Word) : (s.clearStatus v).t = s.t := rfl
@[simp] theorem State.clearStatus_busy (v : Word) : (s.clearStatus v).busy = s.busy := rfl
@[simp] theorem State.clearStatus_done (v : Word) : (s.clearStatus v).done = (s.done && !v.getLsbD 1) := rfl
@[simp] theorem State.clearStatus_err (v : Word) : (s.clearStatus v).err = (s.err && !v.getLsbD 2) := rfl
@[simp] theorem State.clearStatus_ovr (v : Word) : (s.clearStatus v).ovr = (s.ovr && !v.getLsbD 3) := rfl
@[simp] theorem State.clearStatus_errcode (v : Word) : (s.clearStatus v).errcode = if v.getLsbD 2 then .none else s.errcode := rfl
@[simp] theorem State.clearStatus_ieDone (v : Word) : (s.clearStatus v).ieDone = s.ieDone := rfl
@[simp] theorem State.clearStatus_ieErr (v : Word) : (s.clearStatus v).ieErr = s.ieErr := rfl
@[simp] theorem State.clearStatus_cmd (v : Word) : (s.clearStatus v).cmd = s.cmd := rfl
@[simp] theorem State.clearStatus_errcmd (v : Word) : (s.clearStatus v).errcmd = s.errcmd := rfl
@[simp] theorem State.clearStatus_rst (v : Word) : (s.clearStatus v).rst = s.rst := rfl
@[simp] theorem State.clearStatus_inputs (v : Word) : (s.clearStatus v).inputs = s.inputs := rfl
@[simp] theorem State.clearStatus_resp (v : Word) : (s.clearStatus v).resp = s.resp := rfl

/-! ### `State.invalidatePoints` -/

@[simp] theorem State.invalidatePoints_r : (s.invalidatePoints).r = s.r := rfl
@[simp] theorem State.invalidatePoints_q : (s.invalidatePoints).q = mapRegs dropUserPoint s.q := rfl
@[simp] theorem State.invalidatePoints_mod : (s.invalidatePoints).mod = s.mod := rfl
@[simp] theorem State.invalidatePoints_ca : (s.invalidatePoints).ca = s.ca := rfl
@[simp] theorem State.invalidatePoints_cb : (s.invalidatePoints).cb = s.cb := rfl
@[simp] theorem State.invalidatePoints_t : (s.invalidatePoints).t = s.t := rfl
@[simp] theorem State.invalidatePoints_busy : (s.invalidatePoints).busy = s.busy := rfl
@[simp] theorem State.invalidatePoints_done : (s.invalidatePoints).done = s.done := rfl
@[simp] theorem State.invalidatePoints_err : (s.invalidatePoints).err = s.err := rfl
@[simp] theorem State.invalidatePoints_ovr : (s.invalidatePoints).ovr = s.ovr := rfl
@[simp] theorem State.invalidatePoints_errcode : (s.invalidatePoints).errcode = s.errcode := rfl
@[simp] theorem State.invalidatePoints_ieDone : (s.invalidatePoints).ieDone = s.ieDone := rfl
@[simp] theorem State.invalidatePoints_ieErr : (s.invalidatePoints).ieErr = s.ieErr := rfl
@[simp] theorem State.invalidatePoints_cmd : (s.invalidatePoints).cmd = s.cmd := rfl
@[simp] theorem State.invalidatePoints_errcmd : (s.invalidatePoints).errcmd = s.errcmd := rfl
@[simp] theorem State.invalidatePoints_rst : (s.invalidatePoints).rst = s.rst := rfl
@[simp] theorem State.invalidatePoints_inputs : (s.invalidatePoints).inputs = s.inputs := rfl
@[simp] theorem State.invalidatePoints_resp : (s.invalidatePoints).resp = s.resp := rfl

/-! ### `State.invalidateField` -/

@[simp] theorem State.invalidateField_r : (s.invalidateField).r = mapRegs dropUserTag s.r := rfl
@[simp] theorem State.invalidateField_q : (s.invalidateField).q = mapRegs dropUserPoint s.q := rfl
@[simp] theorem State.invalidateField_mod : (s.invalidateField).mod = s.mod := rfl
@[simp] theorem State.invalidateField_ca : (s.invalidateField).ca = s.ca := rfl
@[simp] theorem State.invalidateField_cb : (s.invalidateField).cb = s.cb := rfl
@[simp] theorem State.invalidateField_t : (s.invalidateField).t = s.t := rfl
@[simp] theorem State.invalidateField_busy : (s.invalidateField).busy = s.busy := rfl
@[simp] theorem State.invalidateField_done : (s.invalidateField).done = s.done := rfl
@[simp] theorem State.invalidateField_err : (s.invalidateField).err = s.err := rfl
@[simp] theorem State.invalidateField_ovr : (s.invalidateField).ovr = s.ovr := rfl
@[simp] theorem State.invalidateField_errcode : (s.invalidateField).errcode = s.errcode := rfl
@[simp] theorem State.invalidateField_ieDone : (s.invalidateField).ieDone = s.ieDone := rfl
@[simp] theorem State.invalidateField_ieErr : (s.invalidateField).ieErr = s.ieErr := rfl
@[simp] theorem State.invalidateField_cmd : (s.invalidateField).cmd = s.cmd := rfl
@[simp] theorem State.invalidateField_errcmd : (s.invalidateField).errcmd = s.errcmd := rfl
@[simp] theorem State.invalidateField_rst : (s.invalidateField).rst = s.rst := rfl
@[simp] theorem State.invalidateField_inputs : (s.invalidateField).inputs = s.inputs := rfl
@[simp] theorem State.invalidateField_resp : (s.invalidateField).resp = s.resp := rfl

end Sys2Proof.Machine
end

