-- ==== Sys2Proof/Laws/Ops.lean ====
section
/-! SUPPORT. One lemma per shared operation that says what it can do: register access, completion, operands, the errors
a command can end in. -/

namespace Sys2Proof.Machine

/-! ### Registers -/

theorem getR_setR_same (s : State) (i : RIdx) (x : FieldReg) : (s.setR i x).getR i = x := by
  simp [State.getR]

theorem getR_setR_other (s : State) {i k : RIdx} (h : k ≠ i) (x : FieldReg) : (s.setR i x).getR k = s.getR k := by
  simp only [State.getR, State.setR_r]
  exact Vector.getElem_set_ne _ _ fun e => h (Fin.ext e.symm)

theorem getQ_setQ_same (s : State) (j : QIdx) (x : PointReg) : (s.setQ j x).getQ j = x := by
  simp [State.getQ]

theorem getQ_setQ_other (s : State) {j k : QIdx} (h : k ≠ j) (x : PointReg) : (s.setQ j x).getQ k = s.getQ k := by
  simp only [State.getQ, State.setQ_q]
  exact Vector.getElem_set_ne _ _ fun e => h (Fin.ext e.symm)

@[simp] theorem getR_setQ (s : State) (j : QIdx) (x : PointReg) (i : RIdx) : (s.setQ j x).getR i = s.getR i := rfl
@[simp] theorem getQ_setR (s : State) (i : RIdx) (x : FieldReg) (j : QIdx) : (s.setR i x).getQ j = s.getQ j := rfl
@[simp] theorem getR_setT (s : State) (b : Bool) (i : RIdx) : (s.setT b).getR i = s.getR i := rfl
@[simp] theorem getQ_setT (s : State) (b : Bool) (j : QIdx) : (s.setT b).getQ j = s.getQ j := rfl
@[simp] theorem getR_finish (s : State) (i : RIdx) : s.finish.getR i = s.getR i := rfl
@[simp] theorem getQ_finish (s : State) (j : QIdx) : s.finish.getQ j = s.getQ j := rfl
@[simp] theorem getR_raise (s : State) (e : ErrCode) (i : RIdx) : (s.raise e).getR i = s.getR i := rfl
@[simp] theorem getQ_raise (s : State) (e : ErrCode) (j : QIdx) : (s.raise e).getQ j = s.getQ j := rfl

theorem mapRegs_getElem {α : Type} {n : Nat} (f : α → α) (v : Vector α n) (i : Nat) (h : i < n) :
    (mapRegs f v)[i] = f v[i] := by
  simp [mapRegs]

@[simp] theorem getR_invalidateField (s : State) (i : RIdx) : s.invalidateField.getR i = dropUserTag (s.getR i) :=
  mapRegs_getElem _ _ _ _

@[simp] theorem getQ_invalidateField (s : State) (j : QIdx) : s.invalidateField.getQ j = dropUserPoint (s.getQ j) :=
  mapRegs_getElem _ _ _ _

@[simp] theorem getR_invalidatePoints (s : State) (i : RIdx) : s.invalidatePoints.getR i = s.getR i := rfl

@[simp] theorem getQ_invalidatePoints (s : State) (j : QIdx) : s.invalidatePoints.getQ j = dropUserPoint (s.getQ j) :=
  mapRegs_getElem _ _ _ _

theorem reset_getR (i : RIdx) : State.reset.getR i = ⟨0, .raw⟩ := by simp [State.getR, State.reset]

theorem reset_getQ (j : QIdx) : State.reset.getQ j = .empty := by simp [State.getQ, State.reset]

/-! ### Completion -/

@[simp] theorem conclude_ok (s t : State) : conclude s (.ok t) = .next t.finish := rfl

@[simp] theorem conclude_error (s : State) (e : ErrCode) : conclude s (.error e) = .next (s.raise e) := rfl

/-- A completion always answers a next state: the finished result, or the recorded error. -/
theorem conclude_cases {s t : State} {res : Result} (h : conclude s res = .next t) :
    (∃ u, res = .ok u ∧ t = u.finish) ∨ (∃ e, res = .error e ∧ t = s.raise e) := by
  cases res with
  | ok u => exact .inl ⟨u, rfl, by simpa using h.symm⟩
  | error e => exact .inr ⟨e, rfl, by simpa using h.symm⟩

theorem conclude_next (s : State) (res : Result) : ∃ t, conclude s res = .next t := by
  cases res <;> exact ⟨_, rfl⟩

/-! ### Sequencing of checks -/

@[simp] theorem except_bind_ok {α β : Type} (x : α) (f : α → Except ErrCode β) : (Except.ok x >>= f) = f x := rfl

@[simp] theorem except_bind_error {α β : Type} (e : ErrCode) (f : α → Except ErrCode β) :
    ((Except.error e : Except ErrCode α) >>= f) = .error e := rfl

/-- A sequence of two checks succeeds only where both do. -/
theorem bind_ok {α β : Type} {x : Except ErrCode α} {f : α → Except ErrCode β} {b : β} (h : (x >>= f) = .ok b) :
    ∃ a, x = .ok a ∧ f a = .ok b := by
  cases x with
  | ok a => exact ⟨a, rfl, h⟩
  | error e => cases h

/-! ### Operands -/

/-- `fe` on a tagged register (41_field.md R171). -/
theorem fe_tagged {s : State} {i : RIdx} {m : Nat} (h : s.modof (s.getR i).t = some m) :
    fe s i = .ok ⟨(s.getR i).v.toNat, (s.getR i).t, m⟩ := by rw [fe, h]

/-- `fe` on an untagged register (R171). -/
theorem fe_untagged {s : State} {i : RIdx} (h : (s.getR i).t = .raw) : fe s i = .error .operand := by
  rw [fe, h]; rfl

/-- What `fe` answers, when it answers. -/
theorem fe_ok {s : State} {i : RIdx} {x : FieldElem} (h : fe s i = .ok x) :
    x.v = (s.getR i).v.toNat ∧ x.t = (s.getR i).t ∧ s.modof x.t = some x.m := by
  unfold fe at h
  split at h
  · rename_i m hm
    cases h
    exact ⟨rfl, rfl, hm⟩
  · cases h

theorem fe_error {s : State} {i : RIdx} {e : ErrCode} (h : fe s i = .error e) : e = .operand := by
  unfold fe at h
  split at h <;> cases h
  rfl

/-- Two operands of one field (R171). -/
theorem sameField_ok {s : State} {a b : RIdx} {x y : FieldElem} (h : sameField s a b = .ok (x, y)) :
    fe s a = .ok x ∧ fe s b = .ok y ∧ x.m = y.m := by
  obtain ⟨x', hx, h⟩ := bind_ok h
  obtain ⟨y', hy, h⟩ := bind_ok h
  split at h
  · cases h; exact ⟨hx, hy, ‹_›⟩
  · cases h

/-- A binary field command writes one register, with the tag of `A`, and only when both operands are of one field. -/
theorem fieldBinary_ok {s t : State} {d a b : RIdx} {op : Nat → Nat → Nat → Nat} (h : fieldBinary s d a b op = .ok t) :
    ∃ x y, fe s a = .ok x ∧ fe s b = .ok y ∧ x.m = y.m ∧ t = s.setR d (fieldReg (op x.v y.v x.m) x.t) := by
  obtain ⟨⟨x, y⟩, hxy, h⟩ := bind_ok h
  obtain ⟨hx, hy, hm⟩ := sameField_ok hxy
  cases h
  exact ⟨x, y, hx, hy, hm, rfl⟩

/-- `pt` on a register that holds a point (42_curve.md R201). -/
theorem pt_some {s : State} {j : QIdx} {c : Curve} (h : (s.getQ j).c = some c) : pt s j = .ok (c, (s.getQ j).point) := by
  rw [pt, h]

/-- `pt` on an empty register (R201). -/
theorem pt_none {s : State} {j : QIdx} (h : (s.getQ j).c = none) : pt s j = .error .operand := by rw [pt, h]

/-- What `pt` answers, when it answers. -/
theorem pt_ok {s : State} {j : QIdx} {c : Curve} {p : Point} (h : pt s j = .ok (c, p)) :
    (s.getQ j).c = some c ∧ p = (s.getQ j).point := by
  unfold pt at h
  split at h
  · rename_i c' hc
    cases h
    exact ⟨hc, rfl⟩
  · cases h

/-- What `usercheck` lets through (42_curve.md R200). -/
theorem usercheck_ok {s : State} {u : Unit} (h : usercheck s = .ok u) :
    s.validmod = true ∧ s.ca.toNat < s.mod.toNat ∧ s.cb.toNat < s.mod.toNat := by
  unfold usercheck at h
  split at h
  · cases h
  · split at h
    · cases h
    · rename_i h1 h2
      exact ⟨by simpa using h1, by omega, by omega⟩

/-- What `selectCurve` lets through: a curve its select names, checked when it is the user's. -/
theorem selectCurve_ok {s : State} {sel : BitVec 2} {c : Curve} (h : selectCurve s sel = .ok c) :
    curveOf sel = some c ∧ (c = .user → usercheck s = .ok ()) := by
  unfold selectCurve at h
  split at h
  · cases h; exact ⟨‹_›, by simp⟩
  · obtain ⟨u, hu, h⟩ := bind_ok h
    cases h
    exact ⟨‹_›, fun _ => hu⟩
  · cases h

/-- A coordinate is read from an affine point only (42_curve.md R212, R213). -/
theorem coordinate_ok {s t : State} {d : RIdx} {a : QIdx} {pick : Point → Nat} (h : coordinate s d a pick = .ok t) :
    ∃ c p, pt s a = .ok (c, p) ∧ p.inf = false ∧ t = s.setR d (fieldReg (pick p) (fieldtag c)) := by
  obtain ⟨⟨c, p⟩, hp, h⟩ := bind_ok h
  dsimp only at h
  split at h
  · cases h
  · rename_i hi
    cases h
    exact ⟨c, p, hp, by simpa using hi, rfl⟩

/-- The moduli are odd and at least 3, where the user modulus is valid (41_field.md R181). -/
theorem modof_ge {s : State} {t : Tag} {m : Nat} (h : s.modof t = some m) (hv : t = .m → s.validmod = true) : 3 ≤ m := by
  cases t with
  | raw => cases h
  | p => cases h; decide
  | n => cases h; decide
  | m =>
    cases h
    have := hv rfl
    simp only [State.validmod, Bool.and_eq_true, decide_eq_true_iff] at this
    exact this.2

end Sys2Proof.Machine
end

