-- ==== Sys2Proof/Laws/Exec.lean ====
section
/-! SUPPORT. The inversion lemma of `exec`: everything a completion step can do. Frames and invariants follow from it
without unfolding a meaning again. -/

namespace Sys2Proof.Machine

/-- What a completion step can do, and that it does one of these for every command in every state. -/
inductive Effect (i : Instr) (s : State) : State → Prop where
  /-- an error is recorded and nothing else changes -/
  | failed (e : ErrCode) (he : e ≠ .none) : Effect i s (s.raise e)
  /-- the command had nothing to write -/
  | bare (h : i = .nop) : Effect i s s.finish
  /-- one field register is written -/
  | wroteR (d : RIdx) (x : FieldReg) (h : destR i = some d) : Effect i s (s.setR d x).finish
  /-- one point register is written -/
  | wroteQ (d : QIdx) (x : PointReg) (h : destQ i = some d) : Effect i s (s.setQ d x).finish
  /-- the test flag is written -/
  | wroteT (b : Bool) (h : isTest i = true) : Effect i s (s.setT b).finish

/-- A result of the shape the pseudocode of a command has: an error, or one write. -/
inductive Shape (i : Instr) (s : State) : Result → Prop where
  | error (e : ErrCode) (he : e ≠ .none) : Shape i s (.error e)
  | r (d : RIdx) (x : FieldReg) (h : destR i = some d) : Shape i s (.ok (s.setR d x))
  | q (d : QIdx) (x : PointReg) (h : destQ i = some d) : Shape i s (.ok (s.setQ d x))
  | t (b : Bool) (h : isTest i = true) : Shape i s (.ok (s.setT b))

theorem effect_of_shape {i : Instr} {s t : State} {res : Result} (hs : Shape i s res) (h : conclude s res = .next t) :
    Effect i s t := by
  cases hs with
  | error e he => rw [conclude_error] at h; cases h; exact .failed e he
  | r d x hd => rw [conclude_ok] at h; cases h; exact .wroteR d x hd
  | q d x hd => rw [conclude_ok] at h; cases h; exact .wroteQ d x hd
  | t b hb => rw [conclude_ok] at h; cases h; exact .wroteT b hb

/-! Sequencing keeps the shape. -/

theorem shape_fe {i : Instr} {s : State} {a : RIdx} {f : FieldElem → Result} (h : ∀ x, Shape i s (f x)) :
    Shape i s (fe s a >>= f) := by
  cases hx : fe s a with
  | ok x => exact h x
  | error e => exact .error e (by rw [fe_error hx]; decide)

theorem shape_pt {i : Instr} {s : State} {a : QIdx} {f : Curve × Point → Result} (h : ∀ x, Shape i s (f x)) :
    Shape i s (pt s a >>= f) := by
  cases hc : (s.getQ a).c with
  | some c => rw [pt_some hc]; exact h _
  | none => rw [pt_none hc]; exact .error _ (by decide)

theorem shape_selectCurve {i : Instr} {s : State} {sel : BitVec 2} {f : Curve → Result} (h : ∀ c, Shape i s (f c)) :
    Shape i s (selectCurve s sel >>= f) := by
  unfold selectCurve usercheck
  split
  · exact h _
  · split
    · exact .error _ (by decide)
    · split
      · exact .error _ (by decide)
      · exact h _
  · exact .error _ (by decide)

theorem shape_fieldBinary {i : Instr} {s : State} {d a b : RIdx} {op : Nat → Nat → Nat → Nat} (hd : destR i = some d) :
    Shape i s (fieldBinary s d a b op) := by
  unfold fieldBinary sameField
  cases hx : fe s a with
  | error e => exact .error e (by rw [fe_error hx]; decide)
  | ok x =>
    cases hy : fe s b with
    | error e => exact .error e (by rw [fe_error hy]; decide)
    | ok y =>
      simp only [except_bind_ok]
      split
      · exact .r _ _ hd
      · exact .error _ (by decide)

theorem shape_coordinate {i : Instr} {s : State} {d : RIdx} {a : QIdx} {pick : Point → Nat} (hd : destR i = some d) :
    Shape i s (coordinate s d a pick) :=
  shape_pt fun ⟨c, p⟩ => by
    dsimp only
    split
    · exact .error _ (by decide)
    · exact .r _ _ hd

/-- Everything a completion step can do. -/
theorem exec_effect {i : Instr} {s t : State} (h : exec i s = .next t) : Effect i s t := by
  cases i with
  | nop => cases h; exact .bare rfl
  | mov d a => cases h; exact .wroteR _ _ rfl
  | ldi d imm => cases h; exact .wroteR _ _ rfl
  | ldc d k =>
    refine effect_of_shape ?_ h
    split
    · exact .r _ _ rfl
    · exact .error _ (by decide)
  | intEq a b => cases h; exact .wroteT _ rfl
  | intOdd a => cases h; exact .wroteT _ rfl
  | feNew d a sel =>
    refine effect_of_shape ?_ h
    split
    · exact .r _ _ rfl
    · split
      · exact .error _ (by decide)
      · split
        · exact .error _ (by decide)
        · exact .r _ _ rfl
  | feAdd d a b => exact effect_of_shape (shape_fieldBinary rfl) h
  | feSub d a b => exact effect_of_shape (shape_fieldBinary rfl) h
  | feMul d a b => exact effect_of_shape (shape_fieldBinary rfl) h
  | fePow d a b neg => exact effect_of_shape (shape_fe fun _ => .r _ _ rfl) h
  | feInv d a => exact effect_of_shape (shape_fe fun _ => .r _ _ rfl) h
  | feDiv d a b => exact effect_of_shape (shape_fieldBinary rfl) h
  | feSmul d a b neg => exact effect_of_shape (shape_fe fun _ => .r _ _ rfl) h
  | feSqrt d a =>
    refine effect_of_shape (shape_fe fun x => ?_) h
    split
    · exact .error _ (by decide)
    · exact .r _ _ rfl
  | feEq a b => exact effect_of_shape (shape_fe fun _ => shape_fe fun _ => .t _ rfl) h
  | ptInf d sel => exact effect_of_shape (shape_selectCurve fun _ => .q _ _ rfl) h
  | ptGen d => cases h; exact .wroteQ _ _ rfl
  | ptNew d a b sel =>
    refine effect_of_shape (shape_selectCurve fun c => shape_fe fun x => shape_fe fun y => ?_) h
    split
    · exact .error _ (by decide)
    · split
      · exact .error _ (by decide)
      · exact .q _ _ rfl
  | ptAdd d a b =>
    refine effect_of_shape (shape_pt fun ⟨c1, p1⟩ => shape_pt fun ⟨c2, p2⟩ => ?_) h
    dsimp only
    split
    · exact .error _ (by decide)
    · exact .q _ _ rfl
  | ptMul d a b neg =>
    refine effect_of_shape (shape_pt fun ⟨c, p⟩ => ?_) h
    dsimp only
    split
    · exact .error _ (by decide)
    · exact .q _ _ rfl
  | ptEq a b => exact effect_of_shape (shape_pt fun ⟨_, _⟩ => shape_pt fun ⟨_, _⟩ => .t _ rfl) h
  | ptIsInf a => exact effect_of_shape (shape_pt fun ⟨_, _⟩ => .t _ rfl) h
  | ptGetX d a => exact effect_of_shape (shape_coordinate rfl) h
  | ptGetY d a => exact effect_of_shape (shape_coordinate rfl) h
  | ptMov d a => cases h; exact .wroteQ _ _ rfl
  | ptDeser d a b pfx =>
    refine effect_of_shape ?_ h
    dsimp only
    repeat' split
    all_goals first | exact .q _ _ rfl | exact .error _ (by decide)

/-- `complete` is the recorded `ILLEGAL` or `exec` of the decoded command. -/
theorem complete_eq (s : State) :
    (∃ i, decode s.cmd = .ok i ∧ complete s = exec i s) ∨
      (∃ e, decode s.cmd = .error e ∧ complete s = .next (s.raise .illegal)) := by
  unfold complete State.fetch
  cases h : decode s.cmd with
  | ok i => exact .inl ⟨i, rfl, rfl⟩
  | error e => exact .inr ⟨e, rfl, rfl⟩

/-- Every command completes in every state. -/
theorem exec_total (i : Instr) (s : State) : ∃ t, exec i s = .next t := by
  cases i <;> first | exact conclude_next _ _ | exact ⟨_, rfl⟩

/-- The completion step always answers a next state. -/
theorem complete_total (s : State) : ∃ t, complete s = .next t := by
  rcases complete_eq s with ⟨i, _, h⟩ | ⟨e, _, h⟩
  · rw [h]; exact exec_total i s
  · exact ⟨_, h⟩

/-- A step answers a next state whenever the reset input is released: only a host access during reset is refused. -/
theorem step_total (s : State) (h : s.rst = false) : ∃ t, step s = .next t := by
  have turn : ∀ u : State, ∃ t, engineTurn u = .next t := fun u => by
    unfold engineTurn
    split
    · exact complete_total u
    · exact ⟨u, rfl⟩
  unfold step
  split
  · exact turn _
  · exact turn _
  · exact ⟨_, rfl⟩
  · simp [h]

end Sys2Proof.Machine
end

