-- ==== Sys2Proof/Laws/Invariant.lean ====
section
/-! SUPPORT. The invariants of Safety.lean as checks that can be evaluated on a concrete state. -/

namespace Sys2Proof.Machine

/-- `FieldRegOk` as a check. -/
def fieldRegCheck (s : State) (x : FieldReg) : Bool :=
  match x.t with
  | .raw => true
  | .p => decide (x.v.toNat < P)
  | .n => decide (x.v.toNat < N)
  | .m => decide (x.v.toNat < s.mod.toNat) && s.validmod

theorem fieldRegOk_of_check {s : State} {x : FieldReg} (h : fieldRegCheck s x = true) : FieldRegOk s x := by
  obtain ⟨v, t⟩ := x
  cases t <;> simp_all [fieldRegCheck, FieldRegOk, State.modof]

/-- `PointRegOk` as a check. -/
def pointRegCheck (s : State) (x : PointReg) : Bool :=
  match x.c with
  | none => !x.inf && decide (x.x = 0) && decide (x.y = 0)
  | some c =>
    (if x.inf then decide (x.x = 0) && decide (x.y = 0)
      else decide (x.x.toNat < (s.coef c).m) && decide (x.y.toNat < (s.coef c).m)) &&
    (decide (c = .secp) ||
      (s.validmod && decide (s.ca.toNat < s.mod.toNat) && decide (s.cb.toNat < s.mod.toNat)))

theorem pointRegOk_of_check {s : State} {x : PointReg} (h : pointRegCheck s x = true) : PointRegOk s x := by
  obtain ⟨c, inf, x, y⟩ := x
  cases c with
  | none => simp_all [pointRegCheck, PointRegOk]
  | some c => cases c <;> cases inf <;> simp_all [pointRegCheck, PointRegOk]

/-- `PointRegOnCurve` as a check. -/
def onCurveCheck (s : State) (x : PointReg) : Bool :=
  match x.c with
  | none => true
  | some c => x.inf || !(decide (c = .secp) || s.userRegular) || onCurve (s.coef c) x.x.toNat x.y.toNat

theorem onCurve_of_check {s : State} {x : PointReg} (h : onCurveCheck s x = true) : PointRegOnCurve s x := by
  intro c hc hi hr
  simp only [onCurveCheck, hc, hi] at h
  rcases hr with rfl | hr <;> simp_all

/-- `State.Inv` of a state whose reset input is released, register by register. -/
theorem inv_of_checks {s : State} (hr : ∀ i, fieldRegCheck s (s.getR i) = true)
    (hq : ∀ j, pointRegCheck s (s.getQ j) = true) (he : s.err = false ↔ s.errcode = .none)
    (hb : s.busy = true → s.done = false ∧ s.err = false) (hrst : s.rst = false) : s.Inv :=
  ⟨fun i => fieldRegOk_of_check (hr i), fun j => pointRegOk_of_check (hq j), he, hb, fun h => by rw [hrst] at h; cases h⟩

end Sys2Proof.Machine
end

