-- ==== Sys2Proof/Laws/PerInstr.lean ====
section
/-! SUPPORT. Per-instruction laws, one lemma per constructor: the encoding of a well-formed command meets the mask and
match of its own row of 30_encoding.md R118. -/

namespace Sys2Proof.Laws.EncodingMeetsRow

/-- The word of a well-formed command, under the mask of its row, is the row's match. -/
def Statement (i : Instr) : Prop := i.WellFormed → encode i &&& i.mask = i.pattern

theorem nop : Statement .nop := fun _ =>
  assemble_meets 0x01 15 15 15 3 1 0xFF rfl rfl rfl rfl rfl rfl

theorem mov (d a : RIdx) : Statement (.mov d a) := fun _ =>
  assemble_meets 0x02 0 0 15 3 1 0xFF BitVec.and_zero BitVec.and_zero rfl rfl rfl rfl

theorem ldi (d : RIdx) (imm : BitVec 16) : Statement (.ldi d imm) := fun _ =>
  assembleK_meets 0x03 0x0 0x0 BitVec.and_zero BitVec.and_zero

theorem ldc (d : RIdx) (k : BitVec 16) : Statement (.ldc d k) := fun h =>
  assembleK_meets 0x04 0x0 0xFFFC BitVec.and_zero (constIndex_and_high k h)

theorem intEq (a b : RIdx) : Statement (.intEq a b) := fun _ =>
  assemble_meets 0x05 15 0 0 3 1 0xFF rfl BitVec.and_zero BitVec.and_zero rfl rfl rfl

theorem intOdd (a : RIdx) : Statement (.intOdd a) := fun _ =>
  assemble_meets 0x06 15 0 15 3 1 0xFF rfl BitVec.and_zero rfl rfl rfl rfl

theorem feNew (d a : RIdx) (sel : Tag) : Statement (.feNew d a sel) := fun _ =>
  assemble_meets 0x10 0 0 15 0 1 0xFF BitVec.and_zero BitVec.and_zero rfl BitVec.and_zero rfl rfl

theorem feAdd (d a b : RIdx) : Statement (.feAdd d a b) := fun _ =>
  assemble_meets 0x11 0 0 0 3 1 0xFF BitVec.and_zero BitVec.and_zero BitVec.and_zero rfl rfl rfl

theorem feSub (d a b : RIdx) : Statement (.feSub d a b) := fun _ =>
  assemble_meets 0x12 0 0 0 3 1 0xFF BitVec.and_zero BitVec.and_zero BitVec.and_zero rfl rfl rfl

theorem feMul (d a b : RIdx) : Statement (.feMul d a b) := fun _ =>
  assemble_meets 0x13 0 0 0 3 1 0xFF BitVec.and_zero BitVec.and_zero BitVec.and_zero rfl rfl rfl

theorem fePow (d a b : RIdx) (neg : Bool) : Statement (.fePow d a b neg) := fun _ =>
  assemble_meets 0x14 0 0 0 3 0 0xFF BitVec.and_zero BitVec.and_zero BitVec.and_zero rfl BitVec.and_zero rfl

theorem feInv (d a : RIdx) : Statement (.feInv d a) := fun _ =>
  assemble_meets 0x15 0 0 15 3 1 0xFF BitVec.and_zero BitVec.and_zero rfl rfl rfl rfl

theorem feDiv (d a b : RIdx) : Statement (.feDiv d a b) := fun _ =>
  assemble_meets 0x16 0 0 0 3 1 0xFF BitVec.and_zero BitVec.and_zero BitVec.and_zero rfl rfl rfl

theorem feSmul (d a b : RIdx) (neg : Bool) : Statement (.feSmul d a b neg) := fun _ =>
  assemble_meets 0x17 0 0 0 3 0 0xFF BitVec.and_zero BitVec.and_zero BitVec.and_zero rfl BitVec.and_zero rfl

theorem feSqrt (d a : RIdx) : Statement (.feSqrt d a) := fun _ =>
  assemble_meets 0x18 0 0 15 3 1 0xFF BitVec.and_zero BitVec.and_zero rfl rfl rfl rfl

theorem feEq (a b : RIdx) : Statement (.feEq a b) := fun _ =>
  assemble_meets 0x19 15 0 0 3 1 0xFF rfl BitVec.and_zero BitVec.and_zero rfl rfl rfl

theorem ptInf (d : QIdx) (sel : BitVec 2) : Statement (.ptInf d sel) := fun h =>
  assemble_meets 0x20 8 15 15 2 1 0xFF (qBits_and_8 d) rfl rfl (curveSelect_and_2 sel h) rfl rfl

theorem ptGen (d : QIdx) : Statement (.ptGen d) := fun _ =>
  assemble_meets 0x21 8 15 15 3 1 0xFF (qBits_and_8 d) rfl rfl rfl rfl rfl

theorem ptNew (d : QIdx) (a b : RIdx) (sel : BitVec 2) : Statement (.ptNew d a b sel) := fun h =>
  assemble_meets 0x22 8 0 0 2 1 0xFF (qBits_and_8 d) BitVec.and_zero BitVec.and_zero (curveSelect_and_2 sel h) rfl rfl

theorem ptAdd (d a b : QIdx) : Statement (.ptAdd d a b) := fun _ =>
  assemble_meets 0x23 8 8 8 3 1 0xFF (qBits_and_8 d) (qBits_and_8 a) (qBits_and_8 b) rfl rfl rfl

theorem ptMul (d : QIdx) (a : RIdx) (b : QIdx) (neg : Bool) : Statement (.ptMul d a b neg) := fun _ =>
  assemble_meets 0x24 8 0 8 3 0 0xFF (qBits_and_8 d) BitVec.and_zero (qBits_and_8 b) rfl BitVec.and_zero rfl

theorem ptEq (a b : QIdx) : Statement (.ptEq a b) := fun _ =>
  assemble_meets 0x25 15 8 8 3 1 0xFF rfl (qBits_and_8 a) (qBits_and_8 b) rfl rfl rfl

theorem ptIsInf (a : QIdx) : Statement (.ptIsInf a) := fun _ =>
  assemble_meets 0x26 15 8 15 3 1 0xFF rfl (qBits_and_8 a) rfl rfl rfl rfl

theorem ptGetX (d : RIdx) (a : QIdx) : Statement (.ptGetX d a) := fun _ =>
  assemble_meets 0x27 0 8 15 3 1 0xFF BitVec.and_zero (qBits_and_8 a) rfl rfl rfl rfl

theorem ptGetY (d : RIdx) (a : QIdx) : Statement (.ptGetY d a) := fun _ =>
  assemble_meets 0x28 0 8 15 3 1 0xFF BitVec.and_zero (qBits_and_8 a) rfl rfl rfl rfl

theorem ptMov (d a : QIdx) : Statement (.ptMov d a) := fun _ =>
  assemble_meets 0x29 8 8 15 3 1 0xFF (qBits_and_8 d) (qBits_and_8 a) rfl rfl rfl rfl

theorem ptDeser (d : QIdx) (a b : RIdx) (pfx : BitVec 8) : Statement (.ptDeser d a b pfx) := fun _ =>
  assemble_meets 0x2A 8 0 0 3 1 0x0 (qBits_and_8 d) BitVec.and_zero BitVec.and_zero rfl rfl BitVec.and_zero

end Sys2Proof.Laws.EncodingMeetsRow
end

