-- ==== Sys2Proof/Laws/Port.lean ====
section
/-! SUPPORT. The address map at the offsets 20_memory.md R71 names, the words of a 256-bit value, and what a step can
do at each kind of event. -/

namespace Sys2Proof.Machine

/-! ### The address map (R71) -/

theorem locate_mod : ∀ k : Fin 8, locate (0x020 + 4 * k.val) = .mod k := by decide
theorem locate_ca : ∀ k : Fin 8, locate (0x040 + 4 * k.val) = .ca k := by decide
theorem locate_cb : ∀ k : Fin 8, locate (0x060 + 4 * k.val) = .cb k := by decide
theorem locate_reg : ∀ (i : Fin 16) (k : Fin 8), locate (0x100 + 0x20 * i.val + 4 * k.val) = .reg i k := by
  decide +kernel
theorem locate_qx : ∀ (j k : Fin 8), locate (0x400 + 0x80 * j.val + 4 * k.val) = .qx j k := by decide +kernel
theorem locate_qy : ∀ (j k : Fin 8), locate (0x400 + 0x80 * j.val + 0x20 + 4 * k.val) = .qy j k := by decide +kernel
theorem locate_qstat : ∀ j : Fin 8, locate (0x440 + 0x80 * j.val) = .qstat j := by decide

/-! ### Words (R72) -/

theorem getWord_getLsbD (x : Word256) (k : Fin 8) (n : Nat) (h : n < 32) :
    (getWord x k).getLsbD n = x.getLsbD (wordLo k + n) := by
  simp [getWord, h]

/-- The bits of a value one of whose words was replaced. -/
theorem setWord_getLsbD (x : Word256) (k : Fin 8) (v : Word) (n : Nat) (h : n < 256) :
    (setWord x k v).getLsbD n =
      if wordLo k ≤ n ∧ n < wordLo k + 32 then v.getLsbD (n - wordLo k) else x.getLsbD n := by
  simp only [setWord, BitVec.getLsbD_or, BitVec.getLsbD_and, BitVec.getLsbD_not, BitVec.getLsbD_shiftLeft,
    BitVec.getLsbD_setWidth, BitVec.getLsbD_allOnes]
  by_cases h1 : n < wordLo k
  · simp [h, h1, show ¬ wordLo k ≤ n by omega]
  · by_cases h2 : n - wordLo k < 32
    · simp [h, h1, h2, show n - wordLo k < 256 by omega, show wordLo k ≤ n by omega,
        show n < wordLo k + 32 by omega]
    · have hv : v.getLsbD (n - wordLo k) = false := BitVec.getLsbD_of_ge _ _ (by omega)
      simp [h, h1, h2, hv, show ¬ n < wordLo k + 32 by omega]

/-- A word that was written reads back. -/
theorem getWord_setWord_same (x : Word256) (k : Fin 8) (v : Word) : getWord (setWord x k v) k = v := by
  apply BitVec.eq_of_getLsbD_eq
  intro n hn
  have hk : wordLo k + n < 256 := by simp only [wordLo]; omega
  rw [getWord_getLsbD _ _ _ hn, setWord_getLsbD _ _ _ _ hk, if_pos ⟨by omega, by omega⟩, Nat.add_sub_cancel_left]

/-- The other words stay as they were. -/
theorem getWord_setWord_other (x : Word256) {k l : Fin 8} (hkl : l ≠ k) (v : Word) :
    getWord (setWord x k v) l = getWord x l := by
  apply BitVec.eq_of_getLsbD_eq
  intro n hn
  have hl : wordLo l + n < 256 := by simp only [wordLo]; omega
  have hne : l.val ≠ k.val := fun e => hkl (Fin.ext e)
  rw [getWord_getLsbD _ _ _ hn, setWord_getLsbD _ _ _ _ hl, if_neg, ← getWord_getLsbD _ _ _ hn]
  simp only [wordLo]; omega

/-- A value is determined by its eight words. -/
theorem eq_of_getWord_eq {x y : Word256} (h : ∀ k, getWord x k = getWord y k) : x = y := by
  apply BitVec.eq_of_getLsbD_eq
  intro n hn
  have hk := congrArg (fun w => w.getLsbD (n % 32)) (h ⟨7 - n / 32, by omega⟩)
  simp only [getWord_getLsbD _ _ _ (Nat.mod_lt n (by decide : 0 < 32))] at hk
  have : wordLo ⟨7 - n / 32, by omega⟩ + n % 32 = n := by simp only [wordLo]; omega
  rwa [this] at hk

/-! ### Steps -/

theorem step_access {s : State} {a : Access} {rest : List Event} (hi : s.inputs = .access a :: rest)
    (hr : s.rst = false) : step s = .next (hostAccess a { s with inputs := rest }) := by
  simp [step, hi, hr]

theorem step_refused {s : State} {a : Access} {rest : List Event} (hi : s.inputs = .access a :: rest)
    (hr : s.rst = true) : step s = .refused .accessDuringReset := by
  simp [step, hi, hr]

theorem step_rst {s : State} {level : Bool} {rest : List Event} (hi : s.inputs = .rst level :: rest) :
    step s = .next (({ s with inputs := rest } : State).driveReset level) := by
  simp [step, hi]

theorem step_engine {s : State} {rest : List Event} (hi : s.inputs = .engine :: rest) :
    step s = engineTurn { s with inputs := rest } := by
  simp [step, hi]

theorem step_empty {s : State} (hi : s.inputs = []) : step s = engineTurn s := by
  simp [step, hi]

theorem engineTurn_busy {s : State} (hb : s.busy = true) (hr : s.rst = false) : engineTurn s = complete s := by
  simp [engineTurn, hb, hr]

theorem engineTurn_idle {s : State} (h : s.busy = false ∨ s.rst = true) : engineTurn s = .next s := by
  rcases h with h | h <;> simp [engineTurn, h]

/-- A run takes its first step and goes on. -/
theorem run_next {s t : State} (k : Nat) (h : step s = .next t) :
    Host.Core.run Sys2Proof.core (k + 1) s = Host.Core.run Sys2Proof.core k t := by
  simp only [Host.Core.run, Sys2Proof.core, h]

end Sys2Proof.Machine
end

