-- ==== Sys2Proof/Tests/Slice0.lean ====
section
/-! SUPPORT. Tests of the model on the spec's own examples (95_test_vectors.md unless a test names another file), and for
every statement with hypotheses a concrete state that meets them. -/

open Sys2Proof Sys2Proof.Machine

namespace Sys2Proof.Tests

set_option Elab.async false

/-! ## WellFormed: an ill-formed term for each check (30_encoding.md R113, R116) -/

theorem test_illformed_ldc : ¬ (Instr.ldc 0 4).WellFormed := by decide
theorem test_illformed_ldc_high : ¬ (Instr.ldc 0 0xFFFF).WellFormed := by decide
theorem test_illformed_ptInf : ¬ (Instr.ptInf 0 0b10).WellFormed := by decide
theorem test_illformed_ptNew : ¬ (Instr.ptNew 2 5 6 0b11).WellFormed := by decide
theorem test_wellformed_ldc : (Instr.ldc 15 3).WellFormed := by decide
theorem test_wellformed_ptNew : (Instr.ptNew 7 15 15 0b01).WellFormed := by decide

/-! ## Decoding: a word of every row, written out from R111 and R117 (many are the words of section 2.1 and R124) -/

theorem test_decode_nop : decodeTableWord 32 0x01000000 = some .nop := by decide
theorem test_decode_mov : decodeTableWord 32 0x02210000 = some (.mov 2 1) := by decide
theorem test_decode_ldi : decodeTableWord 32 0x03F0FFFF = some (.ldi 15 0xFFFF) := by decide
theorem test_decode_ldc : decodeTableWord 32 0x04000003 = some (.ldc 0 3) := by decide
theorem test_decode_intEq : decodeTableWord 32 0x05091000 = some (.intEq 9 1) := by decide
theorem test_decode_intOdd : decodeTableWord 32 0x06020000 = some (.intOdd 2) := by decide
theorem test_decode_feNew : decodeTableWord 32 0x10100C00 = some (.feNew 1 0 .m) := by decide
theorem test_decode_feAdd : decodeTableWord 32 0x11312000 = some (.feAdd 3 1 2) := by decide
theorem test_decode_feSub : decodeTableWord 32 0x12312000 = some (.feSub 3 1 2) := by decide
theorem test_decode_feMul : decodeTableWord 32 0x13211000 = some (.feMul 2 1 1) := by decide
theorem test_decode_fePow : decodeTableWord 32 0x14312200 = some (.fePow 3 1 2 true) := by decide
theorem test_decode_feInv : decodeTableWord 32 0x15210000 = some (.feInv 2 1) := by decide
theorem test_decode_feDiv : decodeTableWord 32 0x16312000 = some (.feDiv 3 1 2) := by decide
theorem test_decode_feSmul : decodeTableWord 32 0x17201200 = some (.feSmul 2 0 1 true) := by decide
theorem test_decode_feSqrt : decodeTableWord 32 0x18210000 = some (.feSqrt 2 1) := by decide
theorem test_decode_feEq : decodeTableWord 32 0x19045000 = some (.feEq 4 5) := by decide
theorem test_decode_ptInf : decodeTableWord 32 0x20000400 = some (.ptInf 0 1) := by decide
theorem test_decode_ptGen : decodeTableWord 32 0x21700000 = some (.ptGen 7) := by decide
theorem test_decode_ptNew : decodeTableWord 32 0x22256400 = some (.ptNew 2 5 6 1) := by decide
theorem test_decode_ptAdd : decodeTableWord 32 0x23312000 = some (.ptAdd 3 1 2) := by decide
theorem test_decode_ptMul : decodeTableWord 32 0x240F0000 = some (.ptMul 0 15 0 false) := by decide
theorem test_decode_ptMul_neg : decodeTableWord 32 0x24100200 = some (.ptMul 1 0 0 true) := by decide
theorem test_decode_ptEq : decodeTableWord 32 0x25034000 = some (.ptEq 3 4) := by decide
theorem test_decode_ptIsInf : decodeTableWord 32 0x26010000 = some (.ptIsInf 1) := by decide
theorem test_decode_ptGetX : decodeTableWord 32 0x27110000 = some (.ptGetX 1 1) := by decide
theorem test_decode_ptGetY : decodeTableWord 32 0x28210000 = some (.ptGetY 2 1) := by decide
theorem test_decode_ptMov : decodeTableWord 32 0x29310000 = some (.ptMov 3 1) := by decide
theorem test_decode_ptDeser : decodeTableWord 32 0x2A2100FF = some (.ptDeser 2 1 0 0xFF) := by decide

/-- Section 2.1's illegal words, the first for their opcode. -/
theorem test_illegal_opcodes :
    [0x00000000, 0x07000000, 0x0F000000, 0x1A000000, 0x2B000000, 0xFF000000].all
      (fun w => (decodeTableWord 32 w).isNone) = true := by decide

/-- Section 2.1's words with a 1 in a must-be-zero bit. -/
theorem test_illegal_fields :
    [0x01000001, 0x01F00000, 0x11312100, 0x13312200, 0x13312400, 0x20000800, 0x22256C00, 0x23823000, 0x23428000,
      0x24F00000, 0x04000004, 0x0400FFFF, 0x030F0001, 0x05112000, 0x2A210402, 0x29390000].all
      (fun w => (decodeTableWord 32 w).isNone) = true := by decide

/-- The reasons the decoder names. -/
theorem test_illegal_reasons :
    (match decode 0x07000000 with | .error e => e | .ok _ => .mustBeZero 0) = .unassignedOpcode 0x07 ∧
    (match decode 0x11312100 with | .error e => e | .ok _ => .mustBeZero 0) = .mustBeZero 0x100 := by decide

/-! ## Commands: one step from the reset state with a few registers set -/

/-- Field registers set. -/
def withR (s : State) (l : List (RIdx × FieldReg)) : State := l.foldl (fun u x => u.setR x.1 x.2) s

/-- Point registers set. -/
def withQ (s : State) (l : List (QIdx × PointReg)) : State := l.foldl (fun u x => u.setQ x.1 x.2) s

/-- The reset state with a user modulus and some field registers. -/
def regs (m : Word256) (l : List (RIdx × FieldReg)) : State := withR { State.reset with mod := m } l

/-- The curve of section 2.5: `y^2 = x^3 + 7` over the field of 223. -/
def f223 : State := { State.reset with mod := 223, cb := 7 }

/-- The user curve set to secp256k1. -/
def userSecp : State := { State.reset with mod := BitVec.ofNat 256 P, cb := 7 }

/-- A field register holding an integer. -/
def rv (v : Nat) (t : Tag) : FieldReg := ⟨BitVec.ofNat 256 v, t⟩

/-- An affine point. -/
def aff (c : Curve) (x y : Nat) : PointReg := ⟨some c, false, BitVec.ofNat 256 x, BitVec.ofNat 256 y⟩

/-- The point at infinity of a curve. -/
def infOf (c : Curve) : PointReg := ⟨some c, true, 0, 0⟩

/-- `G` -/
def gen : PointReg := aff .secp Gx Gy

/-- The state after the command word `w`. -/
def after (s : State) (w : Nat) : State :=
  match step (s.withFetchWord 32 w) with
  | .next t => t
  | .fault _ => State.reset
  | .refused _ => State.reset

/-- The command `w` ended in the error `e`, and field register `i` and point register `j` are as before. -/
def failsWith (s : State) (w : Nat) (e : ErrCode) (i : RIdx) (j : QIdx) : Prop :=
  (after s w).err = true ∧ (after s w).errcode = e ∧ (after s w).errcmd = BitVec.ofNat 32 w ∧
    (after s w).busy = false ∧ (after s w).done = true ∧ (after s w).getR i = s.getR i ∧ (after s w).getQ j = s.getQ j

theorem test_nop : after State.reset 0x01000000 = { State.reset with cmd := 0x01000000, done := true } := by
  decide +kernel

theorem test_mov : (after (regs 7 [(1, rv 5 .m)]) 0x02210000).getR 2 = rv 5 .m := by decide +kernel

theorem test_ldi : (after (regs 0 [(2, rv 9 .p)]) 0x0320BEEF).getR 2 = rv 48879 .raw := by decide +kernel

theorem test_ldc_n : (after State.reset 0x04400001).getR 4 =
    rv 0xFFFFFFFFFFFFFFFFFFFFFFFFFFFFFFFEBAAEDCE6AF48A03BBFD25E8CD0364141 .raw := by decide +kernel
theorem test_ldc_gy : (after State.reset 0x04400003).getR 4 =
    rv 0x483ADA7726A3C4655DA4FBFC0E1108A8FD17B448A68554199C47D08FFB10D4B8 .raw := by decide +kernel

theorem test_intEq_ignores_tags :
    (after (regs 0 [(1, rv 5 .p), (2, rv 5 .n)]) 0x05012000).t = true := by decide +kernel
theorem test_intEq_clears :
    (after ((regs 0 [(1, rv 5 .raw), (2, rv 6 .raw)]).setT true) 0x05012000).t = false := by decide +kernel

theorem test_intOdd : (after (regs 0 [(2, rv 0xBEEF .raw)]) 0x06020000).t = true := by decide +kernel
theorem test_intOdd_even : (after ((regs 0 [(2, rv (P - 1) .p)]).setT true) 0x06020000).t = false := by decide +kernel

theorem test_feNew : (after (regs 7 [(0, rv 6 .raw)]) 0x10100C00).getR 1 = rv 6 .m := by decide +kernel
theorem test_feNew_errors :
    failsWith (regs 3 [(0, rv 7 .raw)]) 0x10100C00 .range 1 0 ∧
    failsWith (regs 8 [(0, rv 7 .raw)]) 0x10100C00 .modulus 1 0 ∧
    failsWith (regs 0 [(0, rv N .raw)]) 0x10100800 .range 1 0 := by
  unfold failsWith; decide +kernel

theorem test_feAdd : (after (regs 0 [(1, rv (P - 1) .p), (2, rv 2 .p)]) 0x11312000).getR 3 = rv 1 .p ∧
    (after (regs (BitVec.ofNat 256 P) [(1, rv 3 .m), (2, rv 4 .p)]) 0x11312000).getR 3 = rv 7 .m := by decide +kernel
theorem test_feAdd_errors :
    failsWith (regs 0 [(1, rv 1 .p), (2, rv 1 .n)]) 0x11312000 .fieldMismatch 3 0 ∧
    failsWith (regs 0 [(1, rv 1 .p)]) 0x11312000 .operand 3 0 := by
  unfold failsWith; decide +kernel

theorem test_feSub : (after (regs 0 [(1, rv 2 .n), (2, rv 5 .n)]) 0x12312000).getR 3 =
    rv 0xFFFFFFFFFFFFFFFFFFFFFFFFFFFFFFFEBAAEDCE6AF48A03BBFD25E8CD036413E .n := by decide +kernel

theorem test_feMul : (after (regs 0 [(1, rv (2 ^ 255) .p)]) 0x13211000).getR 2 =
    rv 0x400000000000000000000000000000000000000000000000400001E84003A334 .p := by decide +kernel

theorem test_fePow : (after (regs 0 [(1, rv 2 .p), (0, rv (2 ^ 256 - 1) .raw)]) 0x14210000).getR 2 =
    rv 0x8DEF9A2D066170A549DA6A66080937DB048EFE08772C8F7C20E351DFB71856E0 .p := by decide +kernel
theorem test_fePow_small :
    (after (regs 7 [(1, rv 3 .m), (0, rv 2 .raw)]) 0x14210200).getR 2 = rv 4 .m ∧
    (after (regs 7 [(1, rv 0 .m), (0, rv 6 .raw)]) 0x14210000).getR 2 = rv 1 .m ∧
    (after (regs 15 [(1, rv 2 .m), (0, rv 1 .raw)]) 0x14210200).getR 2 = rv 2 .m := by decide +kernel

theorem test_feInv : (after (regs 0 [(1, rv 2 .n)]) 0x15210000).getR 2 =
    rv 0x7FFFFFFFFFFFFFFFFFFFFFFFFFFFFFFF5D576E7357A4501DDFE92F46681B20A1 .n := by decide +kernel
theorem test_feInv_quirks : (after (regs 0 [(1, rv 0 .p)]) 0x15210000).getR 2 = rv 0 .p ∧
    (after (regs 15 [(1, rv 3 .m)]) 0x15210000).getR 2 = rv 3 .m := by decide +kernel

theorem test_feDiv : (after (regs 0 [(1, rv 1 .p), (2, rv 3 .p)]) 0x16312000).getR 3 =
    rv 0xAAAAAAAAAAAAAAAAAAAAAAAAAAAAAAAAAAAAAAAAAAAAAAAAAAAAAAA9FFFFFD75 .p := by decide +kernel
theorem test_feDiv_by_zero : (after (regs 7 [(1, rv 2 .m), (2, rv 0 .m)]) 0x16312000).getR 3 = rv 0 .m := by
  decide +kernel

theorem test_feSmul : (after (regs 7 [(0, rv 2 .raw), (1, rv 3 .m)]) 0x17201200).getR 2 = rv 1 .m ∧
    (after (regs 0 [(0, rv 5 .n), (1, rv 1 .p)]) 0x17201000).getR 2 = rv 5 .p := by decide +kernel
theorem test_feSmul_wide : (after (regs 0 [(0, rv (2 ^ 256 - 1) .raw), (1, rv 1 .n)]) 0x17201000).getR 2 =
    rv 0x14551231950B75FC4402DA1732FC9BEBE .n := by decide +kernel

theorem test_feSqrt : (after (regs 0 [(1, rv 3 .p)]) 0x18210000).getR 2 =
    rv 0x0A2D2BA93507F1DF233770C2A797962CC61F6D15DA14ECD47D8D27AE1CD5F852 .p := by decide +kernel
theorem test_feSqrt_fields : (after (regs (BitVec.ofNat 256 P) [(1, rv 4 .m)]) 0x18210000).getR 2 = rv 2 .m ∧
    failsWith (regs 0 [(1, rv 4 .n)]) 0x18210000 .operand 2 0 := by unfold failsWith; decide +kernel

theorem test_feEq : (after (regs (BitVec.ofNat 256 P) [(1, rv 5 .p), (2, rv 5 .m)]) 0x19012000).t = true ∧
    (after ((regs 0 [(1, rv 5 .p), (2, rv 5 .n)]).setT true) 0x19012000).t = false := by decide +kernel
theorem test_feEq_untagged : failsWith ((regs 0 [(1, rv 5 .p)]).setT true) 0x19012000 .operand 1 0 ∧
    (after ((regs 0 [(1, rv 5 .p)]).setT true) 0x19012000).t = true := by unfold failsWith; decide +kernel

theorem test_ptInf : (after f223 0x20700400).getQ 7 = infOf .user ∧
    (after State.reset 0x20000000).getQ 0 = infOf .secp := by decide +kernel
theorem test_ptInf_errors : failsWith State.reset 0x20000400 .modulus 0 0 ∧
    failsWith { State.reset with mod := 7, ca := 7 } 0x20000400 .range 0 0 ∧
    failsWith { State.reset with mod := 223, cb := 300 } 0x20000400 .range 0 0 := by unfold failsWith; decide +kernel

theorem test_ptGen : (after State.reset 0x21000000).getQ 0 = gen := by decide +kernel

theorem test_ptNew : (after (withR f223 [(5, rv 192 .m), (6, rv 105 .m)]) 0x22256400).getQ 2 = aff .user 192 105 ∧
    (after (regs (BitVec.ofNat 256 P) [(5, rv Gx .m), (6, rv Gy .m)]) 0x22256000).getQ 2 = gen := by decide +kernel
theorem test_ptNew_errors :
    failsWith (withR f223 [(5, rv 1 .m), (6, rv 1 .m)]) 0x22256400 .notOnCurve 0 2 ∧
    failsWith (withR f223 [(5, rv 192 .p), (6, rv 105 .m)]) 0x22256400 .fieldMismatch 0 2 ∧
    failsWith State.reset 0x22256400 .modulus 0 2 := by unfold failsWith; decide +kernel

theorem test_ptAdd :
    (after (withQ f223 [(2, aff .user 192 105), (3, aff .user 17 56)]) 0x23423000).getQ 4 = aff .user 170 142 ∧
    (after (withQ f223 [(2, aff .user 192 105)]) 0x23422000).getQ 4 = aff .user 49 71 ∧
    (after (withQ f223 [(2, aff .user 192 105), (3, aff .user 192 118)]) 0x23423000).getQ 4 = infOf .user := by
  decide +kernel
theorem test_ptAdd_secp :
    (after (withQ userSecp [(0, gen), (1, aff .user Gx Gy)]) 0x23401000).getQ 4 = aff .secp
      0xC6047F9441ED7D6D3045406E95C07CD85C778E4B8CEF3CA7ABAC09B95C709EE5
      0x1AE168FEA63DC339A3C58419466CEAEEF7F632653266D0E1236431A950CFE52A ∧
    failsWith (withQ f223 [(0, gen), (2, aff .user 192 105)]) 0x23402000 .curveMismatch 0 4 := by
  unfold failsWith; decide +kernel

theorem test_ptMul_known_vector : (after (withQ (regs 0 [(0, rv 7 .raw)]) [(0, gen)]) 0x24100000).getQ 1 = aff .secp
    0x5CBDF0646E5DB4EAA398F365F2EA7A0E3D419B7E0330E39CE92BDDEDCAC4F9BC
    0x6AEBCA40BA255960A3178D6D861A54DBA813D0B813FDE7B5A5082628087264DA := by decide +kernel
theorem test_ptMul_user :
    (after (withQ (withR f223 [(0, rv (2 ^ 256 - 1) .raw)]) [(1, aff .user 47 71)]) 0x24201000).getQ 2 =
      aff .user 139 86 ∧
    failsWith (withQ (withR f223 [(0, rv 1 .raw)]) [(1, aff .user 47 71)]) 0x24201200 .operand 0 2 := by
  unfold failsWith; decide +kernel

theorem test_ptEq : (after (withQ userSecp [(0, infOf .secp), (1, infOf .user)]) 0x25001000).t = true ∧
    (after ((withQ { State.reset with mod := 223 } [(0, infOf .secp), (1, infOf .user)]).setT true) 0x25001000).t =
      false := by decide +kernel

theorem test_ptIsInf : (after (withQ State.reset [(1, infOf .secp)]) 0x26010000).t = true ∧
    (after ((withQ State.reset [(1, gen)]).setT true) 0x26010000).t = false := by decide +kernel

theorem test_ptGetX : (after (withQ State.reset [(1, gen)]) 0x27110000).getR 1 = rv Gx .p := by decide +kernel
theorem test_ptGetX_infinity : failsWith (withQ State.reset [(1, infOf .secp)]) 0x27110000 .infinity 1 1 := by
  unfold failsWith; decide +kernel

theorem test_ptGetY : (after (withQ f223 [(1, aff .user 47 71)]) 0x28210000).getR 2 = rv 71 .m := by decide +kernel
theorem test_ptGetY_none : failsWith State.reset 0x28210000 .operand 2 1 := by unfold failsWith; decide +kernel

theorem test_ptMov : (after (withQ f223 [(1, aff .user 47 71)]) 0x29310000).getQ 3 = aff .user 47 71 ∧
    (after (withQ State.reset [(3, gen)]) 0x29310000).getQ 3 = .empty := by decide +kernel

theorem test_ptDeser : (after (regs 0 [(1, rv 1 .raw)]) 0x2A210003).getQ 2 = aff .secp 1
    0xBDE70DF51939B94C9C24979FA7DD04EBD9B3572DA7802290438AF2A681895441 := by decide +kernel
theorem test_ptDeser_errors :
    failsWith (regs 0 [(1, rv P .raw)]) 0x2A210005 .format 0 2 ∧
    failsWith (regs 0 [(1, rv P .raw)]) 0x2A210002 .range 0 2 ∧
    failsWith (regs 0 [(1, rv 0 .raw)]) 0x2A210002 .notOnCurve 0 2 := by unfold failsWith; decide +kernel

/-! ## The port (section 2.2) -/

/-- The state after one 32-bit write. -/
def write (s : State) (addr : BitVec 11) (v : Word) : State := hostAccess (.write addr 4 v) s

/-- The answer to one 32-bit read. -/
def read (s : State) (addr : BitVec 11) : Response := (hostAccess (.read addr 4) s).resp

theorem test_word_order :
    read (regs 0 [(1, rv 0x00112233445566778899AABBCCDDEEFF0123456789ABCDEFFEDCBA9876543210 .raw)]) 0x120 =
      .data 0x00112233 ∧
    read (regs 0 [(1, rv 0x00112233445566778899AABBCCDDEEFF0123456789ABCDEFFEDCBA9876543210 .raw)]) 0x13C =
      .data 0x76543210 := by decide +kernel

theorem test_write_untags : (write (regs 0 [(1, rv 5 .p)]) 0x13C 6).getR 1 = rv 6 .raw ∧
    (write (regs 0 [(1, rv 5 .p)]) 0x120 0).getR 1 = rv 5 .raw := by decide +kernel

theorem test_rtags : read (regs 0 [(0, rv 3 .p), (1, rv 3 .n), (15, rv 3 .m)]) 0x300 = .data 0xC0000009 := by
  decide +kernel

theorem test_point_window :
    (read (withQ f223 [(0, infOf .secp)]) 0x440 = .data 5 ∧ read (withQ f223 [(1, aff .user 192 105)]) 0x4C0 = .data 2) ∧
    read (withQ f223 [(1, aff .user 192 105)]) 0x49C = .data 0xC0 ∧
    read (withQ f223 [(1, aff .user 192 105)]) 0x4BC = .data 0x69 := by decide +kernel

theorem test_mod_write_invalidates :
    (write (withQ (withR f223 [(2, rv 5 .m)]) [(1, aff .user 192 105)]) 0x03C 223).getR 2 = rv 5 .raw ∧
    (write (withQ (withR f223 [(2, rv 5 .m)]) [(1, aff .user 192 105)]) 0x03C 223).getQ 1 = .empty ∧
    (write (withQ (withR f223 [(2, rv 5 .m)]) [(1, aff .user 192 105)]) 0x07C 7).getR 2 = rv 5 .m ∧
    (write (withQ (withR f223 [(2, rv 5 .m)]) [(1, aff .user 192 105)]) 0x07C 7).getQ 1 = .empty := by decide +kernel

theorem test_busy_port :
    read ((regs 0 [(1, rv (2 ^ 255) .raw)]).accept 0x01000000) 0x120 = .data 0 ∧
    (write ((regs 0 [(1, rv 5 .p)]).accept 0x01000000) 0x120 1).getR 1 = rv 5 .p ∧
    (write ((regs 0 [(1, rv 5 .p)]).accept 0x01000000) 0x120 1).ovr = true := by decide +kernel

theorem test_reserved_offsets : (read State.reset 0x014 = .data 0 ∧ read State.reset 0x444 = .data 0) ∧
    read State.reset 0x000 = .data 0x4C420100 ∧
    write State.reset 0x014 0xFFFFFFFF = { State.reset with resp := .ack } := by decide +kernel

/-- Section 1.3: `STATUS` after the source's scenario. -/
theorem test_status_after_error : (after (regs 3 [(0, rv 7 .raw)]) 0x10100C00).statusWord = 0x00000206 := by
  decide +kernel

/-- Section 2.7: a command offered after a failed one is refused. -/
theorem test_refused_command :
    (write (after State.reset 0x11312000) 0x00C 0x01000000).statusWord = 0x0000070E ∧
    (write (after State.reset 0x11312000) 0x00C 0x01000000).cmd = 0x11312000 ∧
    (write (after State.reset 0x11312000) 0x008 4).statusWord = 0x00000002 ∧
    (write (after State.reset 0x11312000) 0x008 4).errcmd = 0x11312000 := by decide +kernel

/-- Section 2.7: the interrupt line. -/
theorem test_irq :
    (({ after State.reset 0x01000000 with ieDone := true } : State).irq = true ∧
      ({ after State.reset 0x01000000 with ieErr := true } : State).irq = false) ∧
    ({ after State.reset 0x11312000 with ieErr := true } : State).irq = true ∧
    ({ State.reset.accept 0x01000000 with ieDone := true } : State).irq = false := by decide +kernel

/-- Section 2.8: a soft reset while a command is in flight. -/
theorem test_soft_reset :
    write { State.reset.accept 0x24100000 with ieDone := true } 0x004 0x80000003 = { State.reset with resp := .ack } := by
  decide +kernel

/-! ## Witnesses: for every statement with hypotheses, states and operands that meet them -/

/-- The host's next events. -/
def ev (s : State) (l : List Event) : State := { s with inputs := l }

/-- A NOP in flight. -/
def nopBusy : State := State.reset.accept 0x01000000

/-- A command has failed. -/
def failedOnce : State := State.reset.raise .operand

/-- A 32-bit read. -/
def rd (addr : BitVec 11) : Event := .access (.read addr 4)

/-- A 32-bit write. -/
def wr (addr : BitVec 11) (v : Word) : Event := .access (.write addr 4 v)

theorem witness_DecodeFollowsOpcodeTable :
    (0x11FFF000 : Word) &&& (Instr.feAdd 15 15 15).mask = (Instr.feAdd 15 15 15).pattern ∧
    (0x11FFF000 : Word) &&& (Instr.feAdd 0 0 0).mask = (Instr.feAdd 0 0 0).pattern ∧
    ∀ i : Instr, (0 : Word) &&& i.mask ≠ i.pattern :=
  ⟨by decide, by decide, fun i => by
    rw [show (0 : Word) &&& i.mask = 0 from BitVec.zero_and]
    cases i <;> simp [Instr.pattern]⟩

theorem witness_DecodeOfEncode : (Instr.ldc 15 3).WellFormed ∧ (Instr.ptInf 7 1).WellFormed ∧
    (Instr.ptNew 7 15 15 1).WellFormed ∧ (Instr.ptDeser 7 15 15 0xFF).WellFormed := by decide

theorem witness_EncodeOfDecode : decode 0x04F00003 = .ok (.ldc 15 3) ∧ decode 0x22FF0000 = .error (.mustBeZero 0x00800000) := by
  decide

theorem witness_IllFormedWordIsIllegal : ¬ (Instr.ldc 0 4).WellFormed ∧ ¬ (Instr.ptInf 0 2).WellFormed ∧
    ¬ (Instr.ptNew 0 0 0 3).WellFormed := by decide

theorem witness_StepRunsDecodedCommand :
    (nopBusy.busy = true ∧ nopBusy.rst = false ∧ decode nopBusy.cmd = .ok .nop ∧ nopBusy.inputs = []) ∧
    ((ev nopBusy [.engine]).busy = true ∧ (ev nopBusy [.engine]).inputs = .engine :: []) ∧
    decode (BitVec.ofNat 32 0x04400001) = .ok (.ldc 4 1) := by decide

theorem witness_IllegalWordRecordsError :
    let s := State.reset.accept 0x23800000
    (s.busy = true ∧ s.rst = false ∧ decode s.cmd = .error (.mustBeZero 0x00800000) ∧ s.inputs = []) ∧
    (ev s [.engine]).inputs = .engine :: [] := by decide

theorem witness_CommandWriteAcceptance :
    (NextWrite (ev nopBusy [wr 0x00C 5]) 0x00C 5 [] ∧ (ev nopBusy [wr 0x00C 5]).busy = true) ∧
    (NextWrite (ev failedOnce [wr 0x00C 5]) 0x00C 5 [] ∧ (ev failedOnce [wr 0x00C 5]).err = true) ∧
    (NextWrite (ev State.reset [wr 0x00C 5]) 0x00C 5 [] ∧ State.reset.busy = false ∧ State.reset.err = false) :=
  ⟨⟨⟨rfl, rfl⟩, rfl⟩, ⟨⟨rfl, rfl⟩, rfl⟩, ⟨rfl, rfl⟩, rfl, rfl⟩

theorem witness_OnlyDestinationChanges : (∃ t, exec (.ptMov 3 1) State.reset = .next t) ∧
    destR (.ptMov 3 1) ≠ some 15 ∧ destQ (.ptMov 3 1) ≠ some 7 := ⟨⟨_, rfl⟩, by decide, by decide⟩

theorem witness_ErrorsArePrecise : State.reset.err = false ∧
    ∃ t, exec (.feAdd 3 1 2) State.reset = .next t ∧ t.err = true := ⟨rfl, _, rfl, rfl⟩

theorem witness_TestFlagWriters_command :
    ∃ t, exec (.intEq 1 1) State.reset = .next t ∧ t.t ≠ State.reset.t := ⟨_, rfl, by decide +kernel⟩

theorem witness_TestFlagWriters_access :
    let s := ev (State.reset.setT true) [wr 0x004 0x80000000]
    s.inputs = .access (.write 0x004 4 0x80000000) :: [] ∧ ∃ t, step s = .next t ∧ t.t ≠ s.t :=
  ⟨rfl, _, rfl, by decide⟩

theorem witness_StatusWriteClears : NextWrite (ev failedOnce [wr 0x008 4]) 0x008 4 [] := ⟨rfl, rfl⟩

theorem witness_ErrorBlocksCommands :
    failedOnce.err = true ∧ failedOnce.busy = false ∧ (∃ t, step (ev failedOnce [wr 0x00C 0x01000000]) = .next t) ∧
    (∃ t, step (ev failedOnce [wr 0x008 4]) = .next t) ∧ (∃ t, step (ev failedOnce [wr 0x004 0x80000000]) = .next t) ∧
    ∃ t, step (ev failedOnce [.rst true]) = .next t := ⟨rfl, rfl, ⟨_, rfl⟩, ⟨_, rfl⟩, ⟨_, rfl⟩, ⟨_, rfl⟩⟩

theorem witness_InterruptLevel : (∃ t, exec .nop State.reset = .next t) ∧ State.reset.err = false := ⟨⟨_, rfl⟩, rfl⟩

theorem witness_CommandInFlightCompletes :
    let s := ev nopBusy [rd 0x008, .access (.read 3 1)]
    s.busy = true ∧ s.rst = false ∧ ∀ e ∈ s.inputs, ∃ addr size, e = .access (.read addr size) := by
  refine ⟨rfl, rfl, fun e he => ?_⟩
  rcases List.mem_cons.mp he with rfl | he
  · exact ⟨_, _, rfl⟩
  · exact ⟨3, 1, List.mem_singleton.mp he⟩

theorem witness_IdleOperandStateIsStable : State.reset.busy = false ∧
    (∃ t, step (ev State.reset [wr 0x3C 5]) = .next t ∧ t.operands ≠ State.reset.operands) ∧
    ∃ t, step (ev { State.reset with mod := 5 } [.rst true]) = .next t ∧ t.operands ≠ { State.reset.operands with mod := 5 } :=
  ⟨rfl, ⟨_, rfl, by decide +kernel⟩, _, rfl, by decide +kernel⟩

theorem witness_FieldRegisterWindow :
    (NextRead (ev nopBusy [rd 0x2FC]) (0x100 + 0x20 * (15 : RIdx).val + 4 * (7 : Fin 8).val) [] ∧
      NextRead (ev State.reset [rd 0x100]) (0x100 + 0x20 * (0 : RIdx).val + 4 * (0 : Fin 8).val) []) ∧
    (NextWrite (ev nopBusy [wr 0x2FC 1]) (0x100 + 0x20 * (15 : RIdx).val + 4 * (7 : Fin 8).val) 1 [] ∧ nopBusy.busy = true) ∧
    NextWrite (ev State.reset [wr 0x2FC 1]) (0x100 + 0x20 * (15 : RIdx).val + 4 * (7 : Fin 8).val) 1 [] ∧
    State.reset.busy = false := ⟨⟨⟨rfl, rfl⟩, rfl, rfl⟩, ⟨⟨rfl, rfl⟩, rfl⟩, ⟨rfl, rfl⟩, rfl⟩

theorem witness_PointRegisterWindow :
    NextRead (ev State.reset [rd 0x79C]) (0x400 + 0x80 * (7 : QIdx).val + 4 * (7 : Fin 8).val) [] ∧
    NextRead (ev nopBusy [rd 0x7BC]) (0x400 + 0x80 * (7 : QIdx).val + 0x20 + 4 * (7 : Fin 8).val) [] ∧
    NextWrite (ev State.reset [wr 0x400 1]) (0x400 + 0x80 * (0 : QIdx).val + 4 * (0 : Fin 8).val) 1 [] ∧
    NextWrite (ev State.reset [wr 0x7BC 1]) (0x400 + 0x80 * (7 : QIdx).val + 0x20 + 4 * (7 : Fin 8).val) 1 [] :=
  ⟨⟨rfl, rfl⟩, ⟨rfl, rfl⟩, ⟨rfl, rfl⟩, rfl, rfl⟩

theorem witness_ModWindow : NextRead (ev State.reset [rd 0x03C]) (0x020 + 4 * (7 : Fin 8).val) [] ∧
    NextWrite (ev nopBusy [wr 0x020 1]) (0x020 + 4 * (0 : Fin 8).val) 1 [] ∧ nopBusy.busy = true ∧
    NextWrite (ev State.reset [wr 0x03C 1]) (0x020 + 4 * (7 : Fin 8).val) 1 [] ∧ State.reset.busy = false :=
  ⟨⟨rfl, rfl⟩, ⟨rfl, rfl⟩, rfl, ⟨rfl, rfl⟩, rfl⟩

theorem witness_CurveCoefficientWindows :
    (NextRead (ev State.reset [rd 0x05C]) (0x040 + 4 * (7 : Fin 8).val) [] ∧
      NextRead (ev State.reset [rd 0x07C]) (0x060 + 4 * (7 : Fin 8).val) []) ∧
    (NextWrite (ev nopBusy [wr 0x040 1]) (0x040 + 4 * (0 : Fin 8).val) 1 [] ∧ nopBusy.busy = true ∧
      NextWrite (ev State.reset [wr 0x05C 1]) (0x040 + 4 * (7 : Fin 8).val) 1 [] ∧ State.reset.busy = false) ∧
    NextWrite (ev nopBusy [wr 0x060 1]) (0x060 + 4 * (0 : Fin 8).val) 1 [] ∧
    NextWrite (ev State.reset [wr 0x07C 1]) (0x060 + 4 * (7 : Fin 8).val) 1 [] :=
  ⟨⟨⟨rfl, rfl⟩, rfl, rfl⟩, ⟨⟨rfl, rfl⟩, rfl, ⟨rfl, rfl⟩, rfl⟩, ⟨rfl, rfl⟩, rfl, rfl⟩

/-- The eight writes of section 2.2's `wr R1`, at `R15`. -/
def eightWrites (i : RIdx) (v : Word256) : List Event := (List.finRange 8).map fun k =>
  .access (.write (BitVec.ofNat 11 (0x100 + 0x20 * i.val + 4 * k.val)) 4 (wordOf v k))

theorem witness_EightWritesLoadRegister :
    (ev State.reset (eightWrites 15 1 ++ [])).rst = false ∧ (ev State.reset (eightWrites 15 1 ++ [])).busy = false ∧
    (ev State.reset (eightWrites 15 1 ++ [])).inputs = eightWrites 15 1 ++ [] := ⟨rfl, rfl, rfl⟩

theorem witness_BusErrorsAndReadsChangeNothing :
    State.reset.rst = false ∧ ((2 : Nat) ≠ 4 ∨ (0x7FC : BitVec 11).toNat % 4 ≠ 0) ∧
    ((4 : Nat) ≠ 4 ∨ (0x7FF : BitVec 11).toNat % 4 ≠ 0) ∧ (0x7FC : BitVec 11).toNat % 4 = 0 ∧
    (ev State.reset [rd 0x7FC]).inputs = .access (.read 0x7FC 4) :: [] ∧
    (ev State.reset [wr 0x7FF 1]).inputs = .access (.write 0x7FF 4 1) :: [] := by decide

theorem witness_ReservedAndReadOnlyOffsets :
    (NextRead (ev State.reset [rd 0x014]) 0x014 [] ∧ NextRead (ev State.reset [rd 0x0FC]) 0x0FC [] ∧
      NextRead (ev State.reset [rd 0x304]) 0x304 [] ∧ NextRead (ev State.reset [rd 0x444]) 0x444 [] ∧
      NextRead (ev State.reset [rd 0x7FC]) 0x7FC []) ∧
    NextWrite (ev nopBusy [wr 0x000 1]) 0x000 1 [] ∧ NextWrite (ev State.reset [wr 0x010 1]) 0x010 1 [] ∧
    NextWrite (ev State.reset [wr 0x300 1]) 0x300 1 [] ∧ NextWrite (ev State.reset [wr 0x400 1]) 0x400 1 [] ∧
    NextWrite (ev State.reset [wr 0x7FC 1]) 0x7FC 1 [] :=
  ⟨⟨⟨rfl, rfl⟩, ⟨rfl, rfl⟩, ⟨rfl, rfl⟩, ⟨rfl, rfl⟩, rfl, rfl⟩, ⟨rfl, rfl⟩, ⟨rfl, rfl⟩, ⟨rfl, rfl⟩, ⟨rfl, rfl⟩, rfl, rfl⟩

theorem witness_ControlWordsReadLive :
    NextRead (ev nopBusy [rd 0x000]) 0x000 [] ∧ NextRead (ev nopBusy [rd 0x004]) 0x004 [] ∧
    NextRead (ev failedOnce [rd 0x008]) 0x008 [] ∧ NextRead (ev nopBusy [rd 0x00C]) 0x00C [] ∧
    NextRead (ev failedOnce [rd 0x010]) 0x010 [] := ⟨⟨rfl, rfl⟩, ⟨rfl, rfl⟩, ⟨rfl, rfl⟩, ⟨rfl, rfl⟩, rfl, rfl⟩

theorem witness_TagViews : NextRead (ev nopBusy [rd 0x300]) 0x300 [] ∧ nopBusy.busy = true ∧
    NextRead (ev State.reset [rd 0x300]) 0x300 [] ∧ State.reset.busy = false ∧
    NextRead (ev State.reset [rd 0x440]) (0x440 + 0x80 * (0 : Fin 8).val) [] ∧
    NextRead (ev State.reset [rd 0x7C0]) (0x440 + 0x80 * (7 : Fin 8).val) [] :=
  ⟨⟨rfl, rfl⟩, rfl, ⟨rfl, rfl⟩, rfl, ⟨rfl, rfl⟩, rfl, rfl⟩

theorem witness_OverrunExactlyOnDiscard : State.reset.ovr = false ∧
    (∃ t, step (ev nopBusy [wr 0x2FC 1]) = .next t ∧ t.ovr = true) ∧
    (∃ t, step (ev nopBusy [wr 0x07C 1]) = .next t ∧ t.ovr = true) ∧
    (∃ t, step (ev failedOnce [wr 0x00C 1]) = .next t ∧ t.ovr = true) ∧
    ∃ t, step (ev nopBusy [wr 0x080 1]) = .next t ∧ t.ovr = false := by
  refine ⟨rfl, ⟨_, rfl, ?_⟩, ⟨_, rfl, ?_⟩, ⟨_, rfl, ?_⟩, _, rfl, ?_⟩ <;> decide +kernel

theorem witness_ResetValues :
    (ev nopBusy [.rst true]).inputs = .rst true :: [] ∧ NextWrite (ev nopBusy [wr 0x004 0x80000000]) 0x004 0x80000000 [] ∧
    (0x80000000 : Word).getLsbD 31 = true := ⟨rfl, ⟨rfl, rfl⟩, by decide⟩

theorem witness_SoftReset :
    (NextWrite (ev nopBusy [wr 0x004 0x80000003]) 0x004 0x80000003 [] ∧ (0x80000003 : Word).getLsbD 31 = true) ∧
    NextWrite (ev nopBusy [wr 0x004 3]) 0x004 3 [] ∧ (3 : Word).getLsbD 31 = false :=
  ⟨⟨⟨rfl, rfl⟩, by decide⟩, ⟨rfl, rfl⟩, by decide⟩

theorem witness_HardReset :
    (ev nopBusy [.rst true]).inputs = .rst true :: [] ∧
    ({ State.reset with rst := true } : State).rst = true ∧
    (ev { State.reset with rst := true } [rd 0x008]).inputs = .access (.read 0x008 4) :: [] ∧
    (ev { State.reset with rst := true } [.engine]).inputs = .engine :: [] ∧
    (ev { State.reset with rst := true } [.rst false]).inputs = .rst false :: [] := by decide

/-- A state of section 2.5 with a point and field elements, a command in flight. -/
def running : State :=
  (withQ (withR f223 [(5, rv 192 .m), (6, rv (P - 1) .p)]) [(1, aff .user 47 71), (2, gen), (3, infOf .user)]).accept
    0x23412000

/-- The state meets the register invariant. -/
theorem running_inv : running.Inv :=
  inv_of_checks (by decide +kernel) (by decide +kernel) ⟨fun _ => rfl, fun _ => rfl⟩ (fun _ => ⟨rfl, rfl⟩) rfl

/-- Its points are on their curves. -/
theorem running_onCurves : running.OnCurves := by
  have h : ∀ j, onCurveCheck running (running.getQ j) = true := by decide +kernel
  exact fun j => onCurve_of_check (h j)

theorem witness_StepKeepsRegisterInvariant : running.Inv ∧ ∃ t, step running = .next t :=
  ⟨running_inv, step_total running rfl⟩

theorem witness_StepKeepsPointsOnCurve : running.Inv ∧ running.OnCurves ∧ ∃ t, step running = .next t :=
  ⟨running_inv, running_onCurves, step_total running rfl⟩

theorem witness_LdcLoadsConstant : 4 ≤ (4 : BitVec 16).toNat ∧ (3 : BitVec 16).toNat < 4 := by decide

theorem witness_FeNewChecksRange :
    ((8 : Word256).toNat % 2 = 0 ∨ (8 : Word256).toNat < 3) ∧ ((1 : Word256).toNat % 2 = 0 ∨ (1 : Word256).toNat < 3) ∧
    (f223.modof .m = some 223 ∧ f223.mod.toNat % 2 = 1 ∧ 3 ≤ f223.mod.toNat) ∧
    223 ≤ ((withR f223 [(1, rv 223 .raw)]).getR 1).v.toNat ∧ ((withR f223 [(1, rv 222 .raw)]).getR 1).v.toNat < 223 := by
  decide +kernel

/-- A state with elements of every field: `R1`, `R2` of `P`, `R3` of `N`, `R4`, `R5` of `MOD`, `R0` untagged. -/
def mixed : State := withR f223 [(1, rv (P - 1) .p), (2, rv 2 .p), (3, rv 1 .n), (4, rv 222 .m), (5, rv 2 .m)]

/-- The hypotheses of FeAddIsModularSum, FeSubIsModularDifference, FeMulIsModularProduct and FeDivIsFermatQuotient. -/
theorem witness_BinaryFieldRule :
    (mixed.modof (mixed.getR 1).t = some P ∧ mixed.modof (mixed.getR 2).t = some P) ∧
    (mixed.modof (mixed.getR 4).t = some 223 ∧ mixed.modof (mixed.getR 5).t = some 223) ∧
    ((mixed.getR 0).t = .raw) ∧ mixed.modof (mixed.getR 3).t = some N ∧ P ≠ N := by decide +kernel

theorem witness_FePowReducesExponent :
    mixed.modof (mixed.getR 4).t = some 223 ∧ (mixed.getR 0).t = .raw := by decide +kernel

theorem witness_FeInvIsFermatInverse :
    mixed.modof (mixed.getR 4).t = some 223 ∧ (3 ≤ 223 ∧ (223).Prime ∧ (mixed.getR 4).v.toNat % 223 ≠ 0) ∧
    (withR f223 [(1, rv 0 .m)]).modof ((withR f223 [(1, rv 0 .m)]).getR 1).t = some 223 ∧
    ((withR f223 [(1, rv 0 .m)]).getR 1).v.toNat = 0 ∧ (mixed.getR 0).t = .raw :=
  ⟨by decide +kernel, ⟨by decide, by norm_num, by decide +kernel⟩, by decide +kernel, by decide +kernel, by decide +kernel⟩

theorem witness_FeSmulIsScaledElement :
    mixed.modof (mixed.getR 3).t = some N ∧ (mixed.getR 0).t = .raw := by decide +kernel

theorem witness_FeEqIsStructural :
    mixed.modof (mixed.getR 1).t = some P ∧ mixed.modof (mixed.getR 3).t = some N ∧ (mixed.getR 0).t = .raw := by
  decide +kernel

theorem witness_PrimeFieldLaws :
    mixed.modof (mixed.getR 4).t = some 223 ∧ (223).Prime ∧ 3 ≤ 223 ∧ (mixed.getR 4).v.toNat < 223 ∧
    (mixed.getR 4).v ≠ 0 ∧ ((withR mixed [(6, rv 222 .raw)]).getR 6).v.toNat = 223 - 1 :=
  ⟨by decide +kernel, by norm_num, by decide, by decide +kernel, by decide +kernel, by decide +kernel⟩

theorem witness_PtInfChecksUserCurve :
    (State.reset.mod.toNat % 2 = 0 ∨ State.reset.mod.toNat < 3) ∧
    (f223.mod.toNat % 2 = 1 ∧ 3 ≤ f223.mod.toNat ∧ f223.ca.toNat < f223.mod.toNat ∧ f223.cb.toNat < f223.mod.toNat) ∧
    (f223.mod.toNat ≤ ({ f223 with ca := 223 } : State).ca.toNat ∧ f223.mod.toNat ≤ ({ f223 with cb := 223 } : State).cb.toNat) ∧
    2 ≤ (2 : BitVec 2).toNat ∧ (1 : BitVec 2).toNat < 2 := by decide +kernel

theorem witness_PtNewChecksCurveEquation :
    let s := withR f223 [(1, rv 192 .m), (2, rv 105 .m), (3, rv 1 .m), (4, rv Gx .p), (5, rv Gy .p), (6, rv 1 .n)]
    ((s.getR 0).t = .raw ∧ s.modof (s.getR 1).t = some 223 ∧ s.modof (s.getR 6).t = some N ∧ s.modof (s.getR 4).t = some P) ∧
    (CurveEquation (s.coef .user) (s.getR 1).v.toNat (s.getR 2).v.toNat ∧
      ¬ CurveEquation (s.coef .user) (s.getR 3).v.toNat (s.getR 3).v.toNat) ∧
    CurveEquation (s.coef .secp) (s.getR 4).v.toNat (s.getR 5).v.toNat ∧
    ¬ CurveEquation (s.coef .secp) (s.getR 5).v.toNat (s.getR 5).v.toNat := by
  unfold CurveEquation Nat.ModEq
  decide +kernel

theorem witness_PtAddChecksAndIdentities :
    let s := withQ f223 [(1, aff .user 192 105), (2, aff .user 192 118), (3, infOf .user), (4, gen)]
    ((s.getQ 0).c = none ∧ (s.getQ 1).c = some .user ∧ (s.getQ 4).c = some .secp ∧ s.coef .user ≠ s.coef .secp) ∧
    ((s.getQ 3).inf = true ∧ (s.getQ 1).inf = false ∧ (s.getQ 2).inf = false) ∧
    (s.getQ 1).x = (s.getQ 2).x ∧ (s.getQ 1).y ≠ (s.getQ 2).y := by decide +kernel

theorem witness_PtAddChordAndTangent :
    let s := withQ f223 [(1, aff .user 192 105), (2, aff .user 17 56), (3, aff .user 5 0), (4, gen)]
    ((s.getQ 1).c = some .user ∧ (s.getQ 4).c = some .secp ∧ s.mod.toNat.Prime) ∧
    ((s.getQ 1).inf = false ∧ (s.getQ 2).inf = false ∧ (s.getQ 3).inf = false) ∧
    ((s.getQ 1).x.toNat : Int) ≠ (s.getQ 2).x.toNat ∧ ((s.getQ 3).y.toNat : Int) = 0 ∧ ((s.getQ 1).y.toNat : Int) ≠ 0 :=
  ⟨⟨by decide +kernel, by decide +kernel, by show Nat.Prime 223; norm_num⟩, by decide +kernel, by decide +kernel,
    by decide +kernel, by decide +kernel⟩

theorem witness_PtMulReducesScalar :
    let s := withQ (withR f223 [(1, rv 2 .raw)]) [(1, aff .user 47 71), (2, infOf .user), (4, gen)]
    ((s.getQ 0).c = none ∧ (s.getQ 1).c = some .user ∧ (s.getQ 4).c = some .secp) ∧
    ((1 : Nat) : Int) = -((N - 1 : Nat) : Int) % (N : Int) ∧
    (s.validmod = true ∧ s.mod.toNat.Prime ∧ (4 * s.ca.toNat ^ 3 + 27 * s.cb.toNat ^ 2) % s.mod.toNat ≠ 0) ∧
    (s.getR 0).v = 0 ∧ (s.getQ 2).inf = true ∧ (s.getQ 2).x = 0 ∧ (s.getQ 2).y = 0 :=
  ⟨by decide +kernel, by decide, ⟨by decide +kernel, by show Nat.Prime 223; norm_num, by decide +kernel⟩,
    by decide +kernel⟩

theorem witness_PointResultsStayInBounds :
    running.Inv ∧ (running.getQ 1).c = some .user ∧ (running.getQ 3).c = some .user ∧ (running.getQ 2).c = some .secp :=
  ⟨running_inv, by decide +kernel⟩

theorem witness_GroupLaws :
    let k : Coef := ⟨0, 7, 223⟩
    (k.m.Prime ∧ 3 ≤ k.m ∧ (4 * k.a ^ 3 + 27 * k.b ^ 2) % k.m ≠ 0) ∧ CurveEquation k 47 71 ∧ 47 < k.m ∧ 71 < k.m := by
  refine ⟨⟨by norm_num, by decide, by decide⟩, ?_⟩
  unfold CurveEquation Nat.ModEq
  decide

theorem witness_PointTests :
    let s := withQ f223 [(1, aff .user 47 71), (4, gen)]
    (s.getQ 0).c = none ∧ (s.getQ 1).c = some .user ∧ (s.getQ 4).c = some .secp := by decide +kernel

theorem witness_PointExtraction :
    let s := withQ f223 [(1, aff .user 47 71), (3, infOf .secp)]
    (s.getQ 0).c = none ∧ (s.getQ 1).c = some .user ∧ (s.getQ 1).inf = false ∧ (s.getQ 3).inf = true := by
  decide +kernel

theorem witness_FeSqrtOfSquare :
    let s := withR f223 [(1, rv 4 .p), (2, rv 4 .n)]
    (s.getR 0).t = .raw ∧ s.modof (s.getR 2).t = some N ∧ N ≠ P ∧ s.modof (s.getR 1).t = some P ∧
    (s.getR 1).v.toNat = 2 * 2 % P := by decide +kernel

theorem witness_PtDeserChecks :
    let s := withR State.reset [(1, rv P .raw), (2, rv Gx .raw), (3, rv Gy .raw), (4, rv 0 .raw)]
    ((5 : BitVec 8).toNat ≠ 2 ∧ (5 : BitVec 8).toNat ≠ 3 ∧ (5 : BitVec 8).toNat ≠ 4) ∧ P ≤ (s.getR 1).v.toNat ∧
    ((s.getR 2).v.toNat < P ∧ (s.getR 3).v.toNat < P ∧ (s.getR 4).v.toNat < P) ∧
    CurveEquation ⟨0, 7, P⟩ (s.getR 2).v.toNat (s.getR 3).v.toNat ∧
    ¬ CurveEquation ⟨0, 7, P⟩ (s.getR 2).v.toNat (s.getR 2).v.toNat := by
  unfold CurveEquation Nat.ModEq
  decide +kernel

/-- 7 is no square modulo `P` (section 2.6), so no point has the x coordinate 0. -/
theorem witness_PtDeserChecks_no_root : ¬ ∃ y, CurveEquation ⟨0, 7, P⟩ ((State.reset.getR 4).v.toNat) y := by
  rintro ⟨y, h⟩
  have := Fact.mk prime_P
  have h7 : (y : ZMod P) ^ 2 = 7 := by
    have e : (State.reset.getR 4).v.toNat = 0 := by decide
    rw [CurveEquation, e, ← ZMod.natCast_eq_natCast_iff] at h
    push_cast at h
    linear_combination h
  have h0 : (y : ZMod P) ≠ 0 := by
    intro e
    rw [e] at h7
    have : ((7 : Nat) : ZMod P) = 0 := by push_cast; rw [← h7]; ring
    exact absurd ((ZMod.natCast_eq_zero_iff _ _).mp this) (by decide)
  have hp : (7 : ZMod P) ^ ((P - 1) / 2) = 1 := by
    rw [← h7, ← pow_mul, show 2 * ((P - 1) / 2) = P - 1 by decide, ZMod.pow_card_sub_one_eq_one h0]
  have hn : powmod 7 ((P - 1) / 2) P = P - 1 := by decide +kernel
  have hc : ((powmod 7 ((P - 1) / 2) P : Nat) : ZMod P) = ((1 : Nat) : ZMod P) := by
    rw [powmod_eq, ZMod.natCast_mod]
    push_cast
    exact hp
  rw [hn, ZMod.natCast_eq_natCast_iff] at hc
  exact absurd hc (by unfold Nat.ModEq; decide)

theorem witness_SecRoundTrip :
    let s := withR State.reset [(1, rv Gx .raw)]
    ((s.getR 1).v.toNat < P ∧ (BitVec.ofNat 256 Gy).toNat < P ∧
      CurveEquation ⟨0, 7, P⟩ (s.getR 1).v.toNat (BitVec.ofNat 256 Gy).toNat) ∧
    (BitVec.ofNat 256 (P - Gy)).toNat < P ∧
    CurveEquation ⟨0, 7, P⟩ (s.getR 1).v.toNat (BitVec.ofNat 256 (P - Gy)).toNat := by
  unfold CurveEquation Nat.ModEq
  decide +kernel

end Sys2Proof.Tests
end

section
/-! SUPPORT. What a command's completion leaves in the register files: every value it writes meets R34 and R35 of
10_state.md for the parameters `MOD`, `CA` and `CB` it ran with. One lemma per check or operand form, in the shape of
the pseudocode, and one case per command. -/

namespace Sys2Proof.Machine

/-! ### Moduli -/

theorem modof_lt {s : State} {t : Tag} {m : Nat} (h : s.modof t = some m) : m < 2 ^ 256 := by
  cases t with
  | raw => cases h
  | p => cases h; decide
  | n => cases h; decide
  | m => cases h; exact s.mod.isLt

theorem coef_m_lt (s : State) (c : Curve) : (s.coef c).m < 2 ^ 256 := by
  cases c with
  | secp => exact (by decide : P < 2 ^ 256)
  | user => exact s.mod.isLt

/-- The modulus of a curve's field is the modulus of the curve's field tag. -/
theorem modof_fieldtag (s : State) (c : Curve) : s.modof (fieldtag c) = some (s.coef c).m := by
  cases c <;> rfl

theorem validmod_iff (s : State) : s.validmod = true ↔ s.mod.toNat % 2 = 1 ∧ 3 ≤ s.mod.toNat := by
  simp [State.validmod]

/-- What 42_curve.md R200 asks of the user curve's parameters. -/
def UserChecked (s : State) : Prop := s.validmod = true ∧ s.ca.toNat < s.mod.toNat ∧ s.cb.toNat < s.mod.toNat

/-- The curve is one whose points 10_state.md R35 holds to the curve equation. -/
def HeldToEquation (s : State) (c : Curve) : Prop := c = .secp ∨ s.userRegular = true

theorem userRegular_iff (s : State) : s.userRegular = true ↔
    s.validmod = true ∧ s.mod.toNat.Prime ∧ (4 * s.ca.toNat ^ 3 + 27 * s.cb.toNat ^ 2) % s.mod.toNat ≠ 0 := by
  simp only [State.userRegular, Bool.and_eq_true, isPrime_iff, decide_eq_true_iff, and_assoc]

/-- A curve held to its equation has a prime modulus of at least 3. -/
theorem HeldToEquation.prime {s : State} {c : Curve} (h : HeldToEquation s c) :
    (s.coef c).m.Prime ∧ 3 ≤ (s.coef c).m := by
  cases c with
  | secp => exact ⟨prime_P, P_ge_three⟩
  | user =>
    obtain ⟨hv, hp, _⟩ := (userRegular_iff s).mp (h.resolve_left (by decide))
    exact ⟨hp, ((validmod_iff s).mp hv).2⟩

/-- A user curve with the numbers of secp256k1 is regular. -/
theorem userRegular_of_coef_secp {s : State} (h : s.coef .secp = s.coef .user) : s.userRegular = true := by
  simp only [State.coef, Coef.mk.injEq] at h
  obtain ⟨ha, hb, hm⟩ := h
  rw [userRegular_iff, validmod_iff, ← ha, ← hb, ← hm]
  exact ⟨by decide, prime_P, by decide⟩

/-- Two names of one curve (42_curve.md R201) are both held to the equation or neither. -/
theorem HeldToEquation.congr {s : State} {c1 c2 : Curve} (he : s.coef c1 = s.coef c2) (h : HeldToEquation s c1) :
    HeldToEquation s c2 := by
  cases c2 with
  | secp => exact .inl rfl
  | user =>
    cases c1 with
    | secp => exact .inr (userRegular_of_coef_secp he)
    | user => exact h

/-! ### Field elements and points an invariant state holds -/

/-- A field element as an operand of a command: its value is below its modulus, and a user modulus is valid. -/
structure GoodElem (s : State) (x : FieldElem) : Prop where
  modulus : s.modof x.t = some x.m
  range : x.v < x.m
  valid : x.t = .m → s.validmod = true

/-- A point of a curve as an operand or a result: its coordinates are in range, the user curve has been checked, and
while all points stand on their curves so does this one. -/
structure GoodPoint (s : State) (c : Curve) (p : Point) : Prop where
  canonical : p.Canonical (s.coef c).m
  checked : c = .user → UserChecked s
  onCurve : s.OnCurves → HeldToEquation s c → p.OnCurve (s.coef c)

theorem GoodElem.pos {s : State} {x : FieldElem} (h : GoodElem s x) : 0 < x.m := Nat.zero_lt_of_lt h.range

theorem goodElem_of_fe {s : State} {i : RIdx} {x : FieldElem} (hr : FieldRegOk s (s.getR i)) (h : fe s i = .ok x) :
    GoodElem s x := by
  obtain ⟨hv, ht, hm⟩ := fe_ok h
  exact ⟨hm, hv ▸ hr.1 x.m (ht ▸ hm), fun e => hr.2 (ht ▸ e)⟩

theorem goodPoint_of_reg {s : State} {j : QIdx} {c : Curve} (hq : PointRegOk s (s.getQ j))
    (hc : (s.getQ j).c = some c) : GoodPoint s c (s.getQ j).point := by
  obtain ⟨_, hinf, hrange, huser⟩ := hq
  refine ⟨⟨fun hi => ?_, hrange c hc⟩, fun e => huser (e ▸ hc), fun ho he hi => ho j c hc hi he⟩
  obtain ⟨hx, hy⟩ := hinf hi
  exact ⟨congrArg BitVec.toNat hx, congrArg BitVec.toNat hy⟩

theorem goodPoint_infinity {s : State} {c : Curve} (h : c = .user → UserChecked s) : GoodPoint s c .infinity :=
  ⟨infinity_canonical _, h, fun _ _ => infinity_onCurve _⟩

/-! ### Register values -/

theorem fieldReg_toNat {v : Nat} (h : v < 2 ^ 256) (t : Tag) : (fieldReg v t).v.toNat = v := Nat.mod_eq_of_lt h

theorem fieldRegOk_raw (s : State) (v : Word256) : FieldRegOk s ⟨v, .raw⟩ := ⟨nofun, nofun⟩

theorem fieldRegOk_fieldReg {s : State} {v m : Nat} {t : Tag} (hm : s.modof t = some m) (hv : v < m)
    (ht : t = .m → s.validmod = true) : FieldRegOk s (fieldReg v t) := by
  refine ⟨fun m' hm' => ?_, ht⟩
  obtain rfl : m = m' := Option.some.inj (hm.symm.trans hm')
  rwa [fieldReg_toNat (hv.trans (modof_lt hm))]

/-- The register of a point holds the point back. -/
theorem pointReg_point {s : State} {c : Curve} {p : Point} (h : p.Canonical (s.coef c).m) :
    (pointReg c p).x.toNat = p.x ∧ (pointReg c p).y.toNat = p.y := by
  have hm := coef_m_lt s c
  have hxy : p.x < 2 ^ 256 ∧ p.y < 2 ^ 256 := by
    cases hi : p.inf with
    | true => obtain ⟨hx, hy⟩ := h.1 hi; omega
    | false => obtain ⟨hx, hy⟩ := h.2 hi; omega
  exact ⟨Nat.mod_eq_of_lt hxy.1, Nat.mod_eq_of_lt hxy.2⟩

theorem GoodPoint.regOk {s : State} {c : Curve} {p : Point} (h : GoodPoint s c p) : PointRegOk s (pointReg c p) := by
  obtain ⟨hx, hy⟩ := pointReg_point h.canonical
  refine ⟨nofun, fun hi => ?_, fun c' hc hi => ?_, fun hc => h.checked (Option.some.inj hc)⟩
  · obtain ⟨h0x, h0y⟩ := h.canonical.1 hi
    exact ⟨BitVec.eq_of_toNat_eq (hx.trans h0x), BitVec.eq_of_toNat_eq (hy.trans h0y)⟩
  · obtain rfl := Option.some.inj hc
    rw [hx, hy]
    exact h.canonical.2 hi

theorem GoodPoint.regOnCurve {s : State} {c : Curve} {p : Point} (h : GoodPoint s c p) (ho : s.OnCurves) :
    PointRegOnCurve s (pointReg c p) := by
  obtain ⟨hx, hy⟩ := pointReg_point h.canonical
  intro c' hc hi he
  obtain rfl := Option.some.inj hc
  rw [hx, hy]
  exact h.onCurve ho he hi

/-! ### The point results -/

theorem addDrawn_of_held {s : State} {c : Curve} (h : HeldToEquation s c) (p1 p2 : Point) :
    addDrawn s c p1 p2 = false := by
  rcases h with rfl | h
  · simp [addDrawn]
  · have hp := (isPrime_iff _).mpr ((userRegular_iff s).mp h).2.1
    simp [addDrawn, hp]

theorem mulDrawn_of_held {s : State} {c : Curve} (h : HeldToEquation s c) (k : Nat) (p : Point) :
    mulDrawn s c k p = false := by
  rcases h with rfl | h <;> simp [mulDrawn, *]

theorem UserChecked.mod_pos {s : State} (h : UserChecked s) : 0 < s.mod.toNat := Nat.zero_lt_of_lt h.2.1

/-- PT_ADD's sum, drawn or not, is a point of the curve of `Qa` (42_curve.md R204, R207). -/
theorem GoodPoint.add {s : State} {c1 c2 : Curve} {p1 p2 : Point} (h1 : GoodPoint s c1 p1) (h2 : GoodPoint s c2 p2)
    (he : s.coef c1 = s.coef c2) : GoodPoint s c1 (addPoints s c1 p1 p2) := by
  have h2c : p2.Canonical (s.coef c1).m := he ▸ h2.canonical
  refine ⟨?_, h1.checked, fun ho hc => ?_⟩
  · unfold addPoints
    split
    · rename_i hd
      obtain rfl : c1 = .user := by simp only [addDrawn, Bool.and_eq_true, decide_eq_true_iff] at hd; tauto
      exact drawn_canonical (h1.checked rfl).mod_pos
    · exact padd_canonical h1.canonical h2c
  · rw [addPoints, addDrawn_of_held hc, if_neg Bool.false_ne_true]
    obtain ⟨hp, h3⟩ := hc.prime
    have h2o : p2.OnCurve (s.coef c1) := he ▸ h2.onCurve ho (hc.congr he)
    exact padd_onCurve hp h3 h1.canonical h2c (h1.onCurve ho hc) h2o

/-- PT_MUL's multiple, drawn or not, is a point of its operand's curve (R204, R209). -/
theorem GoodPoint.mul {s : State} {c : Curve} {p : Point} (h : GoodPoint s c p) (k : Nat) :
    GoodPoint s c (mulPoint s c k p) := by
  refine ⟨?_, h.checked, fun ho hc => ?_⟩
  · unfold mulPoint
    split
    · rename_i hd
      obtain rfl : c = .user := by simp only [mulDrawn, Bool.and_eq_true, decide_eq_true_iff] at hd; tauto
      exact drawn_canonical (h.checked rfl).mod_pos
    · exact smul_canonical k h.canonical
  · rw [mulPoint, mulDrawn_of_held hc, if_neg Bool.false_ne_true]
    obtain ⟨hp, h3⟩ := hc.prime
    exact smul_onCurve hp h3 k h.canonical (h.onCurve ho hc)

/-- PT_DESER's check of the curve equation (43_secp256k1.md R235) is that of secp256k1. -/
theorem onCurve_of_secpAlpha {x y : Nat} (h : imod ((y : Int) * y - secpAlpha x) P = 0) :
    onCurve ⟨0, 7, P⟩ x y = true := by
  have hP : 0 < P := by decide
  rw [imod_eq_zero_iff _ hP, secpAlpha] at h
  rw [onCurve_iff hP]
  push_cast [ZMod.natCast_mod] at h ⊢
  linear_combination h

/-! ### Results that keep the register files -/

/-- Every register of `t` is as 10_state.md R34 and R35 ask for the parameters of `s`. -/
structure RegsKept (s t : State) : Prop where
  field : ∀ i, FieldRegOk s (t.getR i)
  point : ∀ j, PointRegOk s (t.getQ j)
  curve : s.OnCurves → ∀ j, PointRegOnCurve s (t.getQ j)

theorem RegsKept.refl {s : State} (h : s.Inv) : RegsKept s s := ⟨h.1, h.2.1, fun ho => ho⟩

/-- A pseudocode's result either raises an error or leaves registers that are as R34 and R35 ask. -/
def Keeps (s : State) (res : Result) : Prop := ∀ u, res = .ok u → RegsKept s u

theorem keeps_error (s : State) (e : ErrCode) : Keeps s (.error e) := fun _ hu => by cases hu

theorem keeps_ok {s u : State} (h : RegsKept s u) : Keeps s (.ok u) := fun _ hu => Except.ok.inj hu ▸ h

theorem regsKept_of_conclude {s t : State} {res : Result} (hs : RegsKept s s) (hk : Keeps s res)
    (h : conclude s res = .next t) : RegsKept s t := by
  rcases conclude_cases h with ⟨u, hu, rfl⟩ | ⟨e, _, rfl⟩
  · obtain ⟨hf, hp, hc⟩ := hk u hu
    exact ⟨hf, hp, hc⟩
  · exact ⟨hs.field, hs.point, hs.curve⟩

section
variable {s : State} (hs : RegsKept s s)
include hs

theorem keeps_setR (d : RIdx) {x : FieldReg} (hx : FieldRegOk s x) : Keeps s (.ok (s.setR d x)) := by
  refine keeps_ok ⟨fun i => ?_, hs.point, hs.curve⟩
  by_cases h : i = d
  · rwa [h, getR_setR_same]
  · rw [getR_setR_other s h]; exact hs.field i

theorem keeps_setQ (d : QIdx) {x : PointReg} (hx : PointRegOk s x) (ho : s.OnCurves → PointRegOnCurve s x) :
    Keeps s (.ok (s.setQ d x)) := by
  refine keeps_ok ⟨hs.field, fun j => ?_, fun hc j => ?_⟩
  all_goals by_cases h : j = d
  · rwa [h, getQ_setQ_same]
  · rw [getQ_setQ_other s h]; exact hs.point j
  · rw [h, getQ_setQ_same]; exact ho hc
  · rw [getQ_setQ_other s h]; exact hc j

theorem keeps_setPoint (d : QIdx) {c : Curve} {p : Point} (h : GoodPoint s c p) :
    Keeps s (.ok (s.setQ d (pointReg c p))) := keeps_setQ hs d h.regOk h.regOnCurve

theorem keeps_setT (b : Bool) : Keeps s (.ok (s.setT b)) := keeps_ok ⟨hs.field, hs.point, hs.curve⟩

/-! Sequencing: what a check lets through is known to what follows. -/

theorem keeps_fe {a : RIdx} {f : FieldElem → Result} (h : ∀ x, GoodElem s x → Keeps s (f x)) :
    Keeps s (fe s a >>= f) := by
  cases hx : fe s a with
  | ok x => exact h x (goodElem_of_fe (hs.field a) hx)
  | error e => exact keeps_error s e

theorem keeps_pt {a : QIdx} {f : Curve × Point → Result} (h : ∀ c p, GoodPoint s c p → Keeps s (f (c, p))) :
    Keeps s (pt s a >>= f) := by
  cases hc : (s.getQ a).c with
  | some c => rw [pt_some hc]; exact h c _ (goodPoint_of_reg (hs.point a) hc)
  | none => rw [pt_none hc]; exact keeps_error s _

omit hs in
theorem keeps_selectCurve {sel : BitVec 2} {f : Curve → Result}
    (h : ∀ c, (c = .user → UserChecked s) → Keeps s (f c)) : Keeps s (selectCurve s sel >>= f) := by
  cases hc : selectCurve s sel with
  | ok c => exact h c fun e => usercheck_ok ((selectCurve_ok hc).2 e)
  | error e => exact keeps_error s e

/-- A result of the field of an operand, with the operand's tag. -/
theorem keeps_fieldResult (d : RIdx) {x : FieldElem} (hx : GoodElem s x) {v : Nat} (hv : v < x.m) :
    Keeps s (.ok (s.setR d (fieldReg v x.t))) := keeps_setR hs d (fieldRegOk_fieldReg hx.modulus hv hx.valid)

theorem keeps_fieldBinary (d a b : RIdx) {op : Nat → Nat → Nat → Nat} (hop : ∀ x y m, 0 < m → op x y m < m) :
    Keeps s (fieldBinary s d a b op) := by
  intro u hu
  obtain ⟨x, y, hx, _, _, rfl⟩ := fieldBinary_ok hu
  have hg := goodElem_of_fe (hs.field a) hx
  exact keeps_fieldResult hs d hg (hop x.v y.v x.m hg.pos) _ rfl

theorem keeps_coordinate (d : RIdx) (a : QIdx) {pick : Point → Nat}
    (hpick : ∀ p : Point, pick p = p.x ∨ pick p = p.y) : Keeps s (coordinate s d a pick) := by
  refine keeps_pt hs fun c p hp => ?_
  dsimp only
  split
  · exact keeps_error s _
  · rename_i hi
    obtain ⟨hx, hy⟩ := hp.canonical.2 (by simpa using hi)
    have hv : pick p < (s.coef c).m := by rcases hpick p with e | e <;> rwa [e]
    refine keeps_setR hs d (fieldRegOk_fieldReg (modof_fieldtag s c) hv fun e => ?_)
    cases c with
    | secp => cases e
    | user => exact (hp.checked rfl).1

/-- FE_NEW tags a value only below the modulus, and with `TAG_M` only under a valid `MOD` (41_field.md R170). -/
theorem execFeNew_regsKept (d a : RIdx) (sel : Tag) {t : State} (h : execFeNew d a sel s = .next t) : RegsKept s t := by
  refine regsKept_of_conclude hs ?_ h
  split
  · exact keeps_setR hs d (fieldRegOk_raw s _)
  · rename_i m hm
    split
    · exact keeps_error s _
    · rename_i hvalid
      split
      · exact keeps_error s _
      · rename_i hrange
        refine keeps_setR hs d ⟨fun m' hm' => ?_, fun e => ?_⟩
        · obtain rfl : m = m' := Option.some.inj (hm.symm.trans hm')
          exact Nat.lt_of_not_le hrange
        · exact Bool.eq_true_of_not_eq_false fun hv => hvalid ⟨e, hv⟩

/-- PT_NEW's checks are those of a good point (42_curve.md R206). -/
theorem execPtNew_regsKept (d : QIdx) (a b : RIdx) (sel : BitVec 2) {t : State} (h : execPtNew d a b sel s = .next t) :
    RegsKept s t := by
  refine regsKept_of_conclude hs (keeps_selectCurve fun c hc => keeps_fe hs fun x hx => keeps_fe hs fun y hy => ?_) h
  split
  · exact keeps_error s _
  · rename_i hm
    split
    · exact keeps_error s _
    · rename_i ho
      obtain ⟨hxy, hxm⟩ : x.m = y.m ∧ x.m = (s.coef c).m := by simpa only [ne_eq, not_or, not_not] using hm
      have hym : y.m = (s.coef c).m := hxy ▸ hxm
      exact keeps_setPoint hs d ⟨⟨nofun, fun _ => ⟨hxm ▸ hx.range, hym ▸ hy.range⟩⟩, hc,
        fun _ _ _ => by simpa using ho⟩

/-- PT_DESER's checks are those of a good point of secp256k1 (43_secp256k1.md R235). -/
theorem execPtDeser_regsKept (d : QIdx) (a b : RIdx) (pfx : BitVec 8) {t : State}
    (h : execPtDeser d a b pfx s = .next t) : RegsKept s t := by
  refine regsKept_of_conclude hs ?_ h
  split
  · exact keeps_error s _
  dsimp only
  split
  · exact keeps_error s _
  rename_i hx
  split
  · exact keeps_error s _
  rename_i hy
  split
  · exact keeps_error s _
  rename_i ho
  exact keeps_setPoint hs d ⟨⟨nofun, fun _ => ⟨Nat.lt_of_not_le hx, Nat.lt_of_not_le hy⟩⟩, nofun,
    fun _ _ _ => onCurve_of_secpAlpha (not_not.mp ho)⟩

theorem keeps_generator (d : QIdx) : Keeps s (.ok (s.setQ d (pointReg .secp ⟨false, Gx, Gy⟩))) :=
  keeps_setPoint hs d ⟨⟨nofun, fun _ => (by decide : Gx < P ∧ Gy < P)⟩, nofun, fun _ _ _ => generator_onCurve⟩

/-- Every command keeps the register files as R34 and R35 ask. -/
theorem exec_regsKept {i : Instr} {t : State} (h : exec i s = .next t) : RegsKept s t := by
  cases i with
  | nop => exact regsKept_of_conclude hs (keeps_ok hs) h
  | mov d a => exact regsKept_of_conclude hs (keeps_setR hs d (hs.field a)) h
  | ldi d imm => exact regsKept_of_conclude hs (keeps_setR hs d (fieldRegOk_raw s _)) h
  | ldc d k =>
    refine regsKept_of_conclude hs ?_ h
    split
    · exact keeps_setR hs d (fieldRegOk_raw s _)
    · exact keeps_error s _
  | intEq a b => exact regsKept_of_conclude hs (keeps_setT hs _) h
  | intOdd a => exact regsKept_of_conclude hs (keeps_setT hs _) h
  | feNew d a sel => exact execFeNew_regsKept hs d a sel h
  | feAdd d a b => exact regsKept_of_conclude hs (keeps_fieldBinary hs d a b fun _ _ _ => Nat.mod_lt _) h
  | feSub d a b => exact regsKept_of_conclude hs (keeps_fieldBinary hs d a b fun _ _ _ => imod_lt _) h
  | feMul d a b => exact regsKept_of_conclude hs (keeps_fieldBinary hs d a b fun _ _ _ => Nat.mod_lt _) h
  | fePow d a b neg =>
    exact regsKept_of_conclude hs (keeps_fe hs fun x hx => keeps_fieldResult hs d hx (powmod_lt _ _ hx.pos)) h
  | feInv d a =>
    exact regsKept_of_conclude hs (keeps_fe hs fun x hx => keeps_fieldResult hs d hx (finv_lt _ hx.pos)) h
  | feDiv d a b => exact regsKept_of_conclude hs (keeps_fieldBinary hs d a b fun _ _ _ => Nat.mod_lt _) h
  | feSmul d a b neg =>
    exact regsKept_of_conclude hs (keeps_fe hs fun x hx => keeps_fieldResult hs d hx (imod_lt _ hx.pos)) h
  | feSqrt d a =>
    refine regsKept_of_conclude hs (keeps_fe hs fun x hx => ?_) h
    split
    · exact keeps_error s _
    · rename_i hm
      exact keeps_fieldResult hs d hx (not_not.mp hm ▸ powmod_lt _ _ (by decide))
  | feEq a b => exact regsKept_of_conclude hs (keeps_fe hs fun _ _ => keeps_fe hs fun _ _ => keeps_setT hs _) h
  | ptInf d sel =>
    exact regsKept_of_conclude hs (keeps_selectCurve fun _ hc => keeps_setPoint hs d (goodPoint_infinity hc)) h
  | ptGen d => exact regsKept_of_conclude hs (keeps_generator hs d) h
  | ptNew d a b sel => exact execPtNew_regsKept hs d a b sel h
  | ptAdd d a b =>
    refine regsKept_of_conclude hs (keeps_pt hs fun c1 p1 h1 => keeps_pt hs fun c2 p2 h2 => ?_) h
    dsimp only
    split
    · exact keeps_error s _
    · rename_i hc
      exact keeps_setPoint hs d (h1.add h2 (by simpa [sameCurve] using hc))
  | ptMul d a b neg =>
    refine regsKept_of_conclude hs (keeps_pt hs fun c p hp => ?_) h
    dsimp only
    split
    · exact keeps_error s _
    · exact keeps_setPoint hs d (hp.mul _)
  | ptEq a b =>
    exact regsKept_of_conclude hs (keeps_pt hs fun _ _ _ => keeps_pt hs fun _ _ _ => keeps_setT hs _) h
  | ptIsInf a => exact regsKept_of_conclude hs (keeps_pt hs fun _ _ _ => keeps_setT hs _) h
  | ptGetX d a => exact regsKept_of_conclude hs (keeps_coordinate hs d a fun _ => .inl rfl) h
  | ptGetY d a => exact regsKept_of_conclude hs (keeps_coordinate hs d a fun _ => .inr rfl) h
  | ptMov d a => exact regsKept_of_conclude hs (keeps_setQ hs d (hs.point a) fun ho => hs.curve ho a) h
  | ptDeser d a b pfx => exact execPtDeser_regsKept hs d a b pfx h

end

end Sys2Proof.Machine
end

section
/-! SUPPORT. What one step can do, said once, and the two invariants over it: every step keeps `State.Inv` and, with
it, `State.OnCurves` (10_state.md R34, R35, R39). -/

namespace Sys2Proof.Machine

/-! ### Steps -/

/-- What a step that answers a next state can have done; in each case the events that are left are `rest`. -/
inductive Stepped (s : State) : State → Prop where
  /-- the engine's turn, with no command in flight or under reset -/
  | idle (rest : List Event) (hi : s.inputs = .engine :: rest ∨ s.inputs = [] ∧ rest = []) :
      Stepped s { s with inputs := rest }
  /-- the command in flight completes -/
  | completes (rest : List Event) (hi : s.inputs = .engine :: rest ∨ s.inputs = [] ∧ rest = []) (hb : s.busy = true)
      (hr : s.rst = false) {t : State} (h : complete { s with inputs := rest } = .next t) : Stepped s t
  /-- the reset input is driven -/
  | reset (rest : List Event) (level : Bool) (hi : s.inputs = .rst level :: rest) :
      Stepped s (({ s with inputs := rest } : State).driveReset level)
  /-- the host performs an access -/
  | access (rest : List Event) (a : Access) (hi : s.inputs = .access a :: rest) (hr : s.rst = false) :
      Stepped s (hostAccess a { s with inputs := rest })

theorem stepped_of_engineTurn {s t : State} {rest : List Event}
    (hi : s.inputs = .engine :: rest ∨ s.inputs = [] ∧ rest = [])
    (h : engineTurn { s with inputs := rest } = .next t) : Stepped s t := by
  unfold engineTurn at h
  split at h
  · rename_i hbr
    simp only [Bool.and_eq_true, Bool.not_eq_true'] at hbr
    exact .completes rest hi hbr.1 hbr.2 h
  · cases h
    exact .idle rest hi

/-- Everything a step can do. -/
theorem stepped_of_step {s t : State} (h : step s = .next t) : Stepped s t := by
  cases hi : s.inputs with
  | nil =>
    rw [step_empty hi] at h
    have hs : ({ s with inputs := [] } : State) = s := by rw [← hi]
    exact stepped_of_engineTurn (.inr ⟨hi, rfl⟩) (hs ▸ h)
  | cons e rest =>
    cases e with
    | engine => exact stepped_of_engineTurn (.inl hi) (step_engine hi ▸ h)
    | rst level =>
      rw [step_rst hi] at h
      cases h
      exact .reset rest level hi
    | access a =>
      cases hr : s.rst with
      | true => rw [step_refused hi hr] at h; cases h
      | false =>
        rw [step_access hi hr] at h
        cases h
        exact .access rest a hi hr

/-! ### What the invariants depend on -/

section
variable {s t : State}

theorem validmod_congr (h : t.mod = s.mod) : t.validmod = s.validmod := by rw [State.validmod, State.validmod, h]

theorem modof_congr (h : t.mod = s.mod) (g : Tag) : t.modof g = s.modof g := by
  cases g <;> simp only [State.modof, h]

theorem fieldRegOk_congr (h : t.mod = s.mod) {x : FieldReg} (hx : FieldRegOk s x) : FieldRegOk t x := by
  rwa [FieldRegOk, modof_congr h, validmod_congr h]

variable (hm : t.mod = s.mod) (ha : t.ca = s.ca) (hb : t.cb = s.cb)
include hm ha hb

theorem coef_congr (c : Curve) : t.coef c = s.coef c := by cases c <;> simp only [State.coef, hm, ha, hb]

theorem userRegular_congr : t.userRegular = s.userRegular := by
  rw [State.userRegular, State.userRegular, validmod_congr hm, hm, ha, hb]

theorem pointRegOk_congr {x : PointReg} (hx : PointRegOk s x) : PointRegOk t x := by
  simpa only [PointRegOk, coef_congr hm ha hb, validmod_congr hm, hm, ha, hb] using hx

theorem pointRegOnCurve_congr {x : PointReg} (hx : PointRegOnCurve s x) : PointRegOnCurve t x := by
  simpa only [PointRegOnCurve, coef_congr hm ha hb, userRegular_congr hm ha hb] using hx

end

/-- The register files of `t` are as R34 and R35 ask. -/
def RegsOk (t : State) : Prop := (∀ i, FieldRegOk t (t.getR i)) ∧ ∀ j, PointRegOk t (t.getQ j)

theorem inv_iff (s : State) : s.Inv ↔ RegsOk s ∧ StatusOk s := and_assoc.symm

theorem operands_eq_iff (s t : State) :
    t.operands = s.operands ↔ t.r = s.r ∧ t.q = s.q ∧ t.mod = s.mod ∧ t.ca = s.ca ∧ t.cb = s.cb := by
  simp [State.operands]

/-- `RegsOk` is about the operand state only. -/
theorem regsOk_of_operands {s t : State} (ho : t.operands = s.operands) (hs : RegsOk s) : RegsOk t := by
  obtain ⟨hr, hq, hm, ha, hb⟩ := (operands_eq_iff s t).mp ho
  refine ⟨fun i => ?_, fun j => ?_⟩
  · rw [State.getR, hr]; exact fieldRegOk_congr hm (hs.1 i)
  · rw [State.getQ, hq]; exact pointRegOk_congr hm ha hb (hs.2 j)

/-- `State.OnCurves` is about the operand state only. -/
theorem onCurves_of_operands {s t : State} (ho : t.operands = s.operands) (hs : s.OnCurves) : t.OnCurves := by
  obtain ⟨-, hq, hm, ha, hb⟩ := (operands_eq_iff s t).mp ho
  intro j
  rw [State.getQ, hq]
  exact pointRegOnCurve_congr hm ha hb (hs j)

/-- The status part of the invariant while the reset input is released. -/
theorem statusOk_of_released {s : State} (hr : s.rst = false) (he : s.err = false ↔ s.errcode = .none)
    (hb : s.busy = true → s.done = false ∧ s.err = false) : StatusOk s :=
  ⟨he, hb, fun h => by rw [hr] at h; cases h⟩

/-! ### Completion -/

/-- A completion leaves the parameters and the reset input as they were. -/
theorem exec_parameters {i : Instr} {s t : State} (h : exec i s = .next t) :
    t.mod = s.mod ∧ t.ca = s.ca ∧ t.cb = s.cb ∧ t.rst = s.rst := by
  cases exec_effect h <;> exact ⟨rfl, rfl, rfl, rfl⟩

/-- A command that completes ends in an error with a code, or leaves `ERR` and `ERRCODE` as they were (R252). -/
theorem exec_status {i : Instr} {s t : State} (h : exec i s = .next t) :
    t.busy = false ∧ (t.err = true ∧ t.errcode ≠ .none ∨ t.err = s.err ∧ t.errcode = s.errcode) := by
  cases exec_effect h with
  | failed e he => exact ⟨rfl, .inl ⟨rfl, he⟩⟩
  | bare | wroteR | wroteQ | wroteT => exact ⟨rfl, .inr ⟨rfl, rfl⟩⟩

theorem exec_inv {i : Instr} {s t : State} (hs : s.Inv) (hr : s.rst = false)
    (h : exec i s = .next t) : t.Inv := by
  obtain ⟨hm, ha, hcb, hrst⟩ := exec_parameters h
  obtain ⟨hbusy, hst⟩ := exec_status h
  obtain ⟨hf, hp, -⟩ := exec_regsKept (.refl hs) h
  refine ⟨fun i => fieldRegOk_congr hm (hf i), fun j => pointRegOk_congr hm ha hcb (hp j),
    statusOk_of_released (hrst.trans hr) ?_ (by simp [hbusy])⟩
  rcases hst with ⟨he, hc⟩ | ⟨he, hc⟩
  · simp [he, hc]
  · rw [he, hc]; exact hs.2.2.1

theorem exec_onCurves {i : Instr} {s t : State} (hs : s.Inv) (ho : s.OnCurves) (h : exec i s = .next t) :
    t.OnCurves := by
  obtain ⟨hm, ha, hcb, -⟩ := exec_parameters h
  exact fun j => pointRegOnCurve_congr hm ha hcb ((exec_regsKept (.refl hs) h).curve ho j)

theorem complete_inv {s t : State} (hs : s.Inv) (hr : s.rst = false)
    (h : complete s = .next t) : t.Inv := by
  rcases complete_eq s with ⟨i, _, he⟩ | ⟨e, _, he⟩
  · exact exec_inv hs hr (he ▸ h)
  · obtain rfl : s.raise .illegal = t := by rw [he] at h; cases h; rfl
    exact (inv_iff _).mpr ⟨regsOk_of_operands rfl ((inv_iff s).mp hs).1, statusOk_of_released hr (by simp) (by simp)⟩

theorem complete_onCurves {s t : State} (hs : s.Inv) (ho : s.OnCurves) (h : complete s = .next t) : t.OnCurves := by
  rcases complete_eq s with ⟨i, _, he⟩ | ⟨e, _, he⟩
  · exact exec_onCurves hs ho (he ▸ h)
  · obtain rfl : s.raise .illegal = t := by rw [he] at h; cases h; rfl
    exact onCurves_of_operands rfl ho

/-! ### Reset -/

/-- A state whose operand state is that after reset. -/
theorem regsOk_of_reset {t : State} (h : t.operands = State.reset.operands) : RegsOk t := by
  refine regsOk_of_operands h ⟨fun i => ?_, fun j => ?_⟩
  · rw [reset_getR]; exact fieldRegOk_raw _ _
  · rw [reset_getQ]; exact ⟨fun _ => ⟨rfl, rfl, rfl⟩, nofun, nofun, nofun⟩

theorem onCurves_of_reset {t : State} (h : t.operands = State.reset.operands) : t.OnCurves := by
  refine onCurves_of_operands h fun j => ?_
  rw [reset_getQ]
  exact nofun

theorem reset_inv : State.reset.Inv := (inv_iff _).mpr ⟨regsOk_of_reset rfl, iff_of_true rfl rfl, nofun, nofun⟩

/-- While the reset input moves, the engine is in the reset state or unchanged (70_reset_and_hazards.md R290). -/
theorem driveReset_cases (s : State) (level : Bool) :
    s.driveReset level = { State.reset with rst := level, inputs := s.inputs } ∨
      s.rst = false ∧ s.driveReset level = s := by
  cases hr : s.rst <;> cases level <;> simp [State.driveReset, hr]

theorem driveReset_inv {s : State} (hs : s.Inv) (level : Bool) : (s.driveReset level).Inv := by
  rcases driveReset_cases s level with h | ⟨-, h⟩ <;> rw [h]
  · refine (inv_iff _).mpr ⟨regsOk_of_reset rfl, iff_of_true rfl rfl, nofun, fun e => ?_⟩
    obtain rfl : level = true := e
    rfl
  · exact hs

theorem driveReset_onCurves {s : State} (ho : s.OnCurves) (level : Bool) : (s.driveReset level).OnCurves := by
  rcases driveReset_cases s level with h | ⟨-, h⟩ <;> rw [h]
  · exact onCurves_of_reset rfl
  · exact ho

/-! ### Tag invalidation (R37) -/

/-- A register that survives a write to `MOD` is as R34 asks whatever `MOD` has become. -/
theorem fieldRegOk_dropUserTag {s t : State} {x : FieldReg} (hx : FieldRegOk s x) : FieldRegOk t (dropUserTag x) := by
  obtain ⟨v, g⟩ := x
  cases g with
  | raw | m => exact fieldRegOk_raw t v
  | p | n => exact ⟨hx.1, nofun⟩

/-- A point that survives a write to a parameter is empty or of secp256k1, which depends on no parameter. -/
theorem dropUserPoint_cases (x : PointReg) : dropUserPoint x = .empty ∨ dropUserPoint x = x ∧ x.c ≠ some .user := by
  unfold dropUserPoint
  split
  · exact .inl rfl
  · exact .inr ⟨rfl, ‹_›⟩

theorem coef_of_ne_user {s t : State} {c : Curve} (h : c ≠ .user) : t.coef c = s.coef c := by
  cases c with
  | secp => rfl
  | user => exact absurd rfl h

theorem pointRegOk_dropUserPoint {s t : State} {x : PointReg} (hx : PointRegOk s x) :
    PointRegOk t (dropUserPoint x) := by
  rcases dropUserPoint_cases x with h | ⟨h, hu⟩ <;> rw [h]
  · exact ⟨fun _ => ⟨rfl, rfl, rfl⟩, nofun, nofun, nofun⟩
  · obtain ⟨hnone, hinf, hrange, -⟩ := hx
    refine ⟨hnone, hinf, fun c hc hi => ?_, fun hc => absurd hc hu⟩
    rw [coef_of_ne_user (s := s) (t := t) fun e => hu (e ▸ hc)]
    exact hrange c hc hi

theorem pointRegOnCurve_dropUserPoint {s t : State} {x : PointReg} (hx : PointRegOnCurve s x) :
    PointRegOnCurve t (dropUserPoint x) := by
  rcases dropUserPoint_cases x with h | ⟨h, hu⟩ <;> rw [h]
  · exact nofun
  · intro c hc hi _
    cases c with
    | secp => exact hx .secp hc hi (.inl rfl)
    | user => exact absurd hc hu

/-! ### Host accesses -/

/-- A write to operand state is discarded or performed (70_reset_and_hazards.md R305). -/
theorem unlessBusy_cases (s s' : State) :
    s.busy = true ∧ s.unlessBusy s' = s.overrun ∨ s.busy = false ∧ s.unlessBusy s' = s' := by
  cases hb : s.busy <;> simp [State.unlessBusy, hb]

/-- A write to `CMD` is discarded or puts a command in flight (60_exceptions.md R255). -/
theorem offer_cases (s : State) (v : Word) :
    s.offer v = s.overrun ∨ s.err = false ∧ s.offer v = s.accept v := by
  cases hb : s.busy <;> cases he : s.err <;> simp [State.offer, hb, he]

/-- A write to `CTRL` is a soft reset or sets the interrupt enables (10_state.md R40). -/
theorem writeCtrl_cases (s : State) (v : Word) :
    v.getLsbD 31 = true ∧ s.writeCtrl v = s.softReset ∨
      v.getLsbD 31 = false ∧ s.writeCtrl v = { s with ieDone := v.getLsbD 0, ieErr := v.getLsbD 1 } := by
  unfold State.writeCtrl
  split
  · exact .inl ⟨‹_›, rfl⟩
  · exact .inr ⟨Bool.eq_false_of_not_eq_true ‹_›, rfl⟩

/-- What a host write can do to a state. -/
inductive Written (s : State) (v : Word) : Loc → State → Prop where
  /-- a read-only or a reserved offset -/
  | ignored (loc : Loc) : Written s v loc s
  /-- the write is discarded -/
  | discarded (loc : Loc) : Written s v loc s.overrun
  | softReset (hv : v.getLsbD 31 = true) : Written s v .ctrl s.softReset
  | enables (hv : v.getLsbD 31 = false) :
      Written s v .ctrl { s with ieDone := v.getLsbD 0, ieErr := v.getLsbD 1 }
  | status : Written s v .status (s.clearStatus v)
  | accepted (he : s.err = false) : Written s v .cmd (s.accept v)
  | mod (k : Fin 8) (hb : s.busy = false) :
      Written s v (.mod k) ({ s with mod := setWord s.mod k v } : State).invalidateField
  | ca (k : Fin 8) (hb : s.busy = false) :
      Written s v (.ca k) ({ s with ca := setWord s.ca k v } : State).invalidatePoints
  | cb (k : Fin 8) (hb : s.busy = false) :
      Written s v (.cb k) ({ s with cb := setWord s.cb k v } : State).invalidatePoints
  | reg (i : RIdx) (k : Fin 8) (hb : s.busy = false) :
      Written s v (.reg i k) (s.setR i ⟨setWord (s.getR i).v k v, .raw⟩)

theorem written_unlessBusy {s s' : State} {v : Word} {loc : Loc} (h : s.busy = false → Written s v loc s') :
    Written s v loc (s.unlessBusy s') := by
  rcases unlessBusy_cases s s' with ⟨-, e⟩ | ⟨hb, e⟩ <;> rw [e]
  · exact .discarded loc
  · exact h hb

/-- Everything a host write can do. -/
theorem written_writeLoc (s : State) (v : Word) (loc : Loc) : Written s v loc (s.writeLoc v loc) := by
  cases loc with
  | ctrl =>
    rcases writeCtrl_cases s v with ⟨hv, e⟩ | ⟨hv, e⟩ <;> rw [State.writeLoc, e]
    · exact .softReset hv
    · exact .enables hv
  | status => exact .status
  | cmd =>
    rcases offer_cases s v with e | ⟨he, e⟩ <;> rw [State.writeLoc, e]
    · exact .discarded _
    · exact .accepted he
  | mod k => exact written_unlessBusy (.mod k)
  | ca k => exact written_unlessBusy (.ca k)
  | cb k => exact written_unlessBusy (.cb k)
  | reg i k => exact written_unlessBusy (.reg i k)
  | id | errcmd | rtags | qx | qy | qstat | reserved => exact .ignored _

/-- What an access can do: it leaves the engine as it is or is a write of a location, and is answered. -/
theorem hostAccess_cases (a : Access) (s : State) :
    (∃ x, hostAccess a s = { s with resp := x }) ∨
      ∃ (addr : BitVec 11) (v : Word), a = .write addr 4 v ∧ addr.toNat % 4 = 0 ∧
        hostAccess a s = { s.writeLoc v (locate addr.toNat) with resp := .ack } := by
  cases a with
  | read addr size =>
    cases hp : portOk addr size
    · exact .inl ⟨.busError, by simp [hostAccess, hp]⟩
    · exact .inl ⟨.data (s.readLoc (locate addr.toNat)), by simp [hostAccess, hp]⟩
  | write addr size v =>
    cases hp : portOk addr size
    · exact .inl ⟨.busError, by simp [hostAccess, hp]⟩
    · obtain ⟨rfl, h4⟩ : size = 4 ∧ addr.toNat % 4 = 0 := by simpa [portOk] using hp
      exact .inr ⟨addr, v, rfl, h4, by simp [hostAccess, hp]⟩

theorem regsOk_written {s t : State} {v : Word} {loc : Loc} (hs : RegsOk s) (h : Written s v loc t) : RegsOk t := by
  obtain ⟨hf, hp⟩ := hs
  cases h with
  | ignored | discarded | enables | status | accepted => exact regsOk_of_operands rfl ⟨hf, hp⟩
  | softReset => exact regsOk_of_reset rfl
  | mod k =>
    refine ⟨fun i => ?_, fun j => ?_⟩
    · rw [getR_invalidateField]; exact fieldRegOk_dropUserTag (hf i)
    · rw [getQ_invalidateField]; exact pointRegOk_dropUserPoint (hp j)
  | ca k | cb k =>
    refine ⟨hf, fun j => ?_⟩
    rw [getQ_invalidatePoints]
    exact pointRegOk_dropUserPoint (hp j)
  | reg i k =>
    refine ⟨fun l => ?_, hp⟩
    by_cases hl : l = i
    · rw [hl, getR_setR_same]; exact fieldRegOk_raw _ _
    · rw [getR_setR_other s hl]; exact hf l

theorem onCurves_written {s t : State} {v : Word} {loc : Loc} (ho : s.OnCurves) (h : Written s v loc t) :
    t.OnCurves := by
  cases h with
  | ignored | discarded | enables | status | accepted => exact onCurves_of_operands rfl ho
  | softReset => exact onCurves_of_reset rfl
  | mod k => intro j; rw [getQ_invalidateField]; exact pointRegOnCurve_dropUserPoint (ho j)
  | ca k | cb k => intro j; rw [getQ_invalidatePoints]; exact pointRegOnCurve_dropUserPoint (ho j)
  | reg i k => exact ho

theorem statusOk_written {s t : State} {v : Word} {loc : Loc} (hr : s.rst = false) (hs : StatusOk s)
    (h : Written s v loc t) : StatusOk t := by
  obtain ⟨he, hb, hrst⟩ := hs
  cases h with
  | ignored => exact ⟨he, hb, hrst⟩
  | discarded | enables | mod | ca | cb | reg => exact statusOk_of_released hr he hb
  | softReset => exact statusOk_of_released hr (iff_of_true rfl rfl) nofun
  | status =>
    refine statusOk_of_released hr ?_ fun hbusy => ?_
    · simp only [State.clearStatus_err, State.clearStatus_errcode]
      cases v.getLsbD 2
      · simpa using he
      · simp
    · obtain ⟨hd, hc⟩ := hb hbusy
      simp [hd, hc]
  | accepted hc => exact statusOk_of_released hr he fun _ => ⟨rfl, hc⟩

theorem written_rst {s t : State} {v : Word} {loc : Loc} (h : Written s v loc t) : t.rst = s.rst := by
  cases h <;> rfl

theorem inv_resp {s : State} (hr : s.rst = false) (hs : s.Inv) (x : Response) :
    ({ s with resp := x } : State).Inv := by
  obtain ⟨hregs, he, hb, -⟩ := (inv_iff s).mp hs
  exact (inv_iff _).mpr ⟨regsOk_of_operands rfl hregs, statusOk_of_released hr he hb⟩

theorem writeLoc_inv {s : State} (hr : s.rst = false) (hs : s.Inv) (v : Word) (loc : Loc) :
    (s.writeLoc v loc).Inv := by
  obtain ⟨hregs, hst⟩ := (inv_iff s).mp hs
  have hw := written_writeLoc s v loc
  exact (inv_iff _).mpr ⟨regsOk_written hregs hw, statusOk_written hr hst hw⟩

theorem hostAccess_inv {s : State} (hr : s.rst = false) (hs : s.Inv) (a : Access) : (hostAccess a s).Inv := by
  rcases hostAccess_cases a s with ⟨x, h⟩ | ⟨addr, v, -, -, h⟩ <;> rw [h]
  · exact inv_resp hr hs x
  · exact inv_resp ((written_rst (written_writeLoc s v _)).trans hr) (writeLoc_inv hr hs v _) .ack

theorem hostAccess_onCurves {s : State} (ho : s.OnCurves) (a : Access) : (hostAccess a s).OnCurves := by
  rcases hostAccess_cases a s with ⟨x, h⟩ | ⟨addr, v, -, -, h⟩ <;> rw [h]
  · exact onCurves_of_operands rfl ho
  · have hw := onCurves_written ho (written_writeLoc s v (locate addr.toNat))
    exact onCurves_of_operands rfl hw

/-! ### The invariants over a step -/

/-- The invariant does not look at the events still to come. -/
theorem inv_inputs {s : State} (hs : s.Inv) (rest : List Event) : ({ s with inputs := rest } : State).Inv := by
  obtain ⟨hregs, he, hb, hrst⟩ := (inv_iff s).mp hs
  refine (inv_iff _).mpr ⟨regsOk_of_operands rfl hregs, he, hb, fun h => ?_⟩
  rw [hrst h]

end Sys2Proof.Machine

open Sys2Proof Sys2Proof.Machine

/-- Settles O32, by the cases of a step. -/
theorem stepKeepsRegisterInvariant : Obligations.StepKeepsRegisterInvariant := by
  intro s t hs h
  cases stepped_of_step h with
  | idle rest => exact inv_inputs hs rest
  | completes rest _ _ hr hc => exact complete_inv (inv_inputs hs rest) hr hc
  | reset rest level => exact driveReset_inv (inv_inputs hs rest) level
  | access rest a _ hr => exact hostAccess_inv (s := { s with inputs := rest }) hr (inv_inputs hs rest) a

/-- Settles O33, by the cases of a step; the register invariant gives the ranges that the group law needs. -/
theorem stepKeepsPointsOnCurve : Obligations.StepKeepsPointsOnCurve := by
  intro s t hs ho h
  have ho' : ∀ rest, ({ s with inputs := rest } : State).OnCurves := fun _ => onCurves_of_operands rfl ho
  cases stepped_of_step h with
  | idle rest => exact ho' rest
  | completes rest _ _ _ hc => exact complete_onCurves (inv_inputs hs rest) (ho' rest) hc
  | reset rest level => exact driveReset_onCurves (ho' rest) level
  | access rest a => exact hostAccess_onCurves (ho' rest) a

/-- Settles O31. -/
theorem resetMeetsInvariant : Obligations.ResetMeetsInvariant := ⟨reset_inv, onCurves_of_reset rfl⟩
end

section
/-! SUPPORT. Reads and resets (10_state.md R38 to R45, R49): what a 32-bit read answers, the status and tag words bit by
bit, who writes the test flag, and the state after each kind of reset. -/

namespace Sys2Proof.Machine

/-! ### A 32-bit access (20_memory.md R70) -/

theorem readLoc_inputs (s : State) (rest : List Event) (loc : Loc) :
    ({ s with inputs := rest } : State).readLoc loc = s.readLoc loc := by cases loc <;> rfl

/-- A legal offset reaches the address map as it is. -/
theorem portOk_ofNat {addr : Nat} (h : addr < 0x800) (h4 : addr % 4 = 0) :
    (BitVec.ofNat 11 addr).toNat = addr ∧ portOk (BitVec.ofNat 11 addr) 4 = true := by
  have e : (BitVec.ofNat 11 addr).toNat = addr := Nat.mod_eq_of_lt h
  simp [portOk, e, h4]

theorem step_nextRead {s : State} {addr : Nat} {rest : List Event} (hn : NextRead s addr rest) (h : addr < 0x800)
    (h4 : addr % 4 = 0) : step s = .next (afterRead s rest (s.readLoc (locate addr))) := by
  obtain ⟨hr, hi⟩ := hn
  obtain ⟨e, hp⟩ := portOk_ofNat h h4
  rw [step_access hi hr, hostAccess, if_pos hp, e, readLoc_inputs]
  rfl

theorem step_nextWrite {s : State} {addr : Nat} {v : Word} {rest : List Event} (hn : NextWrite s addr v rest)
    (h : addr < 0x800) (h4 : addr % 4 = 0) :
    step s = .next { ({ s with inputs := rest } : State).writeLoc v (locate addr) with resp := .ack } := by
  obtain ⟨hr, hi⟩ := hn
  obtain ⟨e, hp⟩ := portOk_ofNat h h4
  rw [step_access hi hr, hostAccess, if_pos hp, e]

/-! ### Words as numbers -/

/-- `STATUS` as a number (10_state.md R39). -/
theorem statusWord_eq (s : State) : s.statusWord = BitVec.ofNat 32 (s.busy.toNat + 2 * s.done.toNat +
    4 * s.err.toNat + 8 * s.ovr.toNat + 16 * s.t.toNat + 256 * (errBits s.errcode).toNat) := by
  apply BitVec.eq_of_toNat_eq
  have := Bool.toNat_lt s.busy
  have := Bool.toNat_lt s.done
  have := Bool.toNat_lt s.err
  have := Bool.toNat_lt s.ovr
  have := Bool.toNat_lt s.t
  have := (errBits s.errcode).isLt
  simp only [State.statusWord, append_toNat, BitVec.toNat_ofBool, BitVec.ofNat_eq_ofNat,
    BitVec.toNat_ofNat]
  omega

/-- `CTRL` as a number (R40). -/
theorem ctrlWord_eq (s : State) : s.ctrlWord = BitVec.ofNat 32 (s.ieDone.toNat + 2 * s.ieErr.toNat) := by
  apply BitVec.eq_of_toNat_eq
  have := Bool.toNat_lt s.ieDone
  have := Bool.toNat_lt s.ieErr
  simp only [State.ctrlWord, append_toNat, BitVec.toNat_ofBool, BitVec.ofNat_eq_ofNat,
    BitVec.toNat_ofNat]
  omega

/-- `QSTAT` as a number (R45). -/
theorem qstatWord_eq (q : PointReg) : q.qstatWord = BitVec.ofNat 32 ((curveBits q.c).toNat + 4 * q.inf.toNat) := by
  apply BitVec.eq_of_toNat_eq
  have := Bool.toNat_lt q.inf
  have := (curveBits q.c).isLt
  simp only [PointReg.qstatWord, append_toNat, BitVec.toNat_ofBool, BitVec.ofNat_eq_ofNat,
    BitVec.toNat_ofNat]
  omega

theorem packTags_lt (xs : List FieldReg) : packTags xs < 4 ^ xs.length := by
  induction xs with
  | nil => decide
  | cons x xs ih =>
    have := (tagBits x.t).isLt
    rw [packTags, List.length_cons, pow_succ]
    omega

/-- The tag of register `i` stands at base-4 digit `i`. -/
theorem packTags_digit (xs : List FieldReg) (i : Nat) (h : i < xs.length) :
    packTags xs / 4 ^ i % 4 = (tagBits xs[i].t).toNat := by
  induction xs generalizing i with
  | nil => cases h
  | cons x xs ih =>
    have := (tagBits x.t).isLt
    cases i with
    | zero => simp only [packTags, List.getElem_cons_zero]; omega
    | succ i =>
      rw [packTags, pow_succ', ← Nat.div_div_eq_div_mul, List.getElem_cons_succ, ← ih i (by simpa using h)]
      congr 2
      omega

/-- Bits `2i+1 : 2i` of `RTAGS` are the tag of `R[i]` (R44). -/
theorem rtagsWord_digit (s : State) (i : Fin 16) :
    s.rtagsWord.toNat / 2 ^ (2 * i.val) % 4 = (tagBits (s.getR i).t).toNat := by
  have hlt : packTags s.r.toList < 2 ^ 32 := by simpa using packTags_lt s.r.toList
  rw [State.rtagsWord, BitVec.toNat_ofNat, Nat.mod_eq_of_lt hlt, pow_mul]
  simpa [State.getR] using packTags_digit s.r.toList i.val (by simp)

/-! ### The test flag -/

/-- A host write leaves `T` as it is, or is a soft reset (R38). -/
theorem written_t {s t : State} {v : Word} {loc : Loc} (h : Written s v loc t) :
    t.t = s.t ∨ loc = .ctrl ∧ v.getLsbD 31 = true ∧ t.t = false := by
  cases h with
  | softReset hv => exact .inr ⟨rfl, hv, rfl⟩
  | ignored | discarded | enables | status | accepted | mod | ca | cb | reg => exact .inl rfl

/-- `CTRL` stands at one offset (20_memory.md R71). -/
theorem locate_eq_ctrl {addr : Nat} (h : locate addr = .ctrl) : addr = 0x004 := by
  simp only [locate, ite_eq_iff, reduceCtorEq, and_false, or_false] at h
  obtain ⟨-, h⟩ := h
  split at h
  all_goals cases h
  rfl

/-! ### Reset -/

/-- R49's values do not depend on the world outside the engine. -/
theorem atReset_of_reset (rst : Bool) (inputs : List Event) (resp : Response) :
    AtReset { State.reset with rst := rst, inputs := inputs, resp := resp } :=
  ⟨reset_getR, reset_getQ, rfl, rfl, rfl, rfl, rfl, statusWord_eq _, ctrlWord_eq _, rfl, rfl, rfl, rfl, rfl⟩

theorem driveReset_true (s : State) : s.driveReset true = { State.reset with rst := true, inputs := s.inputs } := by
  simp [State.driveReset]

end Sys2Proof.Machine

open Sys2Proof Sys2Proof.Machine

/-- Settles O12: of the effects of a completion only a test's writes `T`, and of the host's writes only the soft
reset. -/
theorem testFlagWriters : Obligations.TestFlagWriters := by
  refine ⟨fun i s t h ht => ?_, fun s t a rest hi h ht => ?_⟩
  · cases exec_effect h with
    | wroteT b hb => exact ⟨hb, rfl, rfl⟩
    | failed | bare | wroteR | wroteQ => exact absurd rfl ht
  · cases hr : s.rst with
    | true => rw [step_refused hi hr] at h; cases h
    | false =>
      obtain rfl : hostAccess a { s with inputs := rest } = t := by rw [step_access hi hr] at h; cases h; rfl
      rcases hostAccess_cases a { s with inputs := rest } with ⟨x, e⟩ | ⟨addr, v, rfl, -, e⟩ <;> rw [e] at ht ⊢
      · exact absurd rfl ht
      · rcases written_t (written_writeLoc { s with inputs := rest } v (locate addr.toNat)) with ht' | ⟨hl, hv, ht'⟩
        · exact absurd ht' ht
        · have haddr : addr = 0x004 := BitVec.eq_of_toNat_eq (locate_eq_ctrl hl)
          exact ⟨ht', v, by rw [haddr], hv⟩

/-- Settles O26, digit by digit of the packed tags. -/
theorem tagViews : Obligations.TagViews := by
  refine fun s rest => ⟨fun hn => ?_, fun j hn => ?_⟩
  · refine ⟨s.readLoc .rtags, step_nextRead hn (by decide) (by decide), fun hb => ?_, fun hb i => ?_⟩
    · simp [State.readLoc, State.whenIdle, hb]
    · have hd := rtagsWord_digit s i
      simp only [State.readLoc, State.whenIdle, hb, Bool.false_eq_true, if_false, hd]
      cases (s.getR i).t <;> rfl
  · rw [step_nextRead hn (by omega) (by omega), locate_qstat, State.readLoc, State.whenIdle, qstatWord_eq]
    rcases (s.getQ j).c with _ | _ | _ <;> rfl

/-- Settles O25, from the words of R39 and R40 as numbers. -/
theorem controlWordsReadLive : Obligations.ControlWordsReadLive := by
  refine fun s rest => ⟨fun hn => ?_, fun hn => ?_, fun hn => ?_, fun hn => ?_, fun hn => ?_⟩
  all_goals rw [step_nextRead hn (by decide) (by decide)]
  · rfl
  · rw [← ctrlWord_eq]; rfl
  · change Host.Outcome.next (afterRead s rest s.statusWord) = _
    rw [statusWord_eq]
    cases s.errcode <;> rfl
  · rfl
  · rfl

/-- Settles O28: each kind of reset gives the reset state but for the world outside the engine. -/
theorem resetValues : Obligations.ResetValues := by
  refine ⟨atReset_of_reset false [] .none, fun s rest hi => ⟨_, step_rst hi, ?_⟩, fun s v rest hn hv =>
    ⟨_, step_nextWrite hn (by decide) (by decide), ?_⟩⟩
  · rw [driveReset_true]
    exact atReset_of_reset true rest .none
  · have e : ({ s with inputs := rest } : State).writeLoc v (locate 0x004) =
        ({ s with inputs := rest } : State).softReset := if_pos hv
    rw [e]
    exact atReset_of_reset s.rst rest .ack
end

section
/-! SUPPORT. The register window (20_memory.md): which registers a command leaves alone, a window access that reads a
word, replaces it or is discarded, the eight writes that load a register, and the offsets whose writes are ignored. -/

namespace Sys2Proof.Machine

/-! ### Words as numbers (R72) -/

theorem getWord_eq_wordOf (x : Word256) (k : Fin 8) : getWord x k = wordOf x k := by
  apply BitVec.eq_of_toNat_eq
  rw [getWord, wordOf, BitVec.extractLsb'_toNat, BitVec.toNat_ofNat, Nat.shiftRight_eq_div_pow, wordLo]

theorem wordOf_setWord_same (x : Word256) (k : Fin 8) (v : Word) : wordOf (setWord x k v) k = v := by
  rw [← getWord_eq_wordOf, getWord_setWord_same]

theorem wordOf_setWord_other (x : Word256) {k l : Fin 8} (hkl : l ≠ k) (v : Word) :
    wordOf (setWord x k v) l = wordOf x l := by
  rw [← getWord_eq_wordOf, getWord_setWord_other x hkl, getWord_eq_wordOf]

/-! ### One access to a window -/

/-- A read of a word of operand state answers 0 while a command is in flight (R73, R74, R76). -/
theorem step_windowRead {s : State} {addr : Nat} {rest : List Event} {x : Word256} {k : Fin 8} (h : addr < 0x800)
    (h4 : addr % 4 = 0) (hl : s.readLoc (locate addr) = s.whenIdle (getWord x k)) (hn : NextRead s addr rest) :
    step s = .next (afterRead s rest (if s.busy then 0 else wordOf x k)) := by
  rw [step_nextRead hn h h4, hl, State.whenIdle, getWord_eq_wordOf]

/-- A write to a word of operand state is discarded while a command is in flight, and performed otherwise (R305). -/
theorem step_windowWrite {s s' : State} {addr : Nat} {v : Word} {rest : List Event} (h : addr < 0x800)
    (h4 : addr % 4 = 0)
    (hl : ({ s with inputs := rest } : State).writeLoc v (locate addr) =
      ({ s with inputs := rest } : State).unlessBusy s') (hn : NextWrite s addr v rest) :
    (s.busy = true → step s = .next (afterDiscarded s rest)) ∧
      (s.busy = false → step s = .next { s' with resp := .ack }) := by
  rw [step_nextWrite hn h h4, hl]
  refine ⟨fun hb => ?_, fun hb => ?_⟩
  · rw [State.unlessBusy, if_pos hb]; rfl
  · rw [State.unlessBusy, if_neg (by simp [hb])]

/-- A write that its location ignores is acknowledged (R74, R79). -/
theorem step_ignoredWrite {s : State} {addr : Nat} {v : Word} {rest : List Event} (h : addr < 0x800)
    (h4 : addr % 4 = 0) (hl : ∀ u : State, u.writeLoc v (locate addr) = u) (hn : NextWrite s addr v rest) :
    step s = .next (afterIgnored s rest) := by
  rw [step_nextWrite hn h h4, hl]
  rfl

/-- A word write to an idle engine's `R[i]` replaces the word and drops the tag (R73). -/
theorem step_regWrite {s : State} {i : RIdx} {k : Fin 8} {v : Word} {rest : List Event} (hb : s.busy = false)
    (hn : NextWrite s (0x100 + 0x20 * i.val + 4 * k.val) v rest) :
    step s = .next
      { s with r := s.r.set i.val ⟨setWord (s.getR i).v k v, .raw⟩, inputs := rest, resp := .ack } :=
  (step_windowWrite (by omega) (by omega) (by rw [locate_reg]; rfl) hn).2 hb

/-! ### Tag invalidation (10_state.md R37) -/

theorem dropUserTag_eq (x : FieldReg) : dropUserTag x = ⟨x.v, if x.t = .m then .raw else x.t⟩ := by
  unfold dropUserTag
  split <;> rfl

/-! ### The eight writes of a register (R123) -/

/-- `x` after its words named in the list are replaced by those of `v`, in that order. -/
def copyWords (v : Word256) : List (Fin 8) → Word256 → Word256
  | [], x => x
  | k :: ks, x => copyWords v ks (setWord x k (wordOf v k))

theorem getWord_copyWords (v : Word256) (ks : List (Fin 8)) (x : Word256) (l : Fin 8) :
    getWord (copyWords v ks x) l = if l ∈ ks then getWord v l else getWord x l := by
  induction ks generalizing x with
  | nil => simp [copyWords]
  | cons k ks ih =>
    rw [copyWords, ih]
    by_cases hk : l = k
    · subst hk
      simp [getWord_setWord_same, getWord_eq_wordOf v]
    · simp [hk, getWord_setWord_other x hk]

/-- All eight words of `v` are `v`. -/
theorem copyWords_finRange (v x : Word256) : copyWords v (List.finRange 8) x = v :=
  eq_of_getWord_eq fun l => by rw [getWord_copyWords, if_pos (List.mem_finRange l)]

/-- The host's write of word `k` of `v` to its place in `R[i]`. -/
def wordWrite (i : RIdx) (v : Word256) (k : Fin 8) : Event :=
  .access (.write (BitVec.ofNat 11 (0x100 + 0x20 * i.val + 4 * k.val)) 4 (wordOf v k))

/-- A run over word writes to `R[i]`, of which there is at least one, so that the tag is dropped. -/
theorem run_wordWrites {i : RIdx} {v : Word256} {rest : List Event} (ks : List (Fin 8)) (k : Fin 8) (s : State)
    (hr : s.rst = false) (hb : s.busy = false) (hi : s.inputs = (k :: ks).map (wordWrite i v) ++ rest) :
    Host.Core.run Sys2Proof.core (ks.length + 1) s =
      .next { s with
        r := s.r.set i.val ⟨copyWords v (k :: ks) (s.getR i).v, .raw⟩, inputs := rest, resp := .ack } := by
  induction ks generalizing k s with
  | nil => exact run_next 0 (step_regWrite hb ⟨hr, hi⟩)
  | cons l ks ih =>
    refine (run_next (ks.length + 1) (step_regWrite hb ⟨hr, hi⟩)).trans ((ih l _ ?_ ?_ rfl).trans ?_)
    · exact hr
    · exact hb
    · simp [copyWords, State.getR]

/-! ### Reserved and read-only offsets (R79) -/

/-- The offsets that R71 lists as reserved. -/
theorem locate_reserved {addr : Nat} (h4 : addr % 4 = 0)
    (h : (0x014 ≤ addr ∧ addr < 0x020) ∨ (0x080 ≤ addr ∧ addr < 0x100) ∨ (0x304 ≤ addr ∧ addr < 0x400) ∨
      (0x400 ≤ addr ∧ 0x44 ≤ addr % 0x80)) : locate addr = .reserved := by
  rcases h with ⟨h1, h2⟩ | ⟨h1, h2⟩ | ⟨h1, h2⟩ | ⟨h1, h2⟩
  · obtain rfl | rfl | rfl : addr = 0x014 ∨ addr = 0x018 ∨ addr = 0x01C := by omega
    all_goals rfl
  all_goals simp (disch := omega) only [locate, if_neg, if_pos]

/-- The whole window of the point registers ignores writes. -/
theorem writeLoc_pointWindow {addr : Nat} (h : 0x400 ≤ addr) (v : Word) (u : State) :
    u.writeLoc v (locate addr) = u := by
  simp (disch := omega) only [locate, if_neg]
  split_ifs <;> rfl

end Sys2Proof.Machine

open Sys2Proof Sys2Proof.Machine

/-- Settles O10: each effect of a completion writes the command's destination or no register. -/
theorem onlyDestinationChanges : Obligations.OnlyDestinationChanges := by
  intro i s t h
  cases exec_effect h with
  | failed | bare | wroteT => exact ⟨fun _ _ => rfl, fun _ _ => rfl⟩
  | wroteR d x hd => exact ⟨fun k hk => getR_setR_other s (by rintro rfl; exact hk hd) x, fun _ _ => rfl⟩
  | wroteQ d x hd => exact ⟨fun _ _ => rfl, fun j hj => getQ_setQ_other s (by rintro rfl; exact hj hd) x⟩

/-- Settles O17, by the cases of a step: without a command in flight the engine's turn changes nothing. -/
theorem idleOperandStateIsStable : Obligations.IdleOperandStateIsStable := by
  intro s t hb h ho
  cases stepped_of_step h with
  | idle => exact absurd rfl ho
  | completes rest _ hbusy => rw [hb] at hbusy; cases hbusy
  | reset rest level hi => exact .inr ⟨level, rest, hi⟩
  | access rest a hi =>
    rcases hostAccess_cases a { s with inputs := rest } with ⟨x, e⟩ | ⟨addr, v, rfl, -, -⟩
    · rw [e] at ho; exact absurd rfl ho
    · exact .inl ⟨addr, v, rest, hi⟩

/-- Settles O18: a performed write replaces the word and drops the tag. -/
theorem fieldRegisterWindow : Obligations.FieldRegisterWindow := by
  refine fun s i k rest => ⟨step_windowRead (by omega) (by omega) (by rw [locate_reg]; rfl), fun v hn => ?_⟩
  obtain ⟨hbusy, -⟩ := step_windowWrite (by omega) (by omega) (by rw [locate_reg]; rfl) hn
  exact ⟨hbusy, fun hb => ⟨_, wordOf_setWord_same _ k v, fun l hl => wordOf_setWord_other _ hl v,
    step_regWrite hb hn⟩⟩

/-- Settles O19: the window answers reads as every view of operand state, and its offsets ignore writes. -/
theorem pointRegisterWindow : Obligations.PointRegisterWindow := by
  refine fun s j k rest => ⟨step_windowRead (by omega) (by omega) (by rw [locate_qx]; rfl),
    step_windowRead (by omega) (by omega) (by rw [locate_qy]; rfl), ?_⟩
  rintro v (hn | hn)
  all_goals exact step_ignoredWrite (by omega) (by omega) (writeLoc_pointWindow (by omega) v) hn

/-- Settles O20: a performed write replaces the word and invalidates what depends on `MOD`. -/
theorem modWindow : Obligations.ModWindow := by
  refine fun s k rest => ⟨step_windowRead (by omega) (by omega) (by rw [locate_mod]; rfl), fun v hn => ?_⟩
  obtain ⟨hbusy, hidle⟩ := step_windowWrite (by omega) (by omega) (by rw [locate_mod]; rfl) hn
  exact ⟨hbusy, fun hb => ⟨_, hidle hb, rfl, wordOf_setWord_same _ k v, fun l hl => wordOf_setWord_other _ hl v,
    fun i => (getR_invalidateField _ i).trans (dropUserTag_eq _), getQ_invalidateField _⟩⟩

/-- Settles O21: a performed write replaces the word and clears the points of the user curve. -/
theorem curveCoefficientWindows : Obligations.CurveCoefficientWindows := by
  refine fun s k rest => ⟨step_windowRead (by omega) (by omega) (by rw [locate_ca]; rfl),
    step_windowRead (by omega) (by omega) (by rw [locate_cb]; rfl), fun v hn => ?_, fun v hn => ?_⟩
  on_goal 1 => have hw := step_windowWrite (by omega) (by omega) (by rw [locate_ca]; rfl) hn
  on_goal 2 => have hw := step_windowWrite (by omega) (by omega) (by rw [locate_cb]; rfl) hn
  all_goals
    obtain ⟨hbusy, hidle⟩ := hw
    exact ⟨hbusy, fun hb => ⟨_, hidle hb, rfl, wordOf_setWord_same _ k v, fun l hl => wordOf_setWord_other _ hl v,
      getQ_invalidatePoints _⟩⟩

/-- Settles O22: the writes copy all eight words of `v`. -/
theorem eightWritesLoadRegister : Obligations.EightWritesLoadRegister := by
  intro s i v rest hr hb hi
  have hrun := run_wordWrites [1, 2, 3, 4, 5, 6, 7] 0 s hr hb hi
  rwa [show (0 : Fin 8) :: [1, 2, 3, 4, 5, 6, 7] = List.finRange 8 from rfl, copyWords_finRange] at hrun

/-- Settles O24, from the map of R71. -/
theorem reservedAndReadOnlyOffsets : Obligations.ReservedAndReadOnlyOffsets := by
  intro s addr rest h h4 reserved
  refine ⟨fun hres hn => ?_, fun v hro => step_ignoredWrite h h4 fun u => ?_⟩
  · rw [step_nextRead hn h h4, locate_reserved h4 hres, State.readLoc]
  · rcases hro with hres | rfl | rfl | rfl | hq
    · rw [locate_reserved h4 hres, State.writeLoc]
    · rfl
    · rfl
    · rfl
    · exact writeLoc_pointWindow hq v u

/-- Settles O23: the size and the offset alone decide between an error response and an answer. -/
theorem busErrorsAndReadsChangeNothing : Obligations.BusErrorsAndReadsChangeNothing := by
  refine fun s addr size rest hr => ⟨fun hbad => ?_, fun h4 ha hi => ⟨s.readLoc (locate addr.toNat), ?_⟩⟩
  · have hp : portOk addr size = false := by simpa [portOk, imp_iff_not_or] using hbad
    refine ⟨fun hi => ?_, fun v hi => ?_⟩
    all_goals rw [step_access hi hr, hostAccess, if_neg (by simp [hp])]
  · have hp : portOk addr size = true := by simp [portOk, h4, ha]
    rw [step_access hi hr, hostAccess, if_pos hp, readLoc_inputs]
end

section
/-! SUPPORT. The round trip between commands and words (30_encoding.md R118 to R120): what `decode` makes of an encoded
command, and, the other way, that every word that meets a row is the word of a well-formed command of that row. -/

namespace Sys2Proof

/-! ### What the decoder answers -/

theorem accept_eq_ok_iff {w : Word} {i j : Instr} : accept w i = .ok j ↔ i = j ∧ w &&& i.mask = i.pattern := by
  by_cases h : w &&& i.mask = i.pattern <;> simp [accept, h]

theorem accept_cases (w : Word) (i : Instr) : accept w i = .ok i ∨ ∃ e, accept w i = .error e := by
  by_cases h : w &&& i.mask = i.pattern <;> simp [accept, h]

/-- The decoder offers a word to one row, or its opcode has none (R119). -/
theorem decode_cases (w : Word) :
    (∃ i, decode w = accept w i) ∨ decode w = .error (.unassignedOpcode (opcOf w)) := by
  unfold decode
  split
  case h_28 => exact .inr rfl
  all_goals exact .inl ⟨_, rfl⟩

/-- A word that decodes meets the row of its command. -/
theorem meets_of_decode {w : Word} {i : Instr} (h : decode w = .ok i) : w &&& i.mask = i.pattern := by
  rcases decode_cases w with ⟨j, hj⟩ | he
  · obtain ⟨rfl, hw⟩ := accept_eq_ok_iff.mp (hj ▸ h)
    exact hw
  · rw [he] at h; cases h

/-- The word of any command, well formed or not, has the opcode and the operands of the command, so the decoder offers
it to that command's row. -/
theorem decode_encode_eq_accept (i : Instr) : decode (encode i) = accept (encode i) i := by
  cases i
  all_goals simp [encode, decode, opcOf_assemble, rD_assemble, rA_assemble, rB_assemble, qD_assemble, qA_assemble,
    qB_assemble, selOf_assemble, negOf_assemble, x8Of_assemble, tagOf_tagBits, opcOf_assembleK, rD_assembleK,
    k16Of_assembleK]

/-- The word of a well-formed command meets the command's row. -/
theorem encode_meets (i : Instr) : i.WellFormed → encode i &&& i.mask = i.pattern :=
  open Laws.EncodingMeetsRow in
  Instr.rec (motive := Statement) nop mov ldi ldc intEq intOdd feNew feAdd feSub feMul fePow feInv feDiv feSmul feSqrt
    feEq ptInf ptGen ptNew ptAdd ptMul ptEq ptIsInf ptGetX ptGetY ptMov ptDeser i

/-! ### A word that meets a row, cut into its fields -/

theorem append_inj {n m : Nat} {x x' : BitVec n} {y y' : BitVec m} (h : x ++ y = x' ++ y') : x = x' ∧ y = y' := by
  have hx : x = x' := by
    rw [← BitVec.extractLsb'_append_eq_left (a := x) (b := y), h, BitVec.extractLsb'_append_eq_left]
  exact ⟨hx, (BitVec.append_right_inj x').mp (hx ▸ h)⟩

/-- A masked word, cut in two: the converse of `append_and_eq`. -/
theorem exists_append_of_and_eq {n m : Nat} {w : BitVec (n + m)} {x' z : BitVec n} {y' u : BitVec m}
    (h : w &&& (x' ++ y') = z ++ u) : ∃ x y, w = x ++ y ∧ x &&& x' = z ∧ y &&& y' = u := by
  have hw : w = w.extractLsb' m n ++ w.extractLsb' 0 m := BitVec.extractLsb'_append_extractLsb'.symm
  rw [hw, append_and] at h
  exact ⟨_, _, hw, append_inj h⟩

/-- Every value of a field that is 0 under the field's part `m` of a mask is `f` of an operand. -/
def Covers {n : Nat} {ι : Type} (m : BitVec n) (f : ι → BitVec n) : Prop := ∀ x, x &&& m = 0 → ∃ i, f i = x

namespace Covers

theorem unused {n : Nat} : Covers (BitVec.allOnes n) (fun _ : Unit => 0) := fun _ h =>
  ⟨(), h.symm.trans BitVec.and_allOnes⟩

theorem any {n : Nat} : Covers 0 (id : BitVec n → BitVec n) := fun x _ => ⟨x, rfl⟩

/-- Every value of the field names a field register (R112). -/
theorem fieldReg : Covers 0 rBits := by unfold Covers; decide

/-- A field whose bit 3 is 0 names a point register (R112). -/
theorem pointReg : Covers 8 qBits := by unfold Covers; decide

theorem tag : Covers 0 tagBits := fun sel _ => ⟨tagOf sel, tagBits_tagOf sel⟩

theorem neg : Covers 0 negBit := by unfold Covers; decide

/-- A select whose bit 11 of the word is 0 is well formed (R113). -/
theorem curve : Covers 2 (Subtype.val : { sel // curveSelectOk sel = true } → BitVec 2) := fun sel h =>
  ⟨⟨sel, by revert sel; decide⟩, rfl⟩

/-- An index whose bits 15:2 are 0 is well formed (R116). -/
theorem constIndex : Covers 0xFFFC (Subtype.val : { k // constIndexOk k = true } → BitVec 16) := fun k h => by
  change k &&& (BitVec.allOnes 14 ++ (0 : BitVec 2)) = (0 : BitVec 14) ++ (0 : BitVec 2) at h
  obtain ⟨hi, lo, rfl, hhi, -⟩ := exists_append_of_and_eq (n := 14) (m := 2) h
  obtain rfl : hi = 0 := BitVec.and_allOnes.symm.trans hhi
  refine ⟨⟨_, ?_⟩, rfl⟩
  rw [constIndexOk, append_toNat]
  simpa using lo.isLt

end Covers

section Meets
variable {ιd ιa ιb ιs ιn ιx : Type}

/-- The converse of `assemble_meets`: a word that meets a row is assembled from fields that the row's operands give. -/
theorem exists_assemble_of_meets (opc : BitVec 8) {md ma mb : BitVec 4} {ms : BitVec 2} {mn : BitVec 1} {mx : BitVec 8}
    {fd : ιd → BitVec 4} {fa : ιa → BitVec 4} {fb : ιb → BitVec 4} {fs : ιs → BitVec 2} {fn : ιn → BitVec 1}
    {fx : ιx → BitVec 8} (hd : Covers md fd) (ha : Covers ma fa) (hb : Covers mb fb) (hs : Covers ms fs)
    (hn : Covers mn fn) (hx : Covers mx fx) {w : Word}
    (h : w &&& ((0xFF : BitVec 8) ++ md ++ ma ++ mb ++ ms ++ mn ++ (1 : BitVec 1) ++ mx) = assemble opc 0 0 0 0 0 0) :
    ∃ d a b sel neg x8, assemble opc (fd d) (fa a) (fb b) (fs sel) (fn neg) (fx x8) = w := by
  unfold assemble at h
  obtain ⟨w, _, rfl, h, hx8⟩ := exists_append_of_and_eq (n := 24) (m := 8) h
  obtain ⟨w, rsv, rfl, h, hrsv⟩ := exists_append_of_and_eq (n := 23) (m := 1) h
  obtain ⟨w, _, rfl, h, hneg⟩ := exists_append_of_and_eq (n := 22) (m := 1) h
  obtain ⟨w, _, rfl, h, hsel⟩ := exists_append_of_and_eq (n := 20) (m := 2) h
  obtain ⟨w, _, rfl, h, hB⟩ := exists_append_of_and_eq (n := 16) (m := 4) h
  obtain ⟨w, _, rfl, h, hA⟩ := exists_append_of_and_eq (n := 12) (m := 4) h
  obtain ⟨w, _, rfl, h, hD⟩ := exists_append_of_and_eq (n := 8) (m := 4) h
  obtain rfl : w = opc := BitVec.and_allOnes.symm.trans h
  obtain rfl : rsv = 0 := BitVec.and_allOnes.symm.trans hrsv
  obtain ⟨⟨d, rfl⟩, ⟨a, rfl⟩, ⟨b, rfl⟩⟩ := hd _ hD, ha _ hA, hb _ hB
  obtain ⟨⟨sel, rfl⟩, ⟨neg, rfl⟩, ⟨x8, rfl⟩⟩ := hs _ hsel, hn _ hneg, hx _ hx8
  exact ⟨d, a, b, sel, neg, x8, rfl⟩

/-- The same for formats K and KC. -/
theorem exists_assembleK_of_meets (opc : BitVec 8) {md : BitVec 4} {mk : BitVec 16} {fd : ιd → BitVec 4}
    {fk : ιx → BitVec 16} (hd : Covers md fd) (hk : Covers mk fk) {w : Word}
    (h : w &&& ((0xFF : BitVec 8) ++ md ++ (0xF : BitVec 4) ++ mk) = assembleK opc 0 0) :
    ∃ d k, assembleK opc (fd d) (fk k) = w := by
  unfold assembleK at h
  obtain ⟨w, _, rfl, h, hK⟩ := exists_append_of_and_eq (n := 16) (m := 16) h
  obtain ⟨w, a, rfl, h, hA⟩ := exists_append_of_and_eq (n := 12) (m := 4) h
  obtain ⟨w, _, rfl, h, hD⟩ := exists_append_of_and_eq (n := 8) (m := 4) h
  obtain rfl : w = opc := BitVec.and_allOnes.symm.trans h
  obtain rfl : a = 0 := BitVec.and_allOnes.symm.trans hA
  obtain ⟨⟨d, rfl⟩, ⟨k, rfl⟩⟩ := hd _ hD, hk _ hK
  exact ⟨d, k, rfl⟩

end Meets

/-! ### The round trip -/

/-- A word that meets a row is the word of a well-formed command of that row (R119). -/
theorem exists_encode_of_meets {w : Word} : ∀ i : Instr, w &&& i.mask = i.pattern →
    ∃ j : Instr, j.WellFormed ∧ encode j = w ∧ j.mask = i.mask ∧ j.pattern = i.pattern
  | .nop, h =>
    have ⟨_, _, _, _, _, _, hw⟩ := exists_assemble_of_meets 0x01 .unused .unused .unused .unused .unused .unused h
    ⟨.nop, rfl, hw, rfl, rfl⟩
  | .mov .., h =>
    have ⟨d, a, _, _, _, _, hw⟩ := exists_assemble_of_meets 0x02 .fieldReg .fieldReg .unused .unused .unused .unused h
    ⟨.mov d a, rfl, hw, rfl, rfl⟩
  | .ldi .., h =>
    have ⟨d, imm, hw⟩ := exists_assembleK_of_meets 0x03 .fieldReg .any h
    ⟨.ldi d imm, rfl, hw, rfl, rfl⟩
  | .ldc .., h =>
    have ⟨d, ⟨k, hk⟩, hw⟩ := exists_assembleK_of_meets 0x04 .fieldReg .constIndex h
    ⟨.ldc d k, hk, hw, rfl, rfl⟩
  | .intEq .., h =>
    have ⟨_, a, b, _, _, _, hw⟩ := exists_assemble_of_meets 0x05 .unused .fieldReg .fieldReg .unused .unused .unused h
    ⟨.intEq a b, rfl, hw, rfl, rfl⟩
  | .intOdd .., h =>
    have ⟨_, a, _, _, _, _, hw⟩ := exists_assemble_of_meets 0x06 .unused .fieldReg .unused .unused .unused .unused h
    ⟨.intOdd a, rfl, hw, rfl, rfl⟩
  | .feNew .., h =>
    have ⟨d, a, _, sel, _, _, hw⟩ := exists_assemble_of_meets 0x10 .fieldReg .fieldReg .unused .tag .unused .unused h
    ⟨.feNew d a sel, rfl, hw, rfl, rfl⟩
  | .feAdd .., h =>
    have ⟨d, a, b, _, _, _, hw⟩ := exists_assemble_of_meets 0x11 .fieldReg .fieldReg .fieldReg .unused .unused .unused h
    ⟨.feAdd d a b, rfl, hw, rfl, rfl⟩
  | .feSub .., h =>
    have ⟨d, a, b, _, _, _, hw⟩ := exists_assemble_of_meets 0x12 .fieldReg .fieldReg .fieldReg .unused .unused .unused h
    ⟨.feSub d a b, rfl, hw, rfl, rfl⟩
  | .feMul .., h =>
    have ⟨d, a, b, _, _, _, hw⟩ := exists_assemble_of_meets 0x13 .fieldReg .fieldReg .fieldReg .unused .unused .unused h
    ⟨.feMul d a b, rfl, hw, rfl, rfl⟩
  | .fePow .., h =>
    have ⟨d, a, b, _, neg, _, hw⟩ := exists_assemble_of_meets 0x14 .fieldReg .fieldReg .fieldReg .unused .neg .unused h
    ⟨.fePow d a b neg, rfl, hw, rfl, rfl⟩
  | .feInv .., h =>
    have ⟨d, a, _, _, _, _, hw⟩ := exists_assemble_of_meets 0x15 .fieldReg .fieldReg .unused .unused .unused .unused h
    ⟨.feInv d a, rfl, hw, rfl, rfl⟩
  | .feDiv .., h =>
    have ⟨d, a, b, _, _, _, hw⟩ := exists_assemble_of_meets 0x16 .fieldReg .fieldReg .fieldReg .unused .unused .unused h
    ⟨.feDiv d a b, rfl, hw, rfl, rfl⟩
  | .feSmul .., h =>
    have ⟨d, a, b, _, neg, _, hw⟩ := exists_assemble_of_meets 0x17 .fieldReg .fieldReg .fieldReg .unused .neg .unused h
    ⟨.feSmul d a b neg, rfl, hw, rfl, rfl⟩
  | .feSqrt .., h =>
    have ⟨d, a, _, _, _, _, hw⟩ := exists_assemble_of_meets 0x18 .fieldReg .fieldReg .unused .unused .unused .unused h
    ⟨.feSqrt d a, rfl, hw, rfl, rfl⟩
  | .feEq .., h =>
    have ⟨_, a, b, _, _, _, hw⟩ := exists_assemble_of_meets 0x19 .unused .fieldReg .fieldReg .unused .unused .unused h
    ⟨.feEq a b, rfl, hw, rfl, rfl⟩
  | .ptInf .., h =>
    have ⟨d, _, _, ⟨sel, hs⟩, _, _, hw⟩ :=
      exists_assemble_of_meets 0x20 .pointReg .unused .unused .curve .unused .unused h
    ⟨.ptInf d sel, hs, hw, rfl, rfl⟩
  | .ptGen .., h =>
    have ⟨d, _, _, _, _, _, hw⟩ := exists_assemble_of_meets 0x21 .pointReg .unused .unused .unused .unused .unused h
    ⟨.ptGen d, rfl, hw, rfl, rfl⟩
  | .ptNew .., h =>
    have ⟨d, a, b, ⟨sel, hs⟩, _, _, hw⟩ :=
      exists_assemble_of_meets 0x22 .pointReg .fieldReg .fieldReg .curve .unused .unused h
    ⟨.ptNew d a b sel, hs, hw, rfl, rfl⟩
  | .ptAdd .., h =>
    have ⟨d, a, b, _, _, _, hw⟩ := exists_assemble_of_meets 0x23 .pointReg .pointReg .pointReg .unused .unused .unused h
    ⟨.ptAdd d a b, rfl, hw, rfl, rfl⟩
  | .ptMul .., h =>
    have ⟨d, a, b, _, neg, _, hw⟩ := exists_assemble_of_meets 0x24 .pointReg .fieldReg .pointReg .unused .neg .unused h
    ⟨.ptMul d a b neg, rfl, hw, rfl, rfl⟩
  | .ptEq .., h =>
    have ⟨_, a, b, _, _, _, hw⟩ := exists_assemble_of_meets 0x25 .unused .pointReg .pointReg .unused .unused .unused h
    ⟨.ptEq a b, rfl, hw, rfl, rfl⟩
  | .ptIsInf .., h =>
    have ⟨_, a, _, _, _, _, hw⟩ := exists_assemble_of_meets 0x26 .unused .pointReg .unused .unused .unused .unused h
    ⟨.ptIsInf a, rfl, hw, rfl, rfl⟩
  | .ptGetX .., h =>
    have ⟨d, a, _, _, _, _, hw⟩ := exists_assemble_of_meets 0x27 .fieldReg .pointReg .unused .unused .unused .unused h
    ⟨.ptGetX d a, rfl, hw, rfl, rfl⟩
  | .ptGetY .., h =>
    have ⟨d, a, _, _, _, _, hw⟩ := exists_assemble_of_meets 0x28 .fieldReg .pointReg .unused .unused .unused .unused h
    ⟨.ptGetY d a, rfl, hw, rfl, rfl⟩
  | .ptMov .., h =>
    have ⟨d, a, _, _, _, _, hw⟩ := exists_assemble_of_meets 0x29 .pointReg .pointReg .unused .unused .unused .unused h
    ⟨.ptMov d a, rfl, hw, rfl, rfl⟩
  | .ptDeser .., h =>
    have ⟨d, a, b, _, _, pfx, hw⟩ := exists_assemble_of_meets 0x2A .pointReg .fieldReg .fieldReg .unused .unused .any h
    ⟨.ptDeser d a b pfx, rfl, hw, rfl, rfl⟩

/-- The decoder gives a well-formed command back from its word (R118). -/
theorem decode_encode {i : Instr} (h : i.WellFormed) : decode (encode i) = .ok i :=
  (decode_encode_eq_accept i).trans (accept_eq_ok_iff.mpr ⟨rfl, encode_meets i h⟩)

/-- A word that meets a row decodes to a command of that row (R119). -/
theorem decode_of_meets {w : Word} {i : Instr} (h : w &&& i.mask = i.pattern) :
    ∃ j, decode w = .ok j ∧ j.mask = i.mask ∧ j.pattern = i.pattern := by
  obtain ⟨j, hj, rfl, hmask, hpattern⟩ := exists_encode_of_meets i h
  exact ⟨j, decode_encode hj, hmask, hpattern⟩

/-- A word that decodes is the word of the well-formed command it decodes to: the word is `encode j` of some
well-formed `j`, and `decode` gives that `j` back. -/
theorem encode_of_decode {w : Word} {i : Instr} (h : decode w = .ok i) : i.WellFormed ∧ encode i = w := by
  obtain ⟨j, hj, rfl, -, -⟩ := exists_encode_of_meets i (meets_of_decode h)
  obtain rfl : j = i := Except.ok.inj ((decode_encode hj).symm.trans h)
  exact ⟨hj, rfl⟩

end Sys2Proof

namespace Sys2Proof.Machine

/-- The engine's turn on a word that decodes to no command records `ILLEGAL` (R252, R256). -/
theorem engineTurn_of_illegal {s : State} {e : Illegal} (hb : s.busy = true) (hr : s.rst = false)
    (h : decode s.cmd = .error e) : engineTurn s = .next (failed s .illegal) := by
  rw [engineTurn_busy hb hr]
  rcases complete_eq s with ⟨i, hi, -⟩ | ⟨_, -, hc⟩
  · rw [h] at hi; cases hi
  · exact hc

end Sys2Proof.Machine

open Sys2Proof Sys2Proof.Machine

/-- Settles O3: the decoder offers the word to the command's own row, which it meets. -/
theorem decodeOfEncode : Obligations.DecodeOfEncode := fun _ => decode_encode

/-- Settles O4: a word that decodes meets its command's row, and so is the word of a well-formed command. -/
theorem encodeOfDecode : Obligations.EncodeOfDecode := fun _ _ => encode_of_decode

/-- Settles O2: the rows of two commands that one word meets have the match of the one command it decodes to. -/
theorem decodeFollowsOpcodeTable : Obligations.DecodeFollowsOpcodeTable := by
  refine fun w => ⟨fun _ => decode_of_meets, fun i j hi hj => ?_, fun hnone => ?_⟩
  · obtain ⟨i', hi', -, hpi⟩ := decode_of_meets hi
    obtain ⟨j', hj', -, hpj⟩ := decode_of_meets hj
    obtain rfl : i' = j' := Except.ok.inj (hi'.symm.trans hj')
    exact hpi.symm.trans hpj
  · cases h : decode w with
    | ok i => exact absurd (meets_of_decode h) (hnone i)
    | error e => exact ⟨e, rfl⟩

/-- Settles O5: the decoder offers the word to the command's own row only, and what decodes is well formed. -/
theorem illFormedWordIsIllegal : Obligations.IllFormedWordIsIllegal := by
  intro i hi
  rw [decode_encode_eq_accept]
  refine (accept_cases (encode i) i).resolve_left fun hok => hi ?_
  exact (encode_of_decode ((decode_encode_eq_accept i).trans hok)).1

/-- Settles O1: each of the nine words is the encoding of its command; PT_ADD's word has bit 3 of `D` set. -/
theorem sampleWordsDecode : Obligations.SampleWordsDecode :=
  ⟨decodeOfEncode .nop rfl, decodeOfEncode (.feAdd 3 1 2) rfl, decodeOfEncode (.feNew 1 0 .m) rfl,
    decodeOfEncode (.fePow 2 1 0 true) rfl, decodeOfEncode (.ldc 4 1) rfl, decodeOfEncode (.ldi 0 7) rfl,
    decodeOfEncode (.ptMul 1 0 0 false) rfl, decodeOfEncode (.ptNew 2 5 6 1) rfl,
    decodeOfEncode (.ptDeser 2 1 0 2) rfl, .mustBeZero 0x00800000, by decide⟩

/-- Settles O7: with an empty list of events, and at an engine event, the step is the engine's turn. -/
theorem illegalWordRecordsError : Obligations.IllegalWordRecordsError := fun _ _ hb hr he =>
  ⟨fun hi => (step_empty hi).trans (engineTurn_of_illegal hb hr he),
    fun _ hi => (step_engine hi).trans (engineTurn_of_illegal hb hr he)⟩
end

section
/-! SUPPORT. Data movement and integer tests (40_data.md R151 to R156): how a completion that writes one field register,
or the test flag, ends; what the two tests compute as numbers; and which constant each index of LDC names. -/

namespace Sys2Proof.Machine

/-- The word of a well-formed command meets the command's row and decodes back (30_encoding.md R118). -/
theorem encodes_of_wellFormed {i : Instr} (h : i.WellFormed) : Encodes i i.mask i.pattern :=
  ⟨encode_meets i h, decode_encode h⟩

/-! ### Completions (60_exceptions.md R256) -/

theorem conclude_unchanged (s : State) : conclude s (.ok s) = .next (completed s) := rfl

theorem conclude_setR (s : State) (d : RIdx) (x : FieldReg) :
    conclude s (.ok (s.setR d x)) = .next (completedR s d x.v x.t) := rfl

theorem conclude_setT (s : State) (b : Bool) : conclude s (.ok (s.setT b)) = .next (completedT s b) := rfl

/-! ### The integer tests, as numbers -/

theorem valuesEqual_eq (x y : FieldReg) : valuesEqual x y = decide (x.v.toNat = y.v.toNat) :=
  decide_eq_decide.mpr BitVec.toNat_inj.symm

theorem valueOdd_eq (x : FieldReg) : valueOdd x = decide (x.v.toNat % 2 = 1) := by
  rw [valueOdd, BitVec.getLsbD, Nat.testBit_zero]

/-! ### LDC (R154) -/

theorem exec_ldc_of_some {k : BitVec 16} {v : Nat} (h : constOf k = some v) (d : RIdx) (s : State) :
    exec (.ldc d k) s = .next (completedR s d (BitVec.ofNat 256 v) .raw) := by
  change execLdc d k s = _
  rw [execLdc, h]
  exact conclude_setR s d (fieldReg v .raw)

theorem exec_ldc_of_none {k : BitVec 16} (h : constOf k = none) (d : RIdx) (s : State) :
    exec (.ldc d k) s = .next (failed s .illegal) := by
  change execLdc d k s = _
  rw [execLdc, h]
  exact conclude_error s .illegal

/-- An index from 4 on names no constant (30_encoding.md R116). -/
theorem constOf_eq_none {k : BitVec 16} (h : 4 ≤ k.toNat) : constOf k = none := by
  unfold constOf
  split
  case h_5 => rfl
  all_goals omega

/-- The field modulus in the digits of 43_secp256k1.md R230. -/
theorem ofNat_P : BitVec.ofNat 256 P = 0xFFFFFFFFFFFFFFFFFFFFFFFFFFFFFFFFFFFFFFFFFFFFFFFFFFFFFFFEFFFFFC2F := by
  decide

end Sys2Proof.Machine

open Sys2Proof Sys2Proof.Machine

/-- Settles O34: NOP writes nothing, MOV and LDI write their destination only. -/
theorem movesComplete : Obligations.MovesComplete := by
  refine fun s d a imm => ⟨⟨encodes_of_wellFormed rfl, encodes_of_wellFormed rfl, encodes_of_wellFormed rfl⟩,
    conclude_unchanged s, conclude_setR s d (s.getR a), ?_⟩
  rw [BitVec.ofNat_toNat]
  exact conclude_setR s d ⟨imm.setWidth 256, .raw⟩

/-- Settles O35: each index below 4 names its constant, and no other index names one. -/
theorem ldcLoadsConstant : Obligations.LdcLoadsConstant := by
  refine fun s d k => ⟨fun hk => encodes_of_wellFormed (decide_eq_true hk), ?_, ?_, ?_, ?_,
    fun hk => exec_ldc_of_none (constOf_eq_none hk) d s⟩
  · rw [← ofNat_P]
    exact exec_ldc_of_some rfl d s
  · exact exec_ldc_of_some (v := N) rfl d s
  · exact exec_ldc_of_some (v := Gx) rfl d s
  · exact exec_ldc_of_some (v := Gy) rfl d s

/-- Settles O36: the tests read values only, and a test writes `T` only. -/
theorem integerTests : Obligations.IntegerTests := by
  refine fun s a b => ⟨⟨encodes_of_wellFormed rfl, encodes_of_wellFormed rfl⟩, ?_, ?_⟩
  · rw [← valuesEqual_eq]
    exact conclude_setT s _
  · rw [← valueOdd_eq]
    exact conclude_setT s _
end

section
/-! SUPPORT. The field unit (41_field.md R170 to R182): how a command on one or two field operands ends (R171), the rule
every binary field command meets, and the Fermat inverse as an inverse. -/

namespace Sys2Proof.Machine

/-! ### One field operand (R171) -/

/-- A command whose result comes from the field element in `a` writes it with the tag of `a`. -/
theorem conclude_fe_setR {s : State} {a : RIdx} {m : Nat} (h : s.modof (s.getR a).t = some m) (d : RIdx)
    (f : FieldElem → Nat) :
    conclude s (fe s a >>= fun x => .ok (s.setR d (fieldReg (f x) x.t))) =
      .next (completedR s d (BitVec.ofNat 256 (f ⟨(s.getR a).v.toNat, (s.getR a).t, m⟩)) (s.getR a).t) := by
  rw [fe_tagged h, except_bind_ok]
  exact conclude_setR s d _

theorem conclude_fe_untagged {s : State} {a : RIdx} (h : (s.getR a).t = .raw) (f : FieldElem → Result) :
    conclude s (fe s a >>= f) = .next (failed s .operand) := by
  rw [fe_untagged h, except_bind_error]
  exact conclude_error s .operand

/-! ### Two field operands (R171) -/

/-- `OPERAND` comes before anything a command does with its two operands, whichever of them is untagged. -/
theorem fe_fe_untagged {α : Type} {s : State} {a b : RIdx} (h : (s.getR a).t = .raw ∨ (s.getR b).t = .raw)
    (f : FieldElem → FieldElem → Except ErrCode α) :
    (fe s a >>= fun x => fe s b >>= f x) = .error .operand := by
  cases ha : fe s a with
  | error e => rw [except_bind_error, fe_error ha]
  | ok x =>
    obtain h | h := h
    · rw [fe_untagged h] at ha
      cases ha
    · rw [except_bind_ok, fe_untagged h, except_bind_error]

theorem fieldBinary_untagged {s : State} {a b : RIdx} (h : (s.getR a).t = .raw ∨ (s.getR b).t = .raw) (d : RIdx)
    (op : Nat → Nat → Nat → Nat) : fieldBinary s d a b op = .error .operand := by
  rw [fieldBinary, sameField, fe_fe_untagged h, except_bind_error]

section
variable {s : State} {a b : RIdx} {ma mb : Nat} (ha : s.modof (s.getR a).t = some ma)
  (hb : s.modof (s.getR b).t = some mb) (d : RIdx) (op : Nat → Nat → Nat → Nat)
include ha hb

theorem sameField_tagged : sameField s a b =
    if ma = mb then .ok (⟨(s.getR a).v.toNat, (s.getR a).t, ma⟩, ⟨(s.getR b).v.toNat, (s.getR b).t, mb⟩)
    else .error .fieldMismatch := by
  rw [sameField, fe_tagged ha, except_bind_ok, fe_tagged hb, except_bind_ok]

theorem fieldBinary_same (hm : ma = mb) : fieldBinary s d a b op =
    .ok (s.setR d (fieldReg (op (s.getR a).v.toNat (s.getR b).v.toNat ma) (s.getR a).t)) := by
  rw [fieldBinary, sameField_tagged ha hb, if_pos hm, except_bind_ok]

theorem fieldBinary_mismatch (hm : ma ≠ mb) : fieldBinary s d a b op = .error .fieldMismatch := by
  rw [fieldBinary, sameField_tagged ha hb, if_neg hm, except_bind_error]

end

/-- A row of the opcode table whose command completes by `fieldBinary` meets R171's rule. -/
theorem binaryFieldRule_of_exec {cmd : RIdx → RIdx → RIdx → Instr} {row : Word} {value : Nat → Nat → Nat → Nat}
    (henc : ∀ d a b, Encodes (cmd d a b) 0xFF000FFF row)
    (hexec : ∀ d a b s, exec (cmd d a b) s = conclude s (fieldBinary s d a b value)) :
    BinaryFieldRule cmd row value := by
  refine fun s d a b => ⟨henc d a b, fun m ha hb => ?_, fun h => ?_, fun ma mb ha hb hm => ?_⟩
  · rw [hexec, fieldBinary_same ha hb d value rfl]
    exact conclude_setR s d _
  · rw [hexec, fieldBinary_untagged h]
    exact conclude_error s .operand
  · rw [hexec, fieldBinary_mismatch ha hb d value hm]
    exact conclude_error s .fieldMismatch

/-! ### FE_NEW (R170) -/

theorem exec_feNew_of_not_validmod {s : State} (hv : s.validmod = false) (d a : RIdx) :
    exec (.feNew d a .m) s = .next (failed s .modulus) := by
  change execFeNew d a .m s = _
  simp only [execFeNew, State.modof, hv, and_self, if_true]
  exact conclude_error s .modulus

/-- The modulus checked, FE_NEW compares the value with it. -/
theorem exec_feNew_of_modof {s : State} {sel : Tag} {m : Nat} (hm : s.modof sel = some m)
    (hv : sel = .m → s.validmod = true) (d a : RIdx) :
    exec (.feNew d a sel) s =
      conclude s (if m ≤ (s.getR a).v.toNat then .error .range else .ok (s.setR d ⟨(s.getR a).v, sel⟩)) := by
  have hok : ¬ (sel = .m ∧ s.validmod = false) := fun ⟨hs, hf⟩ => Bool.false_ne_true (hf.symm.trans (hv hs))
  change execFeNew d a sel s = _
  simp only [execFeNew, hm, if_neg hok]

/-! ### The Fermat inverse of a prime modulus (R176, R182) -/

theorem mul_finv_mod {a m : Nat} (hm : m.Prime) (h3 : 3 ≤ m) (ha : a % m ≠ 0) : a * finv a m % m = 1 := by
  have := Fact.mk hm
  have ha' : (a : ZMod m) ≠ 0 := fun h => ha (Nat.mod_eq_zero_of_dvd ((ZMod.natCast_eq_zero_iff a m).mp h))
  have hmul : ((a * finv a m : Nat) : ZMod m) = (1 : Nat) := by
    rw [Nat.cast_mul, finv_zmod_inv a m hm h3, mul_inv_cancel₀ ha', Nat.cast_one]
  exact ((ZMod.natCast_eq_natCast_iff' _ _ _).mp hmul).trans (Nat.mod_eq_of_lt (by omega))

theorem finv_zero {m : Nat} (h3 : 3 ≤ m) : finv 0 m = 0 := by
  rw [finv_eq, zero_pow (by omega), Nat.zero_mod]

end Sys2Proof.Machine

open Sys2Proof Sys2Proof.Machine

/-- Settles O41: the divisor's Fermat inverse is the power `finv_eq` names. -/
theorem feDivIsFermatQuotient : Obligations.FeDivIsFermatQuotient := by
  refine binaryFieldRule_of_exec (fun d a b => encodes_of_wellFormed rfl) fun d a b s => ?_
  simp only [← finv_eq]
  rfl

/-- Settles O42: the square-and-multiply loop computes the power (`powmod_eq`) of the reduced exponent. -/
theorem fePowReducesExponent : Obligations.FePowReducesExponent := by
  refine fun s d a b neg => ⟨encodes_of_wellFormed rfl, fun m h => ?_, fun h => conclude_fe_untagged h _⟩
  intro e
  rw [← powmod_eq]
  exact conclude_fe_setR h d fun x => powmod x.v (imod (s.intOperand b neg) (x.m - 1)) x.m

/-- Settles O43: the value written is `finv`, which is 0 for 0 and the inverse of the field for a prime modulus. -/
theorem feInvIsFermatInverse : Obligations.FeInvIsFermatInverse := by
  refine fun s d a => ⟨encodes_of_wellFormed rfl, fun h => conclude_fe_untagged h _, fun m h =>
    ⟨finv (s.getR a).v.toNat m, conclude_fe_setR h d fun x => finv x.v x.m, finv_eq _ m, fun h3 h0 => ?_,
      fun h3 hm ha => mul_finv_mod hm h3 ha⟩⟩
  rw [h0, finv_zero h3]

/-- Settles O37: the modulus check decides the `MODULUS` case, the comparison with the modulus the other two. -/
theorem feNewChecksRange : Obligations.FeNewChecksRange := by
  refine fun s d a => ⟨fun sel => encodes_of_wellFormed rfl, conclude_setR s d _,
    fun h => exec_feNew_of_not_validmod ?_ d a, fun sel m hm hv => ⟨fun hle => ?_, fun hlt => ?_⟩⟩
  · rw [Bool.eq_false_iff, Ne, validmod_iff]
    omega
  · rw [exec_feNew_of_modof hm (fun hs => (validmod_iff s).mpr (hv hs)), if_pos hle]
    exact conclude_error s .range
  · rw [exec_feNew_of_modof hm (fun hs => (validmod_iff s).mpr (hv hs)), if_neg (Nat.not_le.mpr hlt)]
    exact conclude_setR s d _

/-- Settles O38 by R171's rule. -/
theorem feAddIsModularSum : Obligations.FeAddIsModularSum :=
  binaryFieldRule_of_exec (fun _ _ _ => encodes_of_wellFormed rfl) fun _ _ _ _ => rfl

/-- Settles O39 by R171's rule: `imod` is the non-negative remainder of the integer difference. -/
theorem feSubIsModularDifference : Obligations.FeSubIsModularDifference :=
  binaryFieldRule_of_exec (fun _ _ _ => encodes_of_wellFormed rfl) fun _ _ _ _ => rfl

/-- Settles O40 by R171's rule. -/
theorem feMulIsModularProduct : Obligations.FeMulIsModularProduct :=
  binaryFieldRule_of_exec (fun _ _ _ => encodes_of_wellFormed rfl) fun _ _ _ _ => rfl

/-- Settles O44: the one field operand of FE_SMUL is `B`, whose tag the result carries. -/
theorem feSmulIsScaledElement : Obligations.FeSmulIsScaledElement :=
  fun s d a _ neg => ⟨encodes_of_wellFormed rfl,
    fun _ h => conclude_fe_setR h d fun y => imod (s.intOperand a neg * y.v) y.m, fun h => conclude_fe_untagged h _⟩

/-- Settles O45: both operands are checked for `OPERAND`, and no check compares their moduli. -/
theorem feEqIsStructural : Obligations.FeEqIsStructural := by
  refine fun s a b => ⟨encodes_of_wellFormed rfl, fun ma mb ha hb => ?_, fun h =>
    (congrArg (conclude s) (fe_fe_untagged h _)).trans (conclude_error s .operand)⟩
  change execFeEq a b s = _
  rw [execFeEq, fe_tagged ha, except_bind_ok, fe_tagged hb, except_bind_ok, elemsEqual, ← Bool.decide_and]
  exact conclude_setT s _

/-- Settles O46: `a - a = 0`, `a` times its Fermat inverse is 1, and the exponent `m - 1` reduces to 0. -/
theorem primeFieldLaws : Obligations.PrimeFieldLaws := by
  intro s d a b m h hm h3 hlt
  obtain ⟨-, hsub, -⟩ := feSubIsModularDifference s d a a
  obtain ⟨-, hdiv, -⟩ := feDivIsFermatQuotient s d a a
  obtain ⟨-, hpow, -⟩ := fePowReducesExponent s d a b false
  refine ⟨?_, fun h0 => ?_, fun hb => ?_⟩
  · rw [hsub m h h]
    simp only [Int.sub_self, Int.zero_emod]
    rfl
  · have ha : (s.getR a).v.toNat % m ≠ 0 := by
      rw [Nat.mod_eq_of_lt hlt]
      exact fun hz => h0 (BitVec.eq_of_toNat_eq hz)
    rw [hdiv m h h]
    simp only [← finv_eq, mul_finv_mod hm h3 ha]
    rfl
  · rw [hpow m h, if_neg Bool.false_ne_true, hb, Int.emod_self, Int.toNat_zero, pow_zero, Nat.mod_eq_of_lt (by omega)]
    rfl
end

section
/-! SUPPORT. The group law by the cases of R202 (42_curve.md), its chord and tangent as formulas on integers, the scalar
multiplication over the digits of the scalar (R208), and the negation of a point. -/

namespace Sys2Proof.Machine

/-! ### The cases of `padd` (R202) -/

section Cases
variable {k : Coef} {p1 p2 : Point}

theorem padd_of_inf_left (h1 : p1.inf = true) : padd k p1 p2 = p2 := if_pos h1

/-- With a finite first point, the four tests that are left. -/
theorem padd_of_finite (h1 : p1.inf = false) : padd k p1 p2 =
    if p2.inf then p1
    else if p1.x = p2.x ∧ p1.y ≠ p2.y then .infinity
    else if p1.x ≠ p2.x then chord k.m p1 p2
    else if p1.y = 0 then .infinity
    else tangent k.m k.a p1 := if_neg (ne_true_of_eq_false h1)

variable (h1 : p1.inf = false)
include h1

theorem padd_of_inf_right (h2 : p2.inf = true) : padd k p1 p2 = p1 := by
  rw [padd_of_finite h1, if_pos h2]

variable (h2 : p2.inf = false)
include h2

theorem padd_of_inverse (hx : p1.x = p2.x) (hy : p1.y ≠ p2.y) : padd k p1 p2 = .infinity := by
  rw [padd_of_finite h1, if_neg (ne_true_of_eq_false h2), if_pos ⟨hx, hy⟩]

theorem padd_of_chord (hx : p1.x ≠ p2.x) : padd k p1 p2 = chord k.m p1 p2 := by
  rw [padd_of_finite h1, if_neg (ne_true_of_eq_false h2), if_neg fun h => hx h.1, if_pos hx]

/-- A point of `y = 0` doubled: the tangent is vertical. -/
theorem padd_of_vertical (hx : p1.x = p2.x) (hy : p1.y = p2.y) (h0 : p1.y = 0) : padd k p1 p2 = .infinity := by
  rw [padd_of_finite h1, if_neg (ne_true_of_eq_false h2), if_neg fun h => h.2 hy, if_neg fun h => h hx, if_pos h0]

theorem padd_of_tangent (hx : p1.x = p2.x) (hy : p1.y = p2.y) (h0 : p1.y ≠ 0) :
    padd k p1 p2 = tangent k.m k.a p1 := by
  rw [padd_of_finite h1, if_neg (ne_true_of_eq_false h2), if_neg fun h => h.2 hy, if_neg fun h => h hx, if_neg h0]

end Cases

/-! ### The chord and the tangent, on integers -/

/-- The Fermat inverse of a reduced integer. -/
theorem finv_imod_cast (z : Int) {m : Nat} (hm : 0 < m) :
    ((finv (imod z m) m : Nat) : Int) = (z % m) ^ (m - 2) % m := by
  rw [finv_eq, Int.natCast_mod, Int.natCast_pow, imod_cast z hm]

theorem chord_eq {m : Nat} (hm : 0 < m) (p1 p2 : Point) : chord m p1 p2 =
    let sl : Int := (p2.y - p1.y) * ((((p2.x : Int) - p1.x) % m) ^ (m - 2) % m) % m
    let x3 : Int := (sl * sl - p1.x - p2.x) % m
    ⟨false, x3.toNat, ((sl * (p1.x - x3) - p1.y) % m).toNat⟩ := by
  simp only [chord, thirdPoint, imod_cast _ hm, finv_imod_cast _ hm]
  rfl

theorem tangent_eq {m : Nat} (hm : 0 < m) (a : Nat) (p1 : Point) : tangent m a p1 =
    let sl : Int := (3 * p1.x * p1.x + a) * ((2 * (p1.y : Int) % m) ^ (m - 2) % m) % m
    let x3 : Int := (sl * sl - 2 * p1.x) % m
    ⟨false, x3.toNat, ((sl * (p1.x - x3) - p1.y) % m).toNat⟩ := by
  simp only [tangent, thirdPoint, imod_cast _ hm, finv_imod_cast _ hm]
  rfl

/-! ### The curve equation as a congruence -/

theorem onCurve_iff_curveEquation {k : Coef} (hm : 0 < k.m) (x y : Nat) :
    onCurve k x y = true ↔ CurveEquation k x y := by
  rw [onCurve, decide_eq_true_iff, imod_eq_zero_iff _ hm, CurveEquation, ← ZMod.natCast_eq_natCast_iff]
  push_cast
  exact sub_eq_zero

/-! ### Double-and-add (R208) -/

/-- The digits of a nonzero number: its parity, and the digits of its half. -/
theorem bits_of_ne_zero {n : Nat} (hn : n ≠ 0) : n.bits = decide (n % 2 = 1) :: (n / 2).bits := by
  have h : Nat.bit (decide (n % 2 = 1)) (n / 2) = n := Nat.bit_decide_mod_two_eq_one_shiftRight_one n
  rw [← Nat.bits_append_bit _ _ (Nat.bit_ne_zero_iff.mp (h.symm ▸ hn)), h]

/-- With fuel for every digit, the loop on the number is the loop on its digits. -/
theorem smulLoop_eq_doubleAndAdd (c : Coef) (fuel n : Nat) (hn : n < 2 ^ fuel) (r p : Point) :
    smulLoop c fuel n r p = doubleAndAdd c n.bits r p := by
  induction fuel generalizing n r p with
  | zero =>
    obtain rfl : n = 0 := by simpa using hn
    rw [Nat.zero_bits]
    rfl
  | succ f ih =>
    rw [smulLoop]
    split
    · subst n
      rw [Nat.zero_bits]
      rfl
    · rename_i h0
      rw [bits_of_ne_zero h0, doubleAndAdd, ih (n / 2) (by rw [pow_succ] at hn; omega)]
      simp only [decide_eq_true_eq]

theorem smul_eq_doubleAndAdd (c : Coef) (n : Nat) (p : Point) : smul c n p = doubleAndAdd c n.bits .infinity p :=
  smulLoop_eq_doubleAndAdd c (n.log2 + 1) n Nat.lt_log2_self .infinity p

/-- A multiple of the point at infinity is the point at infinity. -/
theorem smul_infinity (c : Coef) (n : Nat) : smul c n .infinity = .infinity := by
  have hloop : ∀ digits, doubleAndAdd c digits .infinity .infinity = .infinity := fun digits => by
    induction digits with
    | nil => rfl
    | cons bit more ih => cases bit <;> exact ih
  rw [smul_eq_doubleAndAdd, hloop]

/-! ### The group laws (R215) -/

/-- An odd modulus tells a nonzero number from its negation. -/
theorem neg_mod_ne {m y : Nat} (hm : m % 2 = 1) (hy : y < m) (h0 : y ≠ 0) : y ≠ (m - y) % m := by
  rw [Nat.mod_eq_of_lt (by omega)]
  omega

/-- A point and its negation add up to the point at infinity, a point with `y = 0` being its own negation. -/
theorem padd_neg {k : Coef} {p : Point} (hm : k.m % 2 = 1) (hi : p.inf = false) (hy : p.y < k.m) :
    padd k p ⟨false, p.x, (k.m - p.y) % k.m⟩ = .infinity := by
  by_cases h0 : p.y = 0
  · have hneg : p.y = (k.m - p.y) % k.m := by rw [h0, Nat.sub_zero, Nat.mod_self]
    exact padd_of_vertical hi rfl rfl hneg h0
  · exact padd_of_inverse hi rfl rfl (neg_mod_ne hm hy h0)

/-- On a regular curve multiples add up, as they do in Mathlib's group of the curve. -/
theorem smul_scalar_add {k : Coef} (hm : k.m.Prime) (h3 : 3 ≤ k.m) (hd : (4 * k.a ^ 3 + 27 * k.b ^ 2) % k.m ≠ 0)
    {p : Point} (hc : p.Canonical k.m) (ho : p.OnCurve k) (i j : Nat) :
    smul k (i + j) p = padd k (smul k i p) (smul k j p) := by
  have := Fact.mk hm
  obtain ⟨q, hq⟩ := represents_exists hm h3 hd hc ho
  have hsum := padd_represents h3 (smul_represents h3 i hq) (smul_represents h3 j hq)
  rw [← add_smul] at hsum
  exact represents_unique (smul_represents h3 (i + j) hq) hsum

end Sys2Proof.Machine

open Sys2Proof Sys2Proof.Machine

/-- Settles O51: the loop takes one digit of the scalar at a time, and its fuel suffices for all of them. -/
theorem scalarMultipleIsDoubleAndAdd : Obligations.ScalarMultipleIsDoubleAndAdd := smul_eq_doubleAndAdd

/-- Settles O54: identity and inverse are cases of R202, linearity is that of the group of the curve. -/
theorem groupLaws : Obligations.GroupLaws := by
  intro k hm h3 hd p hinf hrange heq
  refine ⟨?_, fun hi => padd_neg (hm.eq_two_or_odd.resolve_left (by omega)) hi (hrange hi).2,
    smul_scalar_add hm h3 hd ⟨hinf, hrange⟩ fun hi => (onCurve_iff_curveEquation hm.pos p.x p.y).mpr (heq hi)⟩
  cases hi : p.inf with
  | false => exact padd_of_inf_right hi rfl
  | true =>
    obtain ⟨inf, x, y⟩ := p
    obtain ⟨rfl, rfl⟩ := hinf hi
    rw [padd_of_inf_left hi, ← hi]
end

section
/-! SUPPORT. The point unit (42_curve.md R200 to R214): how the choice of a curve, a point operand or a coordinate ends,
and what each command of the unit completes with once its checks have passed. -/

namespace Sys2Proof.Machine

/-! ### Completions (60_exceptions.md R256) -/

theorem conclude_setQ (s : State) (d : QIdx) (x : PointReg) :
    conclude s (.ok (s.setQ d x)) = .next (completedQ s d x) := rfl

/-- A check that passes hands its answer to the rest of the command. -/
theorem conclude_bind_ok {α : Type} {x : Except ErrCode α} {v : α} (h : x = .ok v) (s : State) (f : α → Result) :
    conclude s (x >>= f) = conclude s (f v) := by rw [h, except_bind_ok]

/-- A check that fails ends the command. -/
theorem conclude_bind_error {α : Type} {x : Except ErrCode α} {e : ErrCode} (h : x = .error e) (s : State)
    (f : α → Result) : conclude s (x >>= f) = .next (failed s e) := by
  rw [h, except_bind_error]
  exact conclude_error s e

/-! ### The choice of a curve (R200) -/

theorem selectCurve_secp (s : State) : selectCurve s 0 = .ok .secp := rfl

theorem selectCurve_illegal (s : State) {sel : BitVec 2} (h : 2 ≤ sel.toNat) : selectCurve s sel = .error .illegal := by
  have hc : curveOf sel = none := by
    unfold curveOf
    split
    case h_3 => rfl
    all_goals omega
  rw [selectCurve, hc]

theorem selectCurve_user_modulus {s : State} (h : s.mod.toNat % 2 = 0 ∨ s.mod.toNat < 3) :
    selectCurve s 1 = .error .modulus := by
  have hv : s.validmod = false := by
    rw [Bool.eq_false_iff, Ne, validmod_iff]
    omega
  have hu : usercheck s = .error .modulus := if_pos hv
  change (usercheck s >>= fun _ => .ok Curve.user) = _
  rw [hu, except_bind_error]

section
variable {s : State} (hodd : s.mod.toNat % 2 = 1) (h3 : 3 ≤ s.mod.toNat)
include hodd h3

/-- The modulus found valid, `CA` and `CB` are checked. -/
theorem selectCurve_user_of_valid : selectCurve s 1 =
    if s.mod.toNat ≤ s.ca.toNat ∨ s.mod.toNat ≤ s.cb.toNat then .error .range else .ok .user := by
  have hv : s.validmod = true := (validmod_iff s).mpr ⟨hodd, h3⟩
  change (usercheck s >>= fun _ => .ok Curve.user) = _
  rw [usercheck, if_neg (ne_false_of_eq_true hv)]
  split
  · exact except_bind_error _ _
  · exact except_bind_ok _ _

theorem selectCurve_user_range (h : s.mod.toNat ≤ s.ca.toNat ∨ s.mod.toNat ≤ s.cb.toNat) :
    selectCurve s 1 = .error .range := by rw [selectCurve_user_of_valid hodd h3, if_pos h]

theorem selectCurve_user (ha : s.ca.toNat < s.mod.toNat) (hb : s.cb.toNat < s.mod.toNat) :
    selectCurve s 1 = .ok .user := by rw [selectCurve_user_of_valid hodd h3, if_neg (by omega)]

end

/-! ### Point operands and register values (R201) -/

/-- `OPERAND` comes before anything a command does with its two operands, whichever of them is empty. -/
theorem pt_pt_empty {α : Type} {s : State} {a b : QIdx} (h : (s.getQ a).c = none ∨ (s.getQ b).c = none)
    (f : Curve × Point → Curve × Point → Except ErrCode α) :
    (pt s a >>= fun x => pt s b >>= f x) = .error .operand := by
  cases ha : (s.getQ a).c with
  | none => rw [pt_none ha, except_bind_error]
  | some c => rw [pt_some ha, except_bind_ok, pt_none (h.resolve_left (by simp [ha])), except_bind_error]

/-- A register's point, written with a curve tag, is the register with that tag. -/
theorem pointReg_of_reg (c : Curve) (q : PointReg) : pointReg c q.point = { q with c := some c } := by
  simp only [pointReg, PointReg.point, BitVec.ofNat_toNat, BitVec.setWidth_eq]

theorem fieldReg_of_word (v : Word256) (t : Tag) : fieldReg v.toNat t = ⟨v, t⟩ := by
  rw [fieldReg, BitVec.ofNat_toNat, BitVec.setWidth_eq]

theorem fieldtag_eq (c : Curve) : fieldtag c = if c = .secp then .p else .m := by cases c <;> rfl

/-! ### PT_NEW (R206) -/

section
variable {s : State} {sel : BitVec 2} {c : Curve} (hc : selectCurve s sel = .ok c) (d : QIdx)
include hc

theorem exec_ptNew_untagged {a b : RIdx} (h : (s.getR a).t = .raw ∨ (s.getR b).t = .raw) :
    exec (.ptNew d a b sel) s = .next (failed s .operand) :=
  (conclude_bind_ok hc s _).trans ((congrArg (conclude s) (fe_fe_untagged h _)).trans (conclude_error s .operand))

/-- The curve chosen and both coordinates tagged, the moduli and the curve equation are checked. -/
theorem exec_ptNew_tagged {a b : RIdx} {ma mb : Nat} (ha : s.modof (s.getR a).t = some ma)
    (hb : s.modof (s.getR b).t = some mb) : exec (.ptNew d a b sel) s = conclude s
      (if ma ≠ mb ∨ ma ≠ (s.coef c).m then .error .fieldMismatch
      else if onCurve (s.coef c) (s.getR a).v.toNat (s.getR b).v.toNat = false then .error .notOnCurve
      else .ok (s.setQ d ⟨some c, false, (s.getR a).v, (s.getR b).v⟩)) := by
  rw [← pointReg_of_reg c ⟨none, false, (s.getR a).v, (s.getR b).v⟩]
  exact (conclude_bind_ok hc s _).trans
    ((conclude_bind_ok (fe_tagged ha) s _).trans (conclude_bind_ok (fe_tagged hb) s _))

theorem ptNewRule_of_selectCurve (hm : 0 < (s.coef c).m) (a b : RIdx) : PtNewRule s d a b sel c := by
  refine ⟨exec_ptNew_untagged hc d, fun ma mb ha hb => ?_⟩
  rw [exec_ptNew_tagged hc d ha hb, ← onCurve_iff_curveEquation hm, Bool.not_eq_true]
  refine ⟨fun hne => ?_, fun he hf => ?_⟩
  · rw [if_pos hne]
    exact conclude_error s .fieldMismatch
  · rw [if_neg (by simp [he, ← hf])]
    refine ⟨fun hoff => ?_, fun hon => ?_⟩
    · rw [if_pos hoff]
      exact conclude_error s .notOnCurve
    · rw [if_neg (ne_false_of_eq_true hon)]
      exact conclude_setQ s d _

end

/-! ### PT_ADD (R204, R207) -/

section
variable {s : State} {a b : QIdx} {c1 c2 : Curve} (ha : (s.getQ a).c = some c1) (hb : (s.getQ b).c = some c2)
  (d : QIdx)
include ha hb

/-- Both operands found to hold points, their curves are compared. -/
theorem exec_ptAdd_points : exec (.ptAdd d a b) s = conclude s
    (if sameCurve s c1 c2 = false then .error .curveMismatch
    else .ok (s.setQ d (pointReg c1 (addPoints s c1 (s.getQ a).point (s.getQ b).point)))) :=
  (conclude_bind_ok (pt_some ha) s _).trans (conclude_bind_ok (pt_some hb) s _)

theorem exec_ptAdd_mismatch (hne : s.coef c1 ≠ s.coef c2) :
    exec (.ptAdd d a b) s = .next (failed s .curveMismatch) := by
  rw [exec_ptAdd_points ha hb d, if_pos (by simpa [sameCurve] using hne)]
  exact conclude_error s .curveMismatch

/-- Two points of one curve: their sum is written with the curve tag of `Qa`. -/
theorem exec_ptAdd_same (he : s.coef c1 = s.coef c2) : exec (.ptAdd d a b) s =
    .next (completedQ s d (pointReg c1 (addPoints s c1 (s.getQ a).point (s.getQ b).point))) := by
  rw [exec_ptAdd_points ha hb d, if_neg (by simpa [sameCurve] using he)]
  exact conclude_setQ s d _

end

theorem addPoints_of_not_drawn {s : State} {c : Curve} {p1 p2 : Point} (h : addDrawn s c p1 p2 = false) :
    addPoints s c p1 p2 = padd (s.coef c) p1 p2 := if_neg (ne_true_of_eq_false h)

/-- Over a prime modulus no sum is drawn (R204). -/
theorem addPoints_of_prime {s : State} {c : Curve} (h : c = .secp ∨ s.mod.toNat.Prime) (p1 p2 : Point) :
    addPoints s c p1 p2 = padd (s.coef c) p1 p2 := by
  apply addPoints_of_not_drawn
  rcases h with rfl | h
  · simp [addDrawn]
  · simp [addDrawn, (isPrime_iff _).mpr h]

/-- In cases 1 and 2 of R202 no sum is drawn (R204). -/
theorem addPoints_of_identity (s : State) (c : Curve) {p1 p2 : Point}
    (h : p1.inf = true ∨ p2.inf = true ∨ p1.x = p2.x ∧ p1.y ≠ p2.y) :
    addPoints s c p1 p2 = padd (s.coef c) p1 p2 := by
  apply addPoints_of_not_drawn
  rcases h with h | h | h <;> simp [addDrawn, h]

/-- A prime modulus is positive, that of secp256k1 included. -/
theorem coef_m_pos {s : State} {c : Curve} (h : c = .secp ∨ s.mod.toNat.Prime) : 0 < (s.coef c).m := by
  cases c with
  | secp => exact prime_P.pos
  | user => exact (h.resolve_left (by decide)).pos

/-! ### PT_MUL (R204, R209) -/

/-- A point multiplied, unless the scalar is negative and the point the user's. -/
theorem exec_ptMul_point {s : State} {b : QIdx} {c : Curve} {neg : Bool} (hb : (s.getQ b).c = some c)
    (hn : c = .user → neg = false) (d : QIdx) (a : RIdx) : exec (.ptMul d a b neg) s =
      .next (completedQ s d (pointReg c (mulPoint s c (scalarFor s c a neg) (s.getQ b).point))) := by
  refine (conclude_bind_ok (pt_some hb) s _).trans ?_
  have hok : ¬ (c = .user ∧ neg = true) := fun ⟨hc, ht⟩ => Bool.false_ne_true ((hn hc).symm.trans ht)
  exact (congrArg (conclude s) (if_neg hok)).trans (conclude_setQ s d _)

theorem mulPoint_of_not_drawn {s : State} {c : Curve} {k : Nat} {p : Point} (h : mulDrawn s c k p = false) :
    mulPoint s c k p = smul (s.coef c) k p := if_neg (ne_true_of_eq_false h)

theorem mulPoint_of_held {s : State} {c : Curve} (h : HeldToEquation s c) (k : Nat) (p : Point) :
    mulPoint s c k p = doubleAndAdd (s.coef c) k.bits .infinity p := by
  rw [mulPoint_of_not_drawn (mulDrawn_of_held h k p), smul_eq_doubleAndAdd]

theorem mulPoint_zero (s : State) (c : Curve) (p : Point) : mulPoint s c 0 p = .infinity := by
  rw [mulPoint_of_not_drawn (by simp [mulDrawn]), smul_zero]

theorem mulPoint_infinity (s : State) (c : Curve) (k : Nat) : mulPoint s c k .infinity = .infinity := by
  rw [mulPoint_of_not_drawn (by simp [mulDrawn, Point.infinity]), smul_infinity]

theorem scalarFor_zero {s : State} {a : RIdx} (h : (s.getR a).v = 0) (c : Curve) (neg : Bool) :
    scalarFor s c a neg = 0 := by
  cases c with
  | secp => cases neg <;> simp [scalarFor, State.intOperand, h, imod]
  | user => simp [scalarFor, h]

/-- On secp256k1 the scalar is the residue of the signed register value (43_secp256k1.md R236). -/
theorem scalarFor_secp {s : State} {a : RIdx} {neg : Bool} {k : Nat}
    (hk : (k : Int) = (if neg then -((s.getR a).v.toNat : Int) else ((s.getR a).v.toNat : Int)) % (N : Int)) :
    scalarFor s .secp a neg = k := by
  rw [scalarFor, imod, State.intOperand, ← hk, Int.toNat_natCast]

/-- A command that writes a good point of a curve writes it within R204's bounds. -/
theorem GoodPoint.completedInBounds {s : State} {i : Instr} {d : QIdx} {c : Curve} {p : Point} (hp : GoodPoint s c p)
    (he : exec i s = .next (completedQ s d (pointReg c p))) :
    ∃ x : PointReg, exec i s = .next (completedQ s d x) ∧ x.c = some c ∧
      (x.inf = true → x.x = 0 ∧ x.y = 0) ∧ (x.inf = false → x.x.toNat < (s.coef c).m ∧ x.y.toNat < (s.coef c).m) := by
  obtain ⟨-, hinf, hrange, -⟩ := hp.regOk
  exact ⟨pointReg c p, he, rfl, hinf, hrange c rfl⟩

/-! ### The tests and the coordinates (R210 to R213) -/

theorem pointsEqual_of_regs (s : State) (c1 c2 : Curve) (q1 q2 : PointReg) :
    pointsEqual s c1 q1.point c2 q2.point =
      decide (s.coef c1 = s.coef c2 ∧ q1.inf = q2.inf ∧ q1.x = q2.x ∧ q1.y = q2.y) := by
  rw [Bool.eq_iff_iff]
  simp only [pointsEqual, sameCurve, Bool.and_eq_true, decide_eq_true_iff, and_assoc]
  simp only [PointReg.point, BitVec.toNat_inj]

section
variable {s : State} {a : QIdx} (d : RIdx) (pick : Point → Nat)

theorem conclude_coordinate_empty (h : (s.getQ a).c = none) :
    conclude s (coordinate s d a pick) = .next (failed s .operand) := conclude_bind_error (pt_none h) s _

theorem conclude_coordinate_infinity {c : Curve} (h : (s.getQ a).c = some c) (hi : (s.getQ a).inf = true) :
    conclude s (coordinate s d a pick) = .next (failed s .infinity) :=
  (conclude_bind_ok (pt_some h) s _).trans
    ((congrArg (conclude s) (if_pos hi)).trans (conclude_error s .infinity))

theorem conclude_coordinate_finite {c : Curve} (h : (s.getQ a).c = some c) (hi : (s.getQ a).inf = false) {v : Word256}
    (hv : pick (s.getQ a).point = v.toNat) :
    conclude s (coordinate s d a pick) = .next (completedR s d v (if c = .secp then .p else .m)) := by
  refine (conclude_bind_ok (pt_some h) s _).trans
    ((congrArg (conclude s) (if_neg (ne_true_of_eq_false hi))).trans ?_)
  rw [hv, fieldReg_of_word, fieldtag_eq]
  exact conclude_setR s d _

end

end Sys2Proof.Machine

open Sys2Proof Sys2Proof.Machine

/-- Settles O50: over a prime modulus the sum is `padd`'s, whose chord and tangent are the formulas of R202. -/
theorem ptAddChordAndTangent : Obligations.PtAddChordAndTangent := by
  intro s d a b c1 c2 ha hb he hp hi1 hi2 m x1 y1 x2 y2 inv done
  have hm := coef_m_pos hp
  have hsum := exec_ptAdd_same ha hb d he
  rw [addPoints_of_prime hp] at hsum
  refine ⟨fun hx => ?_, fun hx hy h0 => ?_, fun hx hy h0 => ?_⟩
  · rw [padd_of_chord hi1 hi2 fun h => hx (congrArg Nat.cast h), chord_eq hm] at hsum
    exact hsum
  · rw [padd_of_vertical hi1 hi2 (Int.ofNat_inj.mp hx) (Int.ofNat_inj.mp hy) (Int.ofNat_inj.mp h0)] at hsum
    exact hsum
  · rw [padd_of_tangent hi1 hi2 (Int.ofNat_inj.mp hx) (Int.ofNat_inj.mp hy) fun h => h0 (congrArg Nat.cast h),
      tangent_eq hm] at hsum
    exact hsum

/-- Settles O52: on a curve held to its equation no multiple is drawn and the loop runs over the digits of the scalar;
the scalar 0 and the point at infinity are exact on every curve. -/
theorem ptMulReducesScalar : Obligations.PtMulReducesScalar := by
  refine fun s d a b neg => ⟨encodes_of_wellFormed rfl, fun h => conclude_bind_error (pt_none h) s _, fun h => ?_,
    fun c k p hc hsecp huser hp => ?_, fun c hc hn h => ?_⟩
  · exact (conclude_bind_ok (pt_some h) s _).trans (conclude_error s .operand)
  · have hheld : HeldToEquation s c ∧ scalarFor s c a neg = k := by
      cases c with
      | secp => exact ⟨.inl rfl, scalarFor_secp (hsecp rfl)⟩
      | user =>
        obtain ⟨-, hk, hregular⟩ := huser rfl
        exact ⟨.inr ((userRegular_iff s).mpr hregular), hk.symm⟩
    obtain ⟨hheld, hk⟩ := hheld
    rw [exec_ptMul_point hc (fun e => (huser e).1) d a, hk, mulPoint_of_held hheld, hp]
    rfl
  · have hmul : mulPoint s c (scalarFor s c a neg) (s.getQ b).point = .infinity := by
      rcases h with h | ⟨hi, hx, hy⟩
      · rw [scalarFor_zero h, mulPoint_zero]
      · have hp : (s.getQ b).point = .infinity := by rw [PointReg.point, hi, hx, hy]; rfl
        rw [hp, mulPoint_infinity]
    rw [exec_ptMul_point hc hn d a, hmul]
    rfl

/-- Settles O53: what the two commands write, drawn or not, is a good point of the operand's curve. -/
theorem pointResultsStayInBounds : Obligations.PointResultsStayInBounds := by
  refine fun s d c ⟨_, hq, _⟩ => ⟨fun a b c2 ha hb he => ?_, fun a b hb => ?_⟩
  · exact ((goodPoint_of_reg (hq a) ha).add (goodPoint_of_reg (hq b) hb) he).completedInBounds
      (exec_ptAdd_same ha hb d he)
  · exact ((goodPoint_of_reg (hq b) hb).mul _).completedInBounds (exec_ptMul_point hb (fun _ => rfl) d a)

/-- Settles O47: PT_INF does nothing but the choice of its curve. -/
theorem ptInfChecksUserCurve : Obligations.PtInfChecksUserCurve :=
  fun s d _ => ⟨fun hs => encodes_of_wellFormed (decide_eq_true hs), conclude_setQ s d _,
    fun h => conclude_bind_error (selectCurve_user_modulus h) s _,
    fun hodd h3 => ⟨fun h => conclude_bind_error (selectCurve_user_range hodd h3 h) s _, fun ha hb =>
      (conclude_bind_ok (selectCurve_user hodd h3 ha hb) s _).trans (conclude_setQ s d _)⟩,
    fun h => conclude_bind_error (selectCurve_illegal s h) s _⟩

/-- Settles O48: the choice of the curve comes first, and R206's rule holds for the curve it lets through. -/
theorem ptNewChecksCurveEquation : Obligations.PtNewChecksCurveEquation :=
  fun s d a b _ => ⟨fun hs => encodes_of_wellFormed (decide_eq_true hs),
    ptNewRule_of_selectCurve (selectCurve_secp s) d prime_P.pos a b,
    fun h => conclude_bind_error (selectCurve_user_modulus h) s _,
    fun hodd h3 => ⟨fun h => conclude_bind_error (selectCurve_user_range hodd h3 h) s _, fun ha hb =>
      ptNewRule_of_selectCurve (selectCurve_user hodd h3 ha hb) d (Nat.zero_lt_of_lt ha) a b⟩,
    fun h => conclude_bind_error (selectCurve_illegal s h) s _⟩

/-- Settles O49: in cases 1 and 2 of R202 the sum is `padd`'s on every curve. -/
theorem ptAddChecksAndIdentities : Obligations.PtAddChecksAndIdentities := by
  refine fun s d a b => ⟨encodes_of_wellFormed rfl, fun h =>
    (congrArg (conclude s) (pt_pt_empty h _)).trans (conclude_error s .operand), fun c1 c2 ha hb =>
    ⟨exec_ptAdd_mismatch ha hb d, fun he => ?_⟩⟩
  rw [exec_ptAdd_same ha hb d he]
  refine ⟨fun h1 => ?_, fun h1 h2 => ?_, fun h1 h2 hx hy => ?_⟩
  · rw [addPoints_of_identity s c1 (.inl h1), padd_of_inf_left h1, pointReg_of_reg]
  · rw [addPoints_of_identity s c1 (.inr (.inl h2)), padd_of_inf_right h1 h2, pointReg_of_reg, ← ha]
  · have hne : (s.getQ a).point.y ≠ (s.getQ b).point.y := fun h => hy (BitVec.eq_of_toNat_eq h)
    have hxe : (s.getQ a).point.x = (s.getQ b).point.x := congrArg BitVec.toNat hx
    rw [addPoints_of_identity s c1 (.inr (.inr ⟨hxe, hne⟩)), padd_of_inverse h1 h2 hxe hne]
    rfl

/-- Settles O55: both operands are checked for `OPERAND`, and no check compares their curves. -/
theorem pointTests : Obligations.PointTests := by
  refine fun s a b => ⟨⟨encodes_of_wellFormed rfl, encodes_of_wellFormed rfl⟩, fun h =>
    (congrArg (conclude s) (pt_pt_empty h _)).trans (conclude_error s .operand), fun c1 c2 ha hb => ?_, fun h =>
    conclude_bind_error (pt_none h) s _, fun c h => conclude_bind_ok (pt_some h) s _⟩
  rw [← pointsEqual_of_regs]
  exact (conclude_bind_ok (pt_some ha) s _).trans (conclude_bind_ok (pt_some hb) s _)

/-- Settles O56: PT_GETX and PT_GETY are one extraction, PT_MOV has no check. -/
theorem pointExtraction : Obligations.PointExtraction :=
  fun s d q a => ⟨⟨encodes_of_wellFormed rfl, encodes_of_wellFormed rfl, encodes_of_wellFormed rfl⟩,
    fun h => ⟨conclude_coordinate_empty d Point.x h, conclude_coordinate_empty d Point.y h⟩,
    fun _ h => ⟨fun hi => ⟨conclude_coordinate_infinity d Point.x h hi, conclude_coordinate_infinity d Point.y h hi⟩,
      fun hi => ⟨conclude_coordinate_finite d Point.x h hi rfl, conclude_coordinate_finite d Point.y h hi rfl⟩⟩,
    conclude_setQ s q (s.getQ a)⟩
end

section
/-! SUPPORT. The secp256k1 point unit (43_secp256k1.md R233 to R235): the square-root candidate as an element of the
prime field, the y coordinate PT_DESER decodes, and how PT_DESER ends at each of its checks. -/

namespace Sys2Proof.Machine

/-! ### The square-root candidate (R233) -/

theorem sqrtP_lt (a : Nat) : sqrtP a < P := powmod_lt _ _ (by decide)

theorem sqrtP_cast (a : Nat) : ((sqrtP a : Nat) : ZMod P) = (a : ZMod P) ^ ((P + 1) / 4) := by
  rw [sqrtP, powmod_eq, ZMod.natCast_mod, Nat.cast_pow]

/-- The candidate's square is its argument, up to Euler's power. -/
theorem sqrtP_sq (a : Nat) : ((sqrtP a : Nat) : ZMod P) ^ 2 = a * (a : ZMod P) ^ (P / 2) := by
  rw [sqrtP_cast, ← pow_mul, ← pow_succ', show (P + 1) / 4 * 2 = P / 2 + 1 by decide]

theorem sqrtP_sq_of_isSquare {a : Nat} (h : IsSquare (a : ZMod P)) : ((sqrtP a : Nat) : ZMod P) ^ 2 = a := by
  have := Fact.mk prime_P
  rw [sqrtP_sq]
  by_cases h0 : (a : ZMod P) = 0
  · rw [h0, zero_mul]
  · rw [(ZMod.euler_criterion P h0).mp h, mul_one]

theorem sqrtP_sq_eq_or_eq_neg (a : Nat) :
    ((sqrtP a : Nat) : ZMod P) ^ 2 = a ∨ ((sqrtP a : Nat) : ZMod P) ^ 2 = -a := by
  have := Fact.mk prime_P
  rw [sqrtP_sq]
  by_cases h0 : (a : ZMod P) = 0
  · left
    rw [h0, zero_mul]
  · refine (ZMod.pow_div_two_eq_neg_one_or_one P h0).imp (fun h => ?_) fun h => ?_
    · rw [h, mul_one]
    · rw [h, mul_neg_one]

/-- Only a multiple of `P` has the candidate 0. -/
theorem cast_eq_zero_of_sqrtP {a : Nat} (h : sqrtP a = 0) : (a : ZMod P) = 0 := by
  have := Fact.mk prime_P
  refine eq_zero_of_pow_eq_zero (n := (P + 1) / 4) ?_
  rw [← sqrtP_cast, h, Nat.cast_zero]

/-- Two reduced numbers with one square are equal or opposite. -/
theorem eq_or_add_eq_P_of_sq {r y : Nat} (hr : r < P) (hy : y < P) (h : (r : ZMod P) ^ 2 = (y : ZMod P) ^ 2) :
    r = y ∨ r + y = P := by
  have := Fact.mk prime_P
  obtain he | he := sq_eq_sq_iff_eq_or_eq_neg.mp h
  · left
    rwa [ZMod.natCast_eq_natCast_iff', Nat.mod_eq_of_lt hr, Nat.mod_eq_of_lt hy] at he
  · have hdvd : P ∣ r + y := by
      rw [← ZMod.natCast_eq_zero_iff, Nat.cast_add, he, neg_add_cancel]
    obtain ⟨k, hk⟩ := hdvd
    have hk2 : k < 2 := by
      by_contra hge
      have := Nat.mul_le_mul_left P (Nat.le_of_not_lt hge)
      omega
    interval_cases k <;> omega

/-! ### The curve equation of secp256k1 (R235) -/

theorem curveEquation_secp_iff (x y : Nat) :
    CurveEquation ⟨0, 7, P⟩ x y ↔ (y : ZMod P) ^ 2 = (secpAlpha x : Nat) := by
  rw [CurveEquation, ← ZMod.natCast_eq_natCast_iff, secpAlpha, ZMod.natCast_mod, zero_mul, add_zero, Nat.cast_mul y y,
    pow_two]

theorem secpCheck_iff (x y : Nat) :
    imod ((y : Int) * y - secpAlpha x) P = 0 ↔ CurveEquation ⟨0, 7, P⟩ x y := by
  rw [curveEquation_secp_iff, imod_eq_zero_iff _ (by decide), Int.cast_sub, sub_eq_zero]
  push_cast
  rw [pow_two]

/-! ### The decoded y coordinate (R235) -/

theorem decodeY_four (alpha y : Nat) : decodeY 4 alpha y = y := rfl

theorem decodeY_two (alpha y : Nat) :
    decodeY 2 alpha y = if sqrtP alpha % 2 = 1 then P - sqrtP alpha else sqrtP alpha := rfl

theorem decodeY_three (alpha y : Nat) :
    decodeY 3 alpha y = if sqrtP alpha % 2 = 0 then P - sqrtP alpha else sqrtP alpha := rfl

/-- A compressed encoding takes the candidate or its opposite, which is below `P` unless the candidate is 0. -/
theorem decodeY_lt {pfx : BitVec 8} (hp : pfx = 2 ∨ pfx = 3) {alpha : Nat} (h0 : sqrtP alpha ≠ 0) (y : Nat) :
    decodeY pfx alpha y < P := by
  have hlt := sqrtP_lt alpha
  obtain rfl | rfl := hp
  · rw [decodeY_two]
    split <;> omega
  · rw [decodeY_three]
    split <;> omega

/-- The `pfx` of the parity of `y` selects `y` from a root and its opposite. -/
theorem decodeY_of_parity {alpha y : Nat} (h : sqrtP alpha = y ∨ sqrtP alpha + y = P) (yGiven : Nat) :
    decodeY (if y % 2 = 0 then 0x02 else 0x03) alpha yGiven = y := by
  have hodd : P % 2 = 1 := by decide
  have hlt := sqrtP_lt alpha
  by_cases hy : y % 2 = 0
  · rw [if_pos hy, decodeY_two]
    split <;> omega
  · rw [if_neg hy, decodeY_three]
    split <;> omega

/-! ### PT_DESER (R235) -/

section
variable {s : State} {a b : RIdx} {pfx : BitVec 8} (d : QIdx)

theorem exec_ptDeser_format (h2 : pfx ≠ 2) (h3 : pfx ≠ 3) (h4 : pfx ≠ 4) :
    exec (.ptDeser d a b pfx) s = .next (failed s .format) :=
  congrArg (conclude s) (if_pos ⟨h2, h3, h4⟩)

variable (hp : pfx = 2 ∨ pfx = 3 ∨ pfx = 4)
include hp

/-- The checks after that of `pfx`, for the y coordinate decoded. -/
theorem exec_ptDeser_of_decodeY {y : Nat} (hy : decodeY pfx (secpAlpha (s.getR a).v.toNat) (s.getR b).v.toNat = y) :
    exec (.ptDeser d a b pfx) s = conclude s
      (if P ≤ (s.getR a).v.toNat then .error .range
      else if P ≤ y then .error .range
      else if imod ((y : Int) * y - secpAlpha (s.getR a).v.toNat) P ≠ 0 then .error .notOnCurve
      else .ok (s.setQ d (pointReg .secp ⟨false, (s.getR a).v.toNat, y⟩))) := by
  subst hy
  exact congrArg (conclude s) (if_neg (by tauto))

theorem exec_ptDeser_range_x (hx : P ≤ (s.getR a).v.toNat) :
    exec (.ptDeser d a b pfx) s = .next (failed s .range) := by
  rw [exec_ptDeser_of_decodeY d hp rfl, if_pos hx]
  exact conclude_error s .range

variable (hx : (s.getR a).v.toNat < P) {y : Nat}
  (hy : decodeY pfx (secpAlpha (s.getR a).v.toNat) (s.getR b).v.toNat = y)
include hx hy

theorem exec_ptDeser_range_y (h : P ≤ y) : exec (.ptDeser d a b pfx) s = .next (failed s .range) := by
  rw [exec_ptDeser_of_decodeY d hp hy, if_neg (Nat.not_le.mpr hx), if_pos h]
  exact conclude_error s .range

theorem exec_ptDeser_notOnCurve (h : y < P) (hc : ¬ CurveEquation ⟨0, 7, P⟩ (s.getR a).v.toNat y) :
    exec (.ptDeser d a b pfx) s = .next (failed s .notOnCurve) := by
  rw [exec_ptDeser_of_decodeY d hp hy, if_neg (Nat.not_le.mpr hx), if_neg (Nat.not_le.mpr h),
    if_pos (mt (secpCheck_iff _ y).mp hc)]
  exact conclude_error s .notOnCurve

end

/-- A decoded point on the curve is the point written. -/
theorem exec_ptDeser_onCurve {s : State} {a b : RIdx} {pfx : BitVec 8} (d : QIdx) (hp : pfx = 2 ∨ pfx = 3 ∨ pfx = 4)
    (hx : (s.getR a).v.toNat < P) {y : Word256}
    (hy : decodeY pfx (secpAlpha (s.getR a).v.toNat) (s.getR b).v.toNat = y.toNat) (h : y.toNat < P)
    (hc : CurveEquation ⟨0, 7, P⟩ (s.getR a).v.toNat y.toNat) :
    exec (.ptDeser d a b pfx) s = .next (completedQ s d ⟨some .secp, false, (s.getR a).v, y⟩) := by
  rw [exec_ptDeser_of_decodeY d hp hy, if_neg (Nat.not_le.mpr hx), if_neg (Nat.not_le.mpr h),
    if_neg (not_not.mpr ((secpCheck_iff _ _).mpr hc)), conclude_setQ]
  simp only [pointReg, BitVec.ofNat_toNat, BitVec.setWidth_eq]

/-- A compressed encoding with an x coordinate of no point: the decoded y is in range, as the candidate is not 0. -/
theorem exec_ptDeser_no_root {s : State} {a : RIdx} {pfx : BitVec 8} (d : QIdx) (b : RIdx) (hp : pfx = 2 ∨ pfx = 3)
    (hx : (s.getR a).v.toNat < P) (hno : ¬ ∃ y, CurveEquation ⟨0, 7, P⟩ (s.getR a).v.toNat y) :
    exec (.ptDeser d a b pfx) s = .next (failed s .notOnCurve) := by
  have h0 : sqrtP (secpAlpha (s.getR a).v.toNat) ≠ 0 := fun h => hno ⟨0, by
    rw [curveEquation_secp_iff, cast_eq_zero_of_sqrtP h, Nat.cast_zero, zero_pow two_ne_zero]⟩
  exact exec_ptDeser_notOnCurve d (by tauto) hx rfl (decodeY_lt hp h0 _) fun hc => hno ⟨_, hc⟩

/-- The candidate for a point of secp256k1 is its y coordinate or the opposite one. -/
theorem sqrtP_secpAlpha {x y : Nat} (hy : y < P) (hc : CurveEquation ⟨0, 7, P⟩ x y) :
    sqrtP (secpAlpha x) = y ∨ sqrtP (secpAlpha x) + y = P := by
  rw [curveEquation_secp_iff] at hc
  have hsq : IsSquare ((secpAlpha x : Nat) : ZMod P) := ⟨y, by rw [← hc, pow_two]⟩
  exact eq_or_add_eq_P_of_sq (sqrtP_lt _) hy ((sqrtP_sq_of_isSquare hsq).trans hc.symm)

end Sys2Proof.Machine

open Sys2Proof Sys2Proof.Machine

/-- Settles O60: the candidate is a root, and `pfx` selects the root of the parity of `y`. -/
theorem secRoundTrip : Obligations.SecRoundTrip := by
  intro s d a b y hx hy hc
  exact exec_ptDeser_onCurve d (by split <;> tauto) hx (decodeY_of_parity (sqrtP_secpAlpha hy hc) _) hy hc

/-- Settles O59: the checks are disjoint, and a compressed encoding cannot decode to a y out of range where there is
no root. -/
theorem ptDeserChecks : Obligations.PtDeserChecks := by
  refine fun s d a b pfx => ⟨encodes_of_wellFormed rfl, fun h2 h3 h4 => ?_, fun hp => ?_, fun hx hy => ?_,
    fun hx hy => ⟨fun hc => ?_, fun hc => ?_⟩, fun hx hno => ?_⟩
  · exact exec_ptDeser_format d (by bv_omega) (by bv_omega) (by bv_omega)
  · exact exec_ptDeser_range_x d (by bv_omega)
  · exact exec_ptDeser_range_y d (by tauto) hx (decodeY_four _ _) hy
  · exact exec_ptDeser_notOnCurve d (by tauto) hx (decodeY_four _ _) hy hc
  · exact exec_ptDeser_onCurve d (by tauto) hx (decodeY_four _ _) hy hc
  · exact ⟨exec_ptDeser_no_root d b (.inl rfl) hx hno, exec_ptDeser_no_root d b (.inr rfl) hx hno⟩

/-- Settles O58: by Euler's criterion, since `P` is prime and 3 modulo 4. -/
theorem feSqrtOfSquare : Obligations.FeSqrtOfSquare := by
  refine fun s d a => ⟨encodes_of_wellFormed rfl, fun h => conclude_fe_untagged h _, fun m hm hne => ?_, fun hm =>
    ⟨sqrtP (s.getR a).v.toNat, ?_, powmod_eq _ _ _, fun u hu => ?_, ?_⟩⟩
  · exact (conclude_bind_ok (fe_tagged hm) s _).trans (congrArg (conclude s) (if_pos hne))
  · exact (conclude_bind_ok (fe_tagged hm) s _).trans (congrArg (conclude s) (if_neg (not_not.mpr rfl)))
  · have hsq : IsSquare (((s.getR a).v.toNat : Nat) : ZMod P) :=
      ⟨u, by rw [hu, ZMod.natCast_mod, Nat.cast_mul]⟩
    have hv := sqrtP_sq_of_isSquare hsq
    rw [pow_two, ← Nat.cast_mul, ZMod.natCast_eq_natCast_iff'] at hv
    rwa [hu, Nat.mod_mod, ← hu] at hv
  · refine (sqrtP_sq_eq_or_eq_neg (s.getR a).v.toNat).imp (fun h => ?_) fun h => ?_
    · rwa [pow_two, ← Nat.cast_mul, ZMod.natCast_eq_natCast_iff'] at h
    · rw [← Nat.dvd_iff_mod_eq_zero, ← ZMod.natCast_eq_zero_iff, Nat.cast_add, Nat.cast_mul, ← pow_two, h,
        neg_add_cancel]

/-- Settles O57: the generator's coordinates are the constants of R232. -/
theorem ptGenLoadsGenerator : Obligations.PtGenLoadsGenerator := fun s d =>
  ⟨encodes_of_wellFormed rfl, conclude_setQ s d (pointReg .secp ⟨false, Gx, Gy⟩),
    (onCurve_iff_curveEquation (k := ⟨0, 7, P⟩) (by decide) Gx Gy).mp generator_onCurve⟩
end

section
/-! SUPPORT. Commands and errors (60_exceptions.md): what every completion settles and leaves as it was, the engine's
turn on a decodable word, the writes to `CMD` and `STATUS`, the interrupt level, and what ends a recorded error. -/

namespace Sys2Proof.Machine

/-! ### Completion (R256, R271) -/

/-- `t` is `s` after a completion: the command is over, and what no command writes is as it was. -/
structure Completion (s t : State) : Prop where
  busy : t.busy = false
  done : t.done = true
  cmd : t.cmd = s.cmd
  mod : t.mod = s.mod
  ca : t.ca = s.ca
  cb : t.cb = s.cb
  ieDone : t.ieDone = s.ieDone
  ieErr : t.ieErr = s.ieErr
  ovr : t.ovr = s.ovr
  rst : t.rst = s.rst
  inputs : t.inputs = s.inputs
  resp : t.resp = s.resp

theorem completion_raise (s : State) (e : ErrCode) : Completion s (s.raise e) := by constructor <;> rfl

theorem exec_completion {i : Instr} {s t : State} (h : exec i s = .next t) : Completion s t := by
  cases exec_effect h with
  | failed e => exact completion_raise s e
  | bare | wroteR | wroteQ | wroteT => constructor <;> rfl

theorem complete_completion {s t : State} (h : complete s = .next t) : Completion s t := by
  rcases complete_eq s with ⟨i, -, he⟩ | ⟨-, -, he⟩
  · exact exec_completion (he ▸ h)
  · obtain rfl : s.raise .illegal = t := by rw [he] at h; cases h; rfl
    exact completion_raise s .illegal

/-- The engine's turn on a word that decodes runs its command (R256). -/
theorem engineTurn_of_decode {s : State} {i : Instr} (hb : s.busy = true) (hr : s.rst = false)
    (h : decode s.cmd = .ok i) : engineTurn s = exec i s := by
  rw [engineTurn_busy hb hr, complete, State.fetch, h]

/-- A host read leaves the engine as it is (20_memory.md R80). -/
theorem hostAccess_read (addr : BitVec 11) (size : Nat) (s : State) :
    ∃ x, hostAccess (.read addr size) s = { s with resp := x } := by
  refine (hostAccess_cases _ s).resolve_right ?_
  rintro ⟨_, _, e, -⟩
  cases e

/-- The command in flight completes in the step after the host's reads `es`. -/
theorem run_reads_completion (es : List Event) (s : State) (hb : s.busy = true) (hr : s.rst = false)
    (hes : ∀ e ∈ es, ∃ addr size, e = .access (.read addr size)) (hi : s.inputs = es) :
    ∃ t, Host.Core.run Sys2Proof.core (es.length + 1) s = .next t ∧ t.busy = false ∧ t.done = true ∧
      t.inputs = [] := by
  induction es generalizing s with
  | nil =>
    obtain ⟨t, ht⟩ := complete_total s
    have hstep : step s = .next t := (step_empty hi).trans ((engineTurn_busy hb hr).trans ht)
    have hc := complete_completion ht
    exact ⟨t, run_next 0 hstep, hc.busy, hc.done, hc.inputs.trans hi⟩
  | cons e es ih =>
    obtain ⟨⟨addr, size, rfl⟩, hreads⟩ := List.forall_mem_cons.mp hes
    obtain ⟨x, hx⟩ := hostAccess_read addr size { s with inputs := es }
    have hstep : step s = .next { s with inputs := es, resp := x } := by rw [step_access hi hr, hx]
    obtain ⟨t, hrun, ht⟩ := ih { s with inputs := es, resp := x } hb hr hreads rfl
    exact ⟨t, (run_next _ hstep).trans hrun, ht⟩

/-! ### Acceptance (R255) -/

theorem offer_of_blocked {s : State} (h : s.busy = true ∨ s.err = true) (v : Word) : s.offer v = s.overrun :=
  if_pos (by simpa using h)

theorem offer_of_ready {s : State} (hb : s.busy = false) (he : s.err = false) (v : Word) : s.offer v = s.accept v :=
  if_neg (by simp [hb, he])

/-- The next step after a placed word is the engine's turn (log entry 5), on the state with that word accepted. -/
theorem step_withFetchWord (s : State) (w : Nat) :
    step (s.withFetchWord 32 w) = engineTurn { s with
      cmd := BitVec.ofNat 32 w, busy := true, done := false, err := false, errcode := .none, rst := false } := by
  have hw : BitVec.ofNat 32 (w % 2 ^ 32) = BitVec.ofNat 32 w := BitVec.eq_of_toNat_eq (by simp)
  rw [State.withFetchWord, hw]
  cases hi : s.inputs with
  | nil => exact step_empty rfl
  | cons e es => exact step_engine rfl

/-! ### The write to `STATUS` (R258) -/

theorem and_not_eq_ite (a b : Bool) : (a && !b) = if b then false else a := by cases b <;> simp

theorem clearStatus_eq (s : State) (v : Word) : s.clearStatus v = { s with
    err := if v.getLsbD 2 then false else s.err
    errcode := if v.getLsbD 2 then .none else s.errcode
    done := if v.getLsbD 1 then false else s.done
    ovr := if v.getLsbD 3 then false else s.ovr } := by
  simp only [State.clearStatus, and_not_eq_ite]

/-! ### The interrupt level (R260) -/

theorem irq_iff (s : State) :
    s.irq = true ↔ (s.done = true ∧ s.ieDone = true) ∨ (s.err = true ∧ s.ieErr = true) := by
  simp [State.irq]

theorem irq_of_no_error {s : State} (h : s.err = false) : s.irq = (s.done && s.ieDone) := by simp [State.irq, h]

/-! ### A recorded error (R257, R259) -/

/-- The error recorded in `s` is recorded in `t`, and no command has been accepted since. -/
def ErrorHeld (s t : State) : Prop :=
  t.err = true ∧ t.errcode = s.errcode ∧ t.errcmd = s.errcmd ∧ t.cmd = s.cmd ∧ t.busy = false

/-- A host write leaves a recorded error as it is, clears it, or is a soft reset. -/
theorem written_errorHeld {s t : State} {v : Word} {loc : Loc} (he : s.err = true) (hb : s.busy = false)
    (h : Written s v loc t) :
    ErrorHeld s t ∨ loc = .status ∧ v.getLsbD 2 = true ∨ loc = .ctrl ∧ v.getLsbD 31 = true := by
  cases h with
  | status =>
    cases hv : v.getLsbD 2 with
    | true => exact .inr (.inl ⟨rfl, rfl⟩)
    | false =>
      have herr : (s.clearStatus v).err = true := by rw [State.clearStatus_err, he, hv]; rfl
      have hcode : (s.clearStatus v).errcode = s.errcode := by rw [State.clearStatus_errcode, hv]; rfl
      exact .inl ⟨herr, hcode, rfl, rfl, hb⟩
  | softReset hv => exact .inr (.inr ⟨rfl, hv⟩)
  | accepted hne => rw [he] at hne; cases hne
  | ignored | discarded | enables | mod | ca | cb | reg => exact .inl ⟨he, rfl, rfl, rfl, hb⟩

/-- `STATUS` stands at one offset (20_memory.md R71). -/
theorem locate_eq_status {addr : Nat} (h : locate addr = .status) : addr = 0x008 := by
  simp only [locate, ite_eq_iff, reduceCtorEq, and_false, or_false] at h
  obtain ⟨-, h⟩ := h
  split at h
  all_goals cases h
  rfl

end Sys2Proof.Machine

open Sys2Proof Sys2Proof.Machine

/-- Settles O9, from what every completion has in common. -/
theorem everyCommandCompletes : Obligations.EveryCommandCompletes := by
  intro i s
  obtain ⟨t, h⟩ := exec_total i s
  have hc := exec_completion h
  exact ⟨t, h, hc.busy, hc.done, hc.cmd, hc.mod, hc.ca, hc.cb, hc.ieDone, hc.ieErr, hc.ovr, hc.rst,
    hc.inputs, hc.resp⟩

/-- Settles O11: of the effects of a completion only the recorded error sets `ERR`. -/
theorem errorsArePrecise : Obligations.ErrorsArePrecise := by
  intro i s t he h ht
  cases exec_effect h with
  | failed e hne => exact ⟨hne, rfl⟩
  | bare | wroteR | wroteQ | wroteT => exact absurd (he.symm.trans ht) (by decide)

/-- Settles O14, by the cases of a step: without a command in flight only the host or a reset can end the error. -/
theorem errorBlocksCommands : Obligations.ErrorBlocksCommands := by
  intro s t he hb h
  cases stepped_of_step h with
  | idle => exact .inl ⟨he, rfl, rfl, rfl, hb⟩
  | completes rest _ hbusy => rw [hb] at hbusy; cases hbusy
  | reset rest level hi => exact .inr (.inr (.inr ⟨level, rest, hi⟩))
  | access rest a hi =>
    rcases hostAccess_cases a { s with inputs := rest } with ⟨x, e⟩ | ⟨addr, v, rfl, -, e⟩ <;> rw [e]
    · exact .inl ⟨he, rfl, rfl, rfl, hb⟩
    · have hw := written_writeLoc { s with inputs := rest } v (locate addr.toNat)
      rcases written_errorHeld (s := { s with inputs := rest }) he hb hw with hheld | ⟨hl, hv⟩ | ⟨hl, hv⟩
      · exact .inl hheld
      · obtain rfl : addr = 0x008 := BitVec.eq_of_toNat_eq (locate_eq_status hl)
        exact .inr (.inl ⟨v, rest, hi, hv⟩)
      · obtain rfl : addr = 0x004 := BitVec.eq_of_toNat_eq (locate_eq_ctrl hl)
        exact .inr (.inr (.inl ⟨v, rest, hi, hv⟩))

/-- Settles O15: a completion sets `DONE` and keeps the enables, and acceptance clears `DONE`. -/
theorem interruptLevel : Obligations.InterruptLevel := by
  refine ⟨irq_iff, fun i s t h => ?_, fun s v he => ?_, rfl⟩
  · have hc := exec_completion h
    simp [irq_iff, hc.done, hc.ieDone, hc.ieErr]
  · cases hb : s.busy with
    | true => rw [offer_of_blocked (.inl hb), Bool.true_and]; rfl
    | false => rw [offer_of_ready hb he, Bool.false_and]; exact irq_of_no_error he

/-- Settles O16, by induction on the pending reads. -/
theorem commandInFlightCompletes : Obligations.CommandInFlightCompletes :=
  fun s hb hr hreads => run_reads_completion s.inputs s hb hr hreads rfl

/-- Settles O6: with an empty list of events, at an engine event, and after a placed word, the step is the engine's
turn. -/
theorem stepRunsDecodedCommand : Obligations.StepRunsDecodedCommand :=
  ⟨fun _ _ hb hr h => ⟨fun hi => (step_empty hi).trans (engineTurn_of_decode hb hr h),
    fun _ hi => (step_engine hi).trans (engineTurn_of_decode hb hr h)⟩,
    fun s w _ h => (step_withFetchWord s w).trans (engineTurn_of_decode rfl rfl h)⟩

/-- Settles O8: `CMD` stands at 0x00C, and a write there is an offer of the word. -/
theorem commandWriteAcceptance : Obligations.CommandWriteAcceptance := by
  intro s v rest hn
  have hstep : step s = .next { ({ s with inputs := rest } : State).offer v with resp := .ack } :=
    step_nextWrite hn (by decide) (by decide)
  refine ⟨fun hblocked => ?_, fun hb he => ?_⟩
  · rw [hstep, offer_of_blocked (s := { s with inputs := rest }) hblocked]; rfl
  · rw [hstep, offer_of_ready (s := { s with inputs := rest }) hb he]; rfl

/-- Settles O13: `STATUS` stands at 0x008; with `ERR` cleared, `irq` is its `DONE` part. -/
theorem statusWriteClears : Obligations.StatusWriteClears := by
  intro s v rest hn
  have hstep : step s = .next { ({ s with inputs := rest } : State).clearStatus v with resp := .ack } :=
    step_nextWrite hn (by decide) (by decide)
  refine ⟨_, hstep, by rw [clearStatus_eq], fun hv => irq_of_no_error ?_⟩
  simp [hv]
end

section
/-! SUPPORT. Resets and discarded writes (70_reset_and_hazards.md): which writes the engine discards, by location and by
offset, that such a write sets `OVR` and nothing else does, and the write to `CTRL`. -/

namespace Sys2Proof.Machine

/-! ### Discarded writes (R305) -/

/-- A write to the location is discarded in `s`. -/
def Discards (s : State) : Loc → Prop
  | .cmd => s.busy = true ∨ s.err = true
  | .mod _ | .ca _ | .cb _ | .reg _ _ => s.busy = true
  | .id | .ctrl | .status | .errcmd | .rtags | .qx _ _ | .qy _ _ | .qstat _ | .reserved => False

theorem writeLoc_of_discards {s : State} {loc : Loc} (h : Discards s loc) (v : Word) :
    s.writeLoc v loc = s.overrun := by
  cases loc with
  | cmd => exact offer_of_blocked h v
  | mod | ca | cb | reg => exact if_pos h
  | id | ctrl | status | errcmd | rtags | qx | qy | qstat | reserved => exact h.elim

theorem busy_of_unlessBusy_ovr {s s' : State} (h : (s.unlessBusy s').ovr = true) (hs' : s'.ovr = false) :
    s.busy = true := by
  rcases unlessBusy_cases s s' with ⟨hb, -⟩ | ⟨-, e⟩
  · exact hb
  · rw [e, hs'] at h; cases h

/-- A write that is not discarded does not set `OVR`. -/
theorem discards_of_writeLoc_ovr {s : State} {v : Word} {loc : Loc} (ho : s.ovr = false)
    (h : (s.writeLoc v loc).ovr = true) : Discards s loc := by
  cases loc with
  | ctrl =>
    rcases writeCtrl_cases s v with ⟨-, e⟩ | ⟨-, e⟩ <;> rw [State.writeLoc, e] at h
    · cases h
    · exact absurd (ho.symm.trans h) (by decide)
  | status =>
    rw [State.writeLoc, State.clearStatus_ovr, ho] at h
    cases h
  | cmd =>
    by_contra hready
    obtain ⟨hb, he⟩ : s.busy = false ∧ s.err = false := by simpa [Discards] using hready
    rw [State.writeLoc, offer_of_ready hb he, State.accept_ovr, ho] at h
    cases h
  | mod | ca | cb | reg => exact busy_of_unlessBusy_ovr h ho
  | id | errcmd | rtags | qx | qy | qstat | reserved => exact absurd (ho.symm.trans h) (by decide)

/-- The offsets whose writes can be discarded, by the map of 20_memory.md R71. -/
theorem discards_locate_iff (s : State) (addr : Nat) : Discards s (locate addr) ↔
    (addr = 0x00C ∧ (s.busy = true ∨ s.err = true)) ∨
      (s.busy = true ∧ ((0x020 ≤ addr ∧ addr < 0x080) ∨ (0x100 ≤ addr ∧ addr < 0x300))) := by
  unfold locate
  split_ifs
  · split <;> grind [Discards]
  all_goals grind [Discards]

/-- A discarded write is acknowledged. -/
theorem step_discardedWrite {s : State} {addr : BitVec 11} {v : Word} {rest : List Event} (hr : s.rst = false)
    (hi : s.inputs = .access (.write addr 4 v) :: rest) (h4 : addr.toNat % 4 = 0)
    (hd : Discards s (locate addr.toNat)) : step s = .next (afterDiscarded s rest) := by
  have hp : portOk addr 4 = true := by simp [portOk, h4]
  have hd' : Discards { s with inputs := rest } (locate addr.toNat) := by rwa [discards_locate_iff] at hd ⊢
  rw [step_access hi hr, hostAccess, if_pos hp, writeLoc_of_discards hd']
  rfl

theorem rst_of_step_access {s t : State} {a : Access} {rest : List Event} (hi : s.inputs = .access a :: rest)
    (h : step s = .next t) : s.rst = false := by
  cases hr : s.rst with
  | false => rfl
  | true => rw [step_refused hi hr] at h; cases h

theorem driveReset_ovr {s : State} (ho : s.ovr = false) (level : Bool) : (s.driveReset level).ovr = false := by
  rcases driveReset_cases s level with e | ⟨-, e⟩ <;> rw [e]
  · rfl
  · exact ho

/-- Only a discarded write sets `OVR`, by the cases of a step. -/
theorem discards_of_step_ovr {s t : State} (ho : s.ovr = false) (h : step s = .next t) (ht : t.ovr = true) :
    ∃ (addr : BitVec 11) (v : Word) (rest : List Event), s.inputs = .access (.write addr 4 v) :: rest ∧
      addr.toNat % 4 = 0 ∧ Discards s (locate addr.toNat) := by
  cases stepped_of_step h with
  | idle => exact absurd (ho.symm.trans ht) (by decide)
  | completes rest _ _ _ hc => exact absurd (ho.symm.trans ((complete_completion hc).ovr.symm.trans ht)) (by decide)
  | reset rest level => rw [driveReset_ovr (s := { s with inputs := rest }) ho] at ht; cases ht
  | access rest a hi =>
    rcases hostAccess_cases a { s with inputs := rest } with ⟨x, e⟩ | ⟨addr, v, rfl, h4, e⟩ <;> rw [e] at ht
    · exact absurd (ho.symm.trans ht) (by decide)
    · have hd := discards_of_writeLoc_ovr (s := { s with inputs := rest }) ho ht
      rw [discards_locate_iff] at hd
      exact ⟨addr, v, rest, hi, h4, (discards_locate_iff s _).mpr hd⟩

/-! ### The write to `CTRL` (R291) -/

theorem writeCtrl_reset {v : Word} (h : v.getLsbD 31 = true) (s : State) : s.writeCtrl v = s.softReset := if_pos h

theorem writeCtrl_enables {v : Word} (h : v.getLsbD 31 = false) (s : State) :
    s.writeCtrl v = { s with ieDone := v.getLsbD 0, ieErr := v.getLsbD 1 } :=
  if_neg (Bool.eq_false_iff.mp h)

/-! ### The reset input (R290) -/

/-- While it is asserted, the reset input keeps the engine in the reset state at either level. -/
theorem driveReset_of_rst {s : State} (hr : s.rst = true) (level : Bool) :
    s.driveReset level = { State.reset with rst := level, inputs := s.inputs } := if_pos (by simp [hr])

end Sys2Proof.Machine

open Sys2Proof Sys2Proof.Machine

/-- Settles O27: a discarded write gives the state named, and no other step sets `OVR`. -/
theorem overrunExactlyOnDiscard : Obligations.OverrunExactlyOnDiscard := by
  intro s t ho h
  have hset : ∀ {addr v rest}, s.inputs = .access (.write addr 4 v) :: rest → addr.toNat % 4 = 0 →
      Discards s (locate addr.toNat) → t = afterDiscarded s rest := by
    intro addr v rest hi h4 hd
    rw [step_discardedWrite (rst_of_step_access hi h) hi h4 hd] at h
    cases h
    rfl
  simp only [← discards_locate_iff]
  refine ⟨⟨discards_of_step_ovr ho h, ?_⟩, fun ht => ?_⟩
  · rintro ⟨addr, v, rest, hi, h4, hd⟩
    rw [hset hi h4 hd]
    rfl
  · obtain ⟨addr, v, rest, hi, h4, hd⟩ := discards_of_step_ovr ho h ht
    exact ⟨rest, hset hi h4 hd⟩

/-- Settles O29: `CTRL` stands at 0x004, and bit 31 alone decides what a write there does. -/
theorem softReset : Obligations.SoftReset := by
  intro s v rest hn
  have hstep : step s = .next { ({ s with inputs := rest } : State).writeCtrl v with resp := .ack } :=
    step_nextWrite hn (by decide) (by decide)
  obtain ⟨hr, -⟩ := hn
  refine ⟨fun hv => ?_, fun hv => ?_⟩
  · rw [hstep, writeCtrl_reset hv, State.softReset, hr]; rfl
  · rw [hstep, writeCtrl_enables hv]

/-- Settles O30, by the kind of event that comes while the reset input is asserted. -/
theorem hardReset : Obligations.HardReset := by
  refine fun s rest => ⟨fun hi => ?_, fun hr => ⟨fun a hi => step_refused hi hr, fun hi => ?_, fun hi => ?_,
    fun hi => ?_⟩⟩
  · rw [step_rst hi, driveReset_true]
  · exact (step_engine hi).trans (engineTurn_idle (.inr hr))
  · exact (step_empty hi).trans (engineTurn_idle (.inr hr))
  · rw [step_rst hi, driveReset_of_rst (s := { s with inputs := rest }) hr]
    rfl
end
